-- ==== Sys2Proof/Word.lean ====
section
/-! DEFINITION. The word types of the block: bytes on the data bus, the 14-bit output latch, the 15-bit register
pair, 32-bit host words (00_scope.md R7, 10_state.md R20 to R23). -/

namespace Sys2Proof

/-- A byte: 8 bits, bit i on `io[i]` (20_memory.md R65). -/
abbrev Byte := BitVec 8

/-- The bits 13:0 of the Bus Register that have a latch (10_state.md R21). -/
abbrev Latch := BitVec 14

/-- All 15 bits of the Bus Register or of the Direction Register (10_state.md R20, R23). -/
abbrev Lines15 := BitVec 15

/-- A host word (20_memory.md R62). -/
abbrev Word := BitVec 32

end Sys2Proof
end

