-- ==== Sys2Proof/Syntax.lean ====
section
/-! DEFINITION. The operations of the block: one constructor per row of spec/opcode_table.json, that is the 29 host
operations of 30_encoding.md R82 with the IMM8 fields of R83, and the 18 NAND command bytes of R88. -/

namespace Sys2Proof

/-- The argument of setDataDirection: 1 = Output, 0 = Input (30_encoding.md R83, 40_bus_interface.md R113). -/
inductive Direction where
  | input
  | output
deriving DecidableEq, Repr, Inhabited

/-- One constructor per row of the opcode table. Operands that come from ABUF, TXBUF, LEN and PAGES are not part of
the word (30_encoding.md R81), so they are not here. -/
inductive Instr where
  /-- SETLINE: IMM8[3:0] the line, IMM8[4] the level. -/
  | setline (line : BitVec 4) (value : Bool)
  /-- READLINE: IMM8[3:0] the line. -/
  | readline (line : BitVec 4)
  /-- WRDATA: IMM8 the byte. -/
  | wrdata (byte : Byte)
  | rddata
  /-- SETDIR: IMM8[0] the direction. -/
  | setdir (dir : Direction)
  /-- WAIT: IMM8[3:0] the timing selector of R84. -/
  | wait (sel : BitVec 4)
  /-- SENDCMD: IMM8 the NAND command byte, any value. -/
  | sendcmd (cmd : Byte)
  /-- SENDADDR: IMM8[2:0] the number of address bytes. -/
  | sendaddr (n : BitVec 3)
  | senddata
  | recvdata
  | waitrdy
  | init
  | reset
  | resetlun
  | rdmfid
  | rdonfiid
  | rdjedecid
  | rduid
  | rdstatus
  | rdstatuse
  | rdpage
  | chgrdcol
  | chgwrcol
  | chgrow
  | progpage
  | progcache
  | erase
  | perase
  | rdcacheseq
  -- the NAND command bytes of R88
  | nandReset
  | nandResetLun
  | nandReadId
  | nandReadUniqueId
  | nandReadStatus
  | nandReadStatusEnh
  | nandRead1
  | nandRead2
  | nandReadCacheNext
  | nandReadCacheLast
  | nandChgRdCol1
  | nandChgRdCol2
  | nandProgram1
  | nandProgram2
  | nandProgramCache
  | nandChgWrColRow
  | nandErase1
  | nandErase2
deriving DecidableEq, Repr, Inhabited

end Sys2Proof
end

