-- ==== Sys2Proof/WellFormed.lean ====
section
/-! DEFINITION. The part of an operation's domain that its own fields decide, whatever the state (30_encoding.md R85,
R84, R96): the line identifiers, the timing selectors and the address lengths that exist. The state's part of the
domain stands in each meaning. -/

namespace Sys2Proof

/-- The fields are inside the domain of 30_encoding.md R96: SETLINE 8 to 13, READLINE 8 to 14, WAIT 0 to 11,
SENDADDR at most 5. Every other operation's fields are all admitted. -/
def Instr.wellFormed : Instr → Bool
  | .setline line _ => decide (8 ≤ line.toNat ∧ line.toNat ≤ 13)
  | .readline line => decide (8 ≤ line.toNat ∧ line.toNat ≤ 14)
  | .wait sel => decide (sel.toNat ≤ 11)
  | .sendaddr n => decide (n.toNat ≤ 5)
  | .wrdata _ | .rddata | .setdir _ | .sendcmd _ | .senddata | .recvdata | .waitrdy => true
  | .init | .reset | .resetlun => true
  | .rdmfid | .rdonfiid | .rdjedecid | .rduid | .rdstatus | .rdstatuse => true
  | .rdpage | .chgrdcol | .chgwrcol | .chgrow | .progpage | .progcache | .erase | .perase | .rdcacheseq => true
  | .nandReset | .nandResetLun | .nandReadId | .nandReadUniqueId | .nandReadStatus | .nandReadStatusEnh => true
  | .nandRead1 | .nandRead2 | .nandReadCacheNext | .nandReadCacheLast | .nandChgRdCol1 | .nandChgRdCol2 => true
  | .nandProgram1 | .nandProgram2 | .nandProgramCache | .nandChgWrColRow | .nandErase1 | .nandErase2 => true

end Sys2Proof
end

