-- ==== Sys2Proof/Decode.lean ====
section
/-! DEFINITION. The two encodings of 30_encoding.md R80 and their decoder, total and rejecting by name, with the
encoder after it: the host operation word (R81 to R86) and the NAND command byte on the wire (R88). -/

namespace Sys2Proof

/-- Which of the two encodings of R80 a code is in: a word written to OPW, or a command byte on the wire. -/
inductive Code where
  | opw (w : Word)
  | wire (b : Byte)
deriving DecidableEq, Repr

/-- Why a code stands for no row of the table: a reserved op code (R86, the host then sees ILLOP), or a command byte
outside R88 (which SENDCMD sends all the same, R89). -/
inductive DecodeError where
  | reservedOpcode (opc : BitVec 6)
  | unlistedCommand (b : Byte)
deriving DecidableEq, Repr

/-- OPC, bits 5:0 of the operation word (R81). -/
def opcField (w : Word) : BitVec 6 := w.extractLsb' 0 6

/-- IMM8, bits 15:8 of the operation word (R81). -/
def imm8Field (w : Word) : Byte := w.extractLsb' 8 8

/-- IMM8[3:0]: the line identifier or the timing selector (R83). -/
def immLow4 (imm : Byte) : BitVec 4 := imm.extractLsb' 0 4

/-- IMM8[4]: the level SETLINE drives (R83). -/
def immValue (imm : Byte) : Bool := imm.getLsbD 4

/-- IMM8[2:0]: the number of address bytes (R83). -/
def immCount (imm : Byte) : BitVec 3 := imm.extractLsb' 0 3

/-- IMM8[0]: 1 = Output, 0 = Input (R83). -/
def immDirection (imm : Byte) : Direction := if imm.getLsbD 0 then .output else .input

/-- The operation a word written to OPW names: bits 5:0 select the row (R82), bits 7:6 and 31:16 and the unused bits
of IMM8 are ignored (R81, R83), every other op code is reserved (R86). -/
def decodeOpw (w : Word) : Except DecodeError Instr :=
  let imm := imm8Field w
  match (opcField w).toNat with
  | 0x01 => .ok (.setline (immLow4 imm) (immValue imm))
  | 0x02 => .ok (.readline (immLow4 imm))
  | 0x03 => .ok (.wrdata imm)
  | 0x04 => .ok .rddata
  | 0x05 => .ok (.setdir (immDirection imm))
  | 0x08 => .ok (.wait (immLow4 imm))
  | 0x10 => .ok (.sendcmd imm)
  | 0x11 => .ok (.sendaddr (immCount imm))
  | 0x12 => .ok .senddata
  | 0x13 => .ok .recvdata
  | 0x18 => .ok .waitrdy
  | 0x20 => .ok .init
  | 0x21 => .ok .reset
  | 0x22 => .ok .resetlun
  | 0x28 => .ok .rdmfid
  | 0x29 => .ok .rdonfiid
  | 0x2A => .ok .rdjedecid
  | 0x2B => .ok .rduid
  | 0x2C => .ok .rdstatus
  | 0x2D => .ok .rdstatuse
  | 0x30 => .ok .rdpage
  | 0x31 => .ok .chgrdcol
  | 0x32 => .ok .chgwrcol
  | 0x33 => .ok .chgrow
  | 0x34 => .ok .progpage
  | 0x35 => .ok .progcache
  | 0x36 => .ok .erase
  | 0x37 => .ok .perase
  | 0x38 => .ok .rdcacheseq
  | _ => .error (.reservedOpcode (opcField w))

/-- The row of R88 a command byte is, if it is one. -/
def decodeWire (b : Byte) : Except DecodeError Instr :=
  match b.toNat with
  | 0xFF => .ok .nandReset
  | 0xFA => .ok .nandResetLun
  | 0x90 => .ok .nandReadId
  | 0xED => .ok .nandReadUniqueId
  | 0x70 => .ok .nandReadStatus
  | 0x78 => .ok .nandReadStatusEnh
  | 0x00 => .ok .nandRead1
  | 0x30 => .ok .nandRead2
  | 0x31 => .ok .nandReadCacheNext
  | 0x3F => .ok .nandReadCacheLast
  | 0x05 => .ok .nandChgRdCol1
  | 0xE0 => .ok .nandChgRdCol2
  | 0x80 => .ok .nandProgram1
  | 0x10 => .ok .nandProgram2
  | 0x15 => .ok .nandProgramCache
  | 0x85 => .ok .nandChgWrColRow
  | 0x60 => .ok .nandErase1
  | 0xD0 => .ok .nandErase2
  | _ => .error (.unlistedCommand b)

/-- The decoder over both encodings (R80). -/
def decode : Code → Except DecodeError Instr
  | .opw w => decodeOpw w
  | .wire b => decodeWire b

/-- An operation word with the ignored bits written as 0 (R81). -/
def opwWord (opc : BitVec 6) (imm : Byte) : Word := 0#16 ++ imm ++ 0#2 ++ opc

/-- The IMM8 bit of a direction (R83). -/
def directionBit : Direction → Bool
  | .input => false
  | .output => true

/-- The word of an operation, or the byte of a wire command, from the tables of R82, R83 and R88, ignored bits 0. -/
def encode : Instr → Code
  | .setline line value => .opw (opwWord 0x01#6 (0#3 ++ BitVec.ofBool value ++ line))
  | .readline line => .opw (opwWord 0x02#6 (0#4 ++ line))
  | .wrdata byte => .opw (opwWord 0x03#6 byte)
  | .rddata => .opw (opwWord 0x04#6 0#8)
  | .setdir dir => .opw (opwWord 0x05#6 (0#7 ++ BitVec.ofBool (directionBit dir)))
  | .wait sel => .opw (opwWord 0x08#6 (0#4 ++ sel))
  | .sendcmd cmd => .opw (opwWord 0x10#6 cmd)
  | .sendaddr n => .opw (opwWord 0x11#6 (0#5 ++ n))
  | .senddata => .opw (opwWord 0x12#6 0#8)
  | .recvdata => .opw (opwWord 0x13#6 0#8)
  | .waitrdy => .opw (opwWord 0x18#6 0#8)
  | .init => .opw (opwWord 0x20#6 0#8)
  | .reset => .opw (opwWord 0x21#6 0#8)
  | .resetlun => .opw (opwWord 0x22#6 0#8)
  | .rdmfid => .opw (opwWord 0x28#6 0#8)
  | .rdonfiid => .opw (opwWord 0x29#6 0#8)
  | .rdjedecid => .opw (opwWord 0x2A#6 0#8)
  | .rduid => .opw (opwWord 0x2B#6 0#8)
  | .rdstatus => .opw (opwWord 0x2C#6 0#8)
  | .rdstatuse => .opw (opwWord 0x2D#6 0#8)
  | .rdpage => .opw (opwWord 0x30#6 0#8)
  | .chgrdcol => .opw (opwWord 0x31#6 0#8)
  | .chgwrcol => .opw (opwWord 0x32#6 0#8)
  | .chgrow => .opw (opwWord 0x33#6 0#8)
  | .progpage => .opw (opwWord 0x34#6 0#8)
  | .progcache => .opw (opwWord 0x35#6 0#8)
  | .erase => .opw (opwWord 0x36#6 0#8)
  | .perase => .opw (opwWord 0x37#6 0#8)
  | .rdcacheseq => .opw (opwWord 0x38#6 0#8)
  | .nandReset => .wire 0xFF#8
  | .nandResetLun => .wire 0xFA#8
  | .nandReadId => .wire 0x90#8
  | .nandReadUniqueId => .wire 0xED#8
  | .nandReadStatus => .wire 0x70#8
  | .nandReadStatusEnh => .wire 0x78#8
  | .nandRead1 => .wire 0x00#8
  | .nandRead2 => .wire 0x30#8
  | .nandReadCacheNext => .wire 0x31#8
  | .nandReadCacheLast => .wire 0x3F#8
  | .nandChgRdCol1 => .wire 0x05#8
  | .nandChgRdCol2 => .wire 0xE0#8
  | .nandProgram1 => .wire 0x80#8
  | .nandProgram2 => .wire 0x10#8
  | .nandProgramCache => .wire 0x15#8
  | .nandChgWrColRow => .wire 0x85#8
  | .nandErase1 => .wire 0x60#8
  | .nandErase2 => .wire 0xD0#8

/-- The code that `nbits` bits `w` of the opcode table stand for. DESIGN CHOICE (log 8): a word of at most 8 bits that
is a command byte of R88 is that byte; every other word is an operation word, its upper bits 0. -/
def tableCode (nbits w : Nat) : Code :=
  if nbits ≤ 8 then
    match decodeWire (BitVec.ofNat 8 w) with
    | .ok _ => .wire (BitVec.ofNat 8 w)
    | .error _ => .opw (BitVec.ofNat 32 w)
  else .opw (BitVec.ofNat 32 w)

/-- The instruction the decoder reads from a table word; none where the decoder rejects it. -/
def decodeTableWord (nbits w : Nat) : Option Instr :=
  match decode (tableCode nbits w) with
  | .ok i => some i
  | .error _ => none

/-- The word the host writes to OPW so that the block performs a code: the operation word itself, or, for a command
byte, SENDCMD with that byte (R82, R89; log 8). -/
def hostWord : Code → Word
  | .opw w => w
  | .wire b => opwWord 0x10#6 b

end Sys2Proof
end

