-- ==== Sys2Proof/Config.lean ====
section
/-! DEFINITION. What an implementation fixes (00_scope.md R6, 10_state.md R44), what the outside of the block does in
one cycle (00_scope.md R11), and the free values: the OPEN delays at reset and the outside after the last listed
cycle. -/

namespace Sys2Proof

/-- The twelve named delays of 41_timing.md R127. -/
inductive Delay where
  | setup | hold | sample | wb | whr | adl | ccs | row | ww | rtc | ar | por
deriving DecidableEq, Repr, Inhabited

/-- The parameters of 00_scope.md R6: constant for the life of the block, no register of it (10_state.md R44). -/
structure Config where
  /-- Data valid to WE rising. -/
  tSetup : Nat
  tHold : Nat
  /-- RE falling to capture. -/
  tSample : Nat
  /-- Write-busy. -/
  tWb : Nat
  /-- Status-wait. -/
  tWhr : Nat
  /-- Address-to-data. -/
  tAdl : Nat
  /-- Column-change. -/
  tCcs : Nat
  /-- Row-change. -/
  tRow : Nat
  /-- Write-to-write. -/
  tWw : Nat
  /-- Row-to-column. -/
  tRtc : Nat
  /-- Array-read. -/
  tAr : Nat
  /-- Power-on settle. -/
  tPor : Nat
  /-- Bytes per page of the cache read. -/
  pageSize : Nat
  maxPages : Nat
  abufDepth : Nat
  txDepth : Nat
  rxDepth : Nat
  rbSyncStages : Nat
  /-- Width of the delay counter. -/
  dlyW : Nat
  /-- Cycles per iteration of partialEraseBlock. -/
  peIterCycles : Nat
  wpIdle : Bool
  dataIdle : Byte
deriving DecidableEq, Repr, Inhabited

/-- What the spec requires of a configuration: every T_* below 2^DLY_W (00_scope.md R6), RX_DEPTH at least 32 and
ABUF_DEPTH at least 5 (30_encoding.md R96), and a synchroniser with at least one stage (10_state.md R35, whose RB_S is
stage RB_SYNC_STAGES-1). -/
abbrev Config.Valid (c : Config) : Prop :=
  (c.tSetup < 2 ^ c.dlyW ∧ c.tHold < 2 ^ c.dlyW ∧ c.tSample < 2 ^ c.dlyW ∧ c.tWb < 2 ^ c.dlyW ∧
    c.tWhr < 2 ^ c.dlyW ∧ c.tAdl < 2 ^ c.dlyW ∧ c.tCcs < 2 ^ c.dlyW ∧ c.tRow < 2 ^ c.dlyW ∧
    c.tWw < 2 ^ c.dlyW ∧ c.tRtc < 2 ^ c.dlyW ∧ c.tAr < 2 ^ c.dlyW ∧ c.tPor < 2 ^ c.dlyW) ∧
  32 ≤ c.rxDepth ∧ 5 ≤ c.abufDepth ∧ 1 ≤ c.rbSyncStages

/-- The OPEN delays of 00_scope.md R6, no number assumed: DLY_W = 32 bits each, so each is below 2^DLY_W. -/
opaque Config.openDelay : Delay → BitVec 32

/-- The configuration at reset: the defaults of 00_scope.md R6 where it gives one, the free value for each delay, which
R6 leaves OPEN (log 2). Statements hold for every configuration, not for this one. -/
def Config.default : Config where
  tSetup := (Config.openDelay .setup).toNat
  tHold := (Config.openDelay .hold).toNat
  tSample := (Config.openDelay .sample).toNat
  tWb := (Config.openDelay .wb).toNat
  tWhr := (Config.openDelay .whr).toNat
  tAdl := (Config.openDelay .adl).toNat
  tCcs := (Config.openDelay .ccs).toNat
  tRow := (Config.openDelay .row).toNat
  tWw := (Config.openDelay .ww).toNat
  tRtc := (Config.openDelay .rtc).toNat
  tAr := (Config.openDelay .ar).toNat
  tPor := (Config.openDelay .por).toNat
  pageSize := 8192
  maxPages := 2
  abufDepth := 10
  txDepth := 8192
  rxDepth := 16384
  rbSyncStages := 2
  dlyW := 32
  peIterCycles := 1
  wpIdle := true
  dataIdle := 0x00#8

/-- What the host does on its port in one cycle: nothing, or one read or one write of the word register that
`h_addr[5:2]` selects (20_memory.md R61, R62; D17). -/
inductive HostAccess where
  | idle
  | read (addr : BitVec 4)
  | write (addr : BitVec 4) (data : Word)
deriving DecidableEq, Repr, Inhabited

/-- What the outside of the block presents in one cycle: the reset input, the host port, and the levels at the clock
edge that ends the cycle, `rb` and the level on every other pin that the block does not drive (10_state.md R25, R35).
A pin nobody drives, and a sample taken on a moving level, is any value (U6, U7, U8). -/
structure Input where
  rst : Bool
  host : HostAccess
  rb : Bool
  levels : Latch
deriving DecidableEq, Repr, Inhabited

/-- What the outside does in cycle `n` where no listed input says it: a free value, nothing is known of it (log 1). -/
opaque Config.freeInput : Nat → Input

end Sys2Proof
end

