-- ==== Sys2Proof/Machine/Lines.lean ====
section
/-! DEFINITION. The bit positions of the register pair (10_state.md R20), the masks of 00_scope.md R8, the named words
of 10_state.md R24 and R27, and the two ways a word is written under a mask. -/

namespace Sys2Proof.Machine

/-- The data field, bits 7:0. -/
@[simp] def mD : Latch := 0x00FF#14
/-- Write-protect, bit 8. -/
@[simp] def mWP : Latch := 0x0100#14
/-- Write-enable, bit 9. -/
@[simp] def mWE : Latch := 0x0200#14
/-- Address-latch, bit 10. -/
@[simp] def mALE : Latch := 0x0400#14
/-- Command-latch, bit 11. -/
@[simp] def mCLE : Latch := 0x0800#14
/-- Chip-enable, bit 12. -/
@[simp] def mCE : Latch := 0x1000#14
/-- Read-enable, bit 13. -/
@[simp] def mRE : Latch := 0x2000#14

/-- The bit position of ready-busy, the one line without a latch (10_state.md R20, R22). -/
def rbLine : Nat := 14

/-- IDLE = 0x3200 | (WP_IDLE << 8) | DATA_IDLE (10_state.md R27): RE, CE, WE high, ALE, CLE low. -/
def idleWord (c : Config) : Latch :=
  mWE ||| mCE ||| mRE ||| (if c.wpIdle then mWP else 0#14) ||| c.dataIdle.setWidth 14

/-- DIR_OUT: all host lines and the data field driven (10_state.md R24). -/
def dirOut : Lines15 := 0x3FFF#15

/-- DIR_IN: host lines driven, data field released (10_state.md R24). -/
def dirIn : Lines15 := 0x3F00#15

/-- DIR_RESET: no pin driven (10_state.md R24). -/
def dirReset : Lines15 := 0x0000#15

/-- The control-line multiplexer: bits inside the mask take `val`, the others keep their value (40_bus_interface.md
R110, R112). -/
def muxLines (mask val old : Latch) : Latch := (old &&& ~~~mask) ||| (val &&& mask)

/-- DIR with its data field written as a whole, bits 14:8 unchanged (40_bus_interface.md R113). -/
def dirWithData (d : Direction) (old : Lines15) : Lines15 :=
  match d with
  | .output => old ||| 0x00FF#15
  | .input => old &&& 0x7F00#15

/-- DIR with bits 13:0 written and bit 14 still 0 (40_bus_interface.md R114, 10_state.md R24). -/
def dirWithAll (v : Latch) : Lines15 := v.setWidth 15

end Sys2Proof.Machine
end

