-- ==== Sys2Proof/Machine/State.lean ====
section
/-! DEFINITION. The state of the block as plain data: every element of 10_state.md, the micro-operations a running
operation consists of (30_encoding.md R93), the reasons a step can stop, and the state after reset. -/

namespace Sys2Proof.Machine

/-- The Phase Engine's state (10_state.md R31, 42_phase_engine.md R135). Values 5 to 7 of the encoding never occur
(U24), so they have no constructor. -/
inductive Phase where
  | idle
  | command
  | address
  | dataOut
  | dataIn
deriving DecidableEq, Repr

/-- POLLST, the polling state machine (10_state.md R33, 43_ready_busy.md R156). -/
inductive PollState where
  | idle
  | wait
deriving DecidableEq, Repr

/-- The eight micro-operations (30_encoding.md R93). -/
inductive MicroOp where
  /-- Masked write of BUS_OUT (R112). -/
  | lines (mask val : Latch)
  /-- DIR[7:0] all ones or all zeros (R113). -/
  | dirD (d : Direction)
  /-- DIR[13:0] (R114). -/
  | dirAll (v : Latch)
  /-- Hold k cycles (R126). -/
  | dly (k : Nat)
  /-- Hold until RB_S = 1 (R156). -/
  | poll
  /-- Append PIN[7:0] to RXBUF (R140). -/
  | cap
  /-- RES takes PIN[l] (R116). -/
  | rdl (l : BitVec 4)
  /-- RES takes PIN[7:0] (R118). -/
  | rdd
deriving DecidableEq, Repr

/-- A micro-operation with the PHASE update it may carry (30_encoding.md R93). -/
structure MicroStep where
  op : MicroOp
  phase : Option Phase
deriving DecidableEq, Repr

/-- What an operation writes when its last micro-operation has ended (10_state.md R32): nothing; RES from the captured
status byte (45_ident_status.md R180, R181); RES and FAIL from it (46_array_ops.md R199); the unique-ID check
(45_ident_status.md R178, R179). -/
inductive Completion where
  | plain
  | status
  | statusFail
  | uniqueId
deriving DecidableEq, Repr

/-- CUR_OP: the accepted operation with its operands as latched at the start (10_state.md R32), and its
micro-operation sequence, which is fixed when it starts (00_scope.md R10). -/
structure CurOp where
  /-- The op code and IMM8, as the operation they name. -/
  op : Instr
  aLen : Nat
  txLen : Nat
  len : Word
  pages : BitVec 16
  seq : List MicroStep
  completion : Completion
deriving DecidableEq, Repr

/-- The whole state of the block, with the configuration and the coming inputs (INVENTORY.md, '## State'). -/
structure State where
  /-- The configuration record (00_scope.md R6, 10_state.md R44); no step changes it (log 2). -/
  cfg : Config
  /-- BUS_OUT (10_state.md R21). -/
  busOut : Latch
  /-- DIR (10_state.md R23, R24). -/
  dir : Lines15
  /-- PHASE (10_state.md R31). -/
  phase : Phase
  /-- CUR_OP (10_state.md R32). -/
  cur : Option CurOp
  /-- SEQ_PC (10_state.md R32). -/
  seqPc : Nat
  /-- POLLST (10_state.md R33). -/
  pollSt : PollState
  /-- DLYCNT (10_state.md R34). -/
  dlyCnt : Nat
  /-- RB_SYNC, stage 0 first (10_state.md R35). -/
  rbSync : List Bool
  /-- OPW (10_state.md R37). -/
  opw : Word
  /-- ABUF; its length is ALEN (10_state.md R38, log 4). -/
  abuf : List Byte
  /-- TXBUF; its length is TXLEN (10_state.md R39, log 4). -/
  txbuf : List Byte
  /-- LEN (10_state.md R40). -/
  len : Word
  /-- PAGES (10_state.md R40). -/
  pages : BitVec 16
  /-- RXBUF; its length is RXLEN (10_state.md R41, log 4). -/
  rxbuf : List Byte
  /-- RXRD, the host's read pointer (10_state.md R41). -/
  rxRd : Nat
  /-- RES (10_state.md R42). -/
  res : BitVec 16
  /-- STAT bit 1 (10_state.md R43; bit 0, BUSY, is `cur.isSome`, log 3). -/
  done : Bool
  /-- STAT bit 2. -/
  fail : Bool
  /-- STAT bit 3. -/
  uidWarn : Bool
  /-- STAT bit 4. -/
  illOp : Bool
  /-- STAT bit 5. -/
  overrun : Bool
  /-- STAT bit 6. -/
  badArg : Bool
  /-- h_rdata: what the host port gave to the last host read (D17, 20_memory.md R61; log 9). -/
  rData : Word
  /-- What the outside does in the coming cycles, the next cycle first (the model's own, log 1). -/
  inputs : List Input
  /-- Cycles elapsed, the argument of the free input (the model's own, log 1). -/
  cycle : Nat
deriving DecidableEq, Repr

/-- Why a step stops. The block has no trap (60_exceptions.md R224), so this one is all. -/
inductive Fault where
  /-- Raised by a CAP that finds RXBUF full. SAFE: R140 says it never happens, and no state that keeps the model's
  invariant reaches it (log 10). -/
  | rxbufOverflow
deriving DecidableEq, Repr

/-- Why an instruction has no meaning. -/
inductive Refusal where
  /-- Raised by exec's arm of an instruction that the model gives no meaning. SAFE: nothing is claimed of it. No arm
  of this model answers so. -/
  | notModelled (mnemonic : String)
deriving DecidableEq, Repr

/-- The state after hardware reset: the "after rst" column of 10_state.md R46. -/
def State.reset : State where
  cfg := Config.default
  busOut := idleWord Config.default
  dir := dirReset
  phase := .idle
  cur := none
  seqPc := 0
  pollSt := .idle
  dlyCnt := 0
  rbSync := List.replicate Config.default.rbSyncStages false
  opw := 0#32
  abuf := []
  txbuf := []
  len := 0#32
  pages := 0#16
  rxbuf := []
  rxRd := 0
  res := 0#16
  done := false
  fail := false
  uidWarn := false
  illOp := false
  overrun := false
  badArg := false
  rData := 0#32
  inputs := []
  cycle := 0

end Sys2Proof.Machine
end

