-- ==== Sys2Proof/Machine/Operands.lean ====
section
/-! DEFINITION. The operand forms of the operations: the timing selectors (30_encoding.md R84), the line identifiers
(R85), the address and data bytes taken from ABUF and TXBUF (R90, R91), and the acceptance conditions of R96 that
several operations share. -/

namespace Sys2Proof.Machine

/-- The value of a named delay, in cycles (41_timing.md R127). -/
def delayOf (c : Config) : Delay → Nat
  | .setup => c.tSetup
  | .hold => c.tHold
  | .sample => c.tSample
  | .wb => c.tWb
  | .whr => c.tWhr
  | .adl => c.tAdl
  | .ccs => c.tCcs
  | .row => c.tRow
  | .ww => c.tWw
  | .rtc => c.tRtc
  | .ar => c.tAr
  | .por => c.tPor

/-- The delay a timing selector names; codes 12 to 15 are reserved (30_encoding.md R84). -/
def selectDelay (sel : BitVec 4) : Option Delay :=
  match sel.toNat with
  | 0 => some .setup
  | 1 => some .hold
  | 2 => some .sample
  | 3 => some .wb
  | 4 => some .whr
  | 5 => some .adl
  | 6 => some .ccs
  | 7 => some .row
  | 8 => some .ww
  | 9 => some .rtc
  | 10 => some .ar
  | 11 => some .por
  | _ => none

/-- The lines SETLINE may write: 8 to 13, not the data bits and not ready-busy (30_encoding.md R85). -/
def settableLine (line : BitVec 4) : Bool := decide (8 ≤ line.toNat ∧ line.toNat ≤ 13)

/-- The lines READLINE may read: 8 to 14 (30_encoding.md R85). -/
def readableLine (line : BitVec 4) : Bool := decide (8 ≤ line.toNat ∧ line.toNat ≤ 14)

/-- ABUF[0..n), the address bytes of an operation, in wire order (30_encoding.md R91, 20_memory.md R64). -/
def addressBytes (s : State) (n : Nat) : List Byte := s.abuf.take n

/-- addresses[p] = ABUF[5p..5p+5) of programPageCache (46_array_ops.md R195). -/
def pageAddress (s : State) (p : Nat) : List Byte := (s.abuf.drop (5 * p)).take 5

/-- ALEN (10_state.md R38). -/
def State.aLen (s : State) : Nat := s.abuf.length

/-- TXLEN (10_state.md R39). -/
def State.txLen (s : State) : Nat := s.txbuf.length

/-- RXLEN (10_state.md R41). -/
def State.rxLen (s : State) : Nat := s.rxbuf.length

/-- ABUF holds the address bytes an operation needs (30_encoding.md R96). -/
def hasAddress (s : State) (n : Nat) : Bool := decide (n ≤ s.aLen)

/-- 1 <= PAGES <= MAX_PAGES (30_encoding.md R96). -/
def pagesInRange (s : State) : Bool := decide (1 ≤ s.pages.toNat ∧ s.pages.toNat ≤ s.cfg.maxPages)

/-- address5 of 20_memory.md R64: column-low, column-high, row-low, row-mid, row-high. -/
def address5 (column : BitVec 16) (row : BitVec 24) : List Byte :=
  [column.extractLsb' 0 8, column.extractLsb' 8 8, row.extractLsb' 0 8, row.extractLsb' 8 8, row.extractLsb' 16 8]

/-- col2 of 20_memory.md R64. -/
def col2 (column : BitVec 16) : List Byte := [column.extractLsb' 0 8, column.extractLsb' 8 8]

/-- row3 of 20_memory.md R64. -/
def row3 (row : BitVec 24) : List Byte := [row.extractLsb' 0 8, row.extractLsb' 8 8, row.extractLsb' 16 8]

end Sys2Proof.Machine
end

