-- ==== Sys2Proof/Machine/Phases.lean ====
section
/-! DEFINITION. The micro-operation sequences the operations are built from: the idle restore (40_bus_interface.md
R120), the four phases (42_phase_engine.md R136 to R139), the waits (41_timing.md R125, 43_ready_busy.md R157), and the
two transactions that other operations contain, reset (44_lifecycle.md R166) and readStatus (45_ident_status.md R180).
-/

namespace Sys2Proof.Machine

/-- A micro-operation that carries no PHASE update. -/
def plainStep (op : MicroOp) : MicroStep := { op, phase := none }

/-- A micro-operation that carries a PHASE update. -/
def phaseStep (op : MicroOp) (p : Phase) : MicroStep := { op, phase := some p }

/-- RESTORE_IDLE: WE, CE, RE high, ALE, CLE low, data at DATA_IDLE, WP untouched; PHASE <- Idle (40_bus_interface.md
R120). -/
def restoreIdle (c : Config) : MicroStep :=
  phaseStep (.lines (mD ||| mWE ||| mALE ||| mCLE ||| mCE ||| mRE) (mWE ||| mCE ||| mRE ||| c.dataIdle.setWidth 14)) .idle

/-- `wait T`: waitAtLeast of a named delay (41_timing.md R125). -/
def wait (c : Config) (d : Delay) : List MicroStep := [plainStep (.dly (delayOf c d))]

/-- waitReady() (43_ready_busy.md R157). -/
def waitReady : List MicroStep := [plainStep .poll]

/-- sendCommand(b), steps c1 to c7 (42_phase_engine.md R136). -/
def sendCommand (c : Config) (b : Byte) : List MicroStep :=
  [ phaseStep (.lines (mCLE ||| mCE ||| mALE ||| mWE) mCLE) .command,
    plainStep (.lines mD (b.setWidth 14)),
    plainStep (.dly c.tSetup),
    plainStep (.lines mWE mWE),
    plainStep (.dly c.tHold),
    plainStep (.lines mCLE 0#14),
    restoreIdle c ]

/-- One byte of sendAddress or sendData, steps a2 to a6 and d2 to d6 (42_phase_engine.md R137, R138). -/
def writeByte (c : Config) (b : Byte) : List MicroStep :=
  [ plainStep (.dly c.tHold),
    plainStep (.lines mWE 0#14),
    plainStep (.lines mD (b.setWidth 14)),
    plainStep (.dly c.tSetup),
    plainStep (.lines mWE mWE) ]

/-- sendAddress(a), steps a1 to a8 (42_phase_engine.md R137). -/
def sendAddress (c : Config) (a : List Byte) : List MicroStep :=
  [phaseStep (.lines (mALE ||| mCLE ||| mCE) mALE) .address] ++ a.flatMap (writeByte c) ++
    [plainStep (.lines mALE 0#14), restoreIdle c]

/-- sendData(d), steps d1 to d7 (42_phase_engine.md R138). -/
def sendData (c : Config) (d : List Byte) : List MicroStep :=
  [phaseStep (.lines (mCLE ||| mALE ||| mCE) 0#14) .dataOut] ++ d.flatMap (writeByte c) ++ [restoreIdle c]

/-- One byte of receiveData, steps r4 to r8 (42_phase_engine.md R139). -/
def readByte (c : Config) : List MicroStep :=
  [ plainStep (.lines mRE 0#14),
    plainStep (.dly c.tSample),
    plainStep .cap,
    plainStep (.lines mRE mRE),
    plainStep (.dly c.tHold) ]

/-- receiveData(n), steps r1 to r10 (42_phase_engine.md R139). -/
def receiveData (c : Config) (n : Nat) : List MicroStep :=
  [ phaseStep (.dirD .input) .dataIn,
    plainStep .poll,
    plainStep (.lines (mCLE ||| mALE ||| mCE) 0#14) ] ++
  (List.replicate n (readByte c)).flatten ++
  [plainStep (.dirD .output), restoreIdle c]

/-- reset(): sendCommand(0xFF); wait T_WB; waitReady (44_lifecycle.md R166). -/
def deviceReset (c : Config) : List MicroStep := sendCommand c 0xFF#8 ++ wait c .wb ++ waitReady

/-- readStatus(): sendCommand(0x70); wait T_WHR; receiveData(1) (45_ident_status.md R180). -/
def readStatus (c : Config) : List MicroStep := sendCommand c 0x70#8 ++ wait c .whr ++ receiveData c 1

/-- An ID read: waitReady; sendCommand(0x90); sendAddress([column]); wait T_ADL; receiveData(n) (45_ident_status.md
R175 to R177). -/
def readId (c : Config) (column : Byte) (n : Nat) : List MicroStep :=
  waitReady ++ sendCommand c 0x90#8 ++ sendAddress c [column] ++ wait c .adl ++ receiveData c n

/-- readPage(a5), all six steps (46_array_ops.md R190). -/
def readPage (c : Config) (a : List Byte) : List MicroStep :=
  waitReady ++ sendCommand c 0x00#8 ++ sendAddress c a ++ sendCommand c 0x30#8 ++ wait c .wb ++ waitReady

/-- One page of a program operation with its confirm byte (46_array_ops.md R194 steps 1 to 7, R195). -/
def programBody (c : Config) (a data : List Byte) (confirm : Byte) : List MicroStep :=
  sendCommand c 0x80#8 ++ sendAddress c a ++ wait c .adl ++ sendData c data ++ sendCommand c confirm ++
    wait c .wb ++ waitReady

/-- The opening of the erase operations: waitReady; sendCommand(0x60); sendAddress(a3); sendCommand(0xD0)
(46_array_ops.md R196, R197). -/
def eraseOpening (c : Config) (a : List Byte) : List MicroStep :=
  waitReady ++ sendCommand c 0x60#8 ++ sendAddress c a ++ sendCommand c 0xD0#8

end Sys2Proof.Machine
end

