-- ==== Sys2Proof/Machine/Ops.lean ====
section
/-! DEFINITION. The named operations over the state: the register pair and its read view, the result registers, the
effect of each micro-operation, the refusals (the block's only form of raise, 00_scope.md R8; there is no exception
entry and no return, 60_exceptions.md R224, R225), the clock edge and the hardware reset. -/

namespace Sys2Proof.Machine

/-- Continue with the next state, or stop as the first part stopped. -/
def andThen (o : Host.Outcome State Fault Refusal) (f : State → Host.Outcome State Fault Refusal) :
    Host.Outcome State Fault Refusal :=
  match o with
  | .next s => f s
  | .fault r => .fault r
  | .refused r => .refused r

/-- BUSY, STAT bit 0: set when an operation is accepted, cleared when its last micro-operation ends (10_state.md
R43). CUR_OP is written at exactly these two places (R32, 30_encoding.md R96), so the one field says both (log 3). -/
def State.busy (s : State) : Bool := s.cur.isSome

/-- RB_S, the last stage of the synchroniser, 1 = ready (10_state.md R35). -/
def State.rbS (s : State) : Bool := s.rbSync.getLastD false

/-- PIN, the read view of the Bus Register: the latch where DIR is 1, the level outside where it is 0, RB_S on bit 14
(10_state.md R25). -/
def State.pin (s : State) (levels : Latch) : Lines15 :=
  let d := s.dir.setWidth 14
  BitVec.ofBool s.rbS ++ ((s.busOut &&& d) ||| (levels &&& ~~~d))

/-- PIN[7:0] (10_state.md R25). -/
def State.pinData (s : State) (levels : Latch) : Byte := (s.pin levels).setWidth 8

/-- LINES(mask, val): the only write of BUS_OUT (40_bus_interface.md R110, R112). -/
def State.setLines (s : State) (mask val : Latch) : State := { s with busOut := muxLines mask val s.busOut }

/-- DIRD(d) (40_bus_interface.md R113). -/
def State.setDataDir (s : State) (d : Direction) : State := { s with dir := dirWithData d s.dir }

/-- DIRALL(v) (40_bus_interface.md R114). -/
def State.setDirAll (s : State) (v : Latch) : State := { s with dir := dirWithAll v }

/-- CAP: the byte on the data pins goes to RXBUF[RXLEN] (42_phase_engine.md R140). -/
def State.capture (s : State) (levels : Latch) : State := { s with rxbuf := s.rxbuf ++ [s.pinData levels] }

/-- RDL(l): RES takes PIN[l], bits 15:1 zero (40_bus_interface.md R116). -/
def State.readLine (s : State) (l : BitVec 4) (levels : Latch) : State :=
  { s with res := (BitVec.ofBool ((s.pin levels).getLsbD l.toNat)).setWidth 16 }

/-- RDD: RES takes PIN[7:0], bits 15:8 zero (40_bus_interface.md R118). -/
def State.readData (s : State) (levels : Latch) : State := { s with res := (s.pinData levels).setWidth 16 }

/-- The PHASE update a micro-operation may carry (30_encoding.md R93). -/
def State.setPhase (s : State) (p : Option Phase) : State := { s with phase := p.getD s.phase }

/-- What a micro-operation writes at the end of its last cycle (30_encoding.md R93); DLY and POLL write nothing. -/
def State.microEffect (s : State) (op : MicroOp) (levels : Latch) : State :=
  match op with
  | .lines mask val => s.setLines mask val
  | .dirD d => s.setDataDir d
  | .dirAll v => s.setDirAll v
  | .dly _ => s
  | .poll => s
  | .cap => s.capture levels
  | .rdl l => s.readLine l levels
  | .rdd => s.readData levels

/-- The three refusals of 60_exceptions.md R220. -/
inductive RefuseFlag where
  | overrun
  | illOp
  | badArg
deriving DecidableEq, Repr

/-- `refuse FLAG`: the flag is set; no micro-operation runs and no pin changes (00_scope.md R8, 60_exceptions.md
R220). ILLOP and BADARG clear each other, as every OPW write while BUSY=0 does; OVERRUN leaves both as they are. -/
def State.refuse (s : State) (f : RefuseFlag) : State :=
  match f with
  | .overrun => { s with overrun := true }
  | .illOp => { s with illOp := true, badArg := false }
  | .badArg => { s with badArg := true, illOp := false }

/-- The first lines of 30_encoding.md R96: while BUSY=0 the word is latched and ILLOP and BADARG are cleared; while
BUSY=1 the word is lost (60_exceptions.md R220). -/
def State.latchOpw (s : State) (w : Word) : State :=
  if s.busy then s else { s with opw := w, illOp := false, badArg := false }

/-- What the outside does in this cycle: the first listed input, or the free one (log 1). -/
def State.input (s : State) : Input := s.inputs.headD (Config.freeInput s.cycle)

/-- The edge that ends a cycle: the synchroniser shifts, whatever else happens (10_state.md R35), and the next input
is due. -/
def State.tick (s : State) (i : Input) : State :=
  { s with rbSync := (i.rb :: s.rbSync).dropLast, inputs := s.inputs.tail, cycle := s.cycle + 1 }

/-- Hardware reset: at an edge with rst = 1 every element takes its reset value, whatever runs (70_reset_and_hazards.md
R240); the configuration stays, and the next input is due. -/
def State.hwReset (s : State) : State :=
  { State.reset with
    cfg := s.cfg
    busOut := idleWord s.cfg
    rbSync := List.replicate s.cfg.rbSyncStages false
    inputs := s.inputs.tail
    cycle := s.cycle + 1 }

end Sys2Proof.Machine
end

