-- ==== Sys2Proof/Machine/Flags.lean ====
section
/-! DEFINITION. The flags: what an operation writes to RES and the flags when it completes (10_state.md R42, R43), the
unique-ID check (45_ident_status.md R179), the STAT word (10_state.md R43) and the result codes (60_exceptions.md
R221). -/

namespace Sys2Proof.Machine

/-- Bit 0 of the Status Byte, the operation-failed flag (10_state.md R47); bits 7:1 mean nothing. -/
def failBit (b : Byte) : Bool := b.getLsbD 0

/-- One pair of the Unique-ID Payload is valid: byte[i] ^ byte[16+i] = 0xFF (10_state.md R48). -/
def uidPairValid (rx : List Byte) (i : Nat) : Bool := rx.getD i 0#8 ^^^ rx.getD (16 + i) 0#8 == 0xFF#8

/-- The index of the first mismatching pair, if one mismatches (45_ident_status.md R179). -/
def uidMismatch (rx : List Byte) : Option Nat := (List.range 16).find? fun i => !uidPairValid rx i

/-- RES with its low byte written (10_state.md R42). -/
def resWithByte (res : BitVec 16) (b : Byte) : BitVec 16 := res.extractLsb' 8 8 ++ b

/-- RES with UIDIDX, bits 12:8, written (10_state.md R42). -/
def resWithUidIdx (res : BitVec 16) (i : Nat) : BitVec 16 := 0#3 ++ BitVec.ofNat 5 i ++ res.extractLsb' 0 8

/-- RES[7:0] takes the byte just captured, RXBUF[RXLEN-1] (45_ident_status.md R180). With no byte captured, which no
run reaches, RES keeps its value (log 10). -/
def State.statusToRes (s : State) : State :=
  match s.rxbuf.getLast? with
  | some b => { s with res := resWithByte s.res b }
  | none => s

/-- FAIL takes RES[0] (46_array_ops.md R199, 60_exceptions.md R216). -/
def State.failFromRes (s : State) : State := { s with fail := s.res.getLsbD 0 }

/-- The check of 45_ident_status.md R179, then RXLEN takes 16 (R178): UIDWARN and UIDIDX say the first mismatch. -/
def State.checkUid (s : State) : State :=
  let m := uidMismatch s.rxbuf
  { s with uidWarn := m.isSome, res := resWithUidIdx s.res (m.getD 0), rxbuf := s.rxbuf.take 16 }

/-- The completion action of an operation (10_state.md R32). -/
def State.completionAction (s : State) (c : Completion) : State :=
  match c with
  | .plain => s
  | .status => s.statusToRes
  | .statusFail => s.statusToRes.failFromRes
  | .uniqueId => s.checkUid

/-- The operation is complete: its completion action, then BUSY <- 0, DONE <- 1, CUR_OP <- none (10_state.md R32), with
SEQ_PC, DLYCNT and POLLST at rest (R46, R34, R33). -/
def State.complete (s : State) (c : Completion) : State :=
  { s.completionAction c with cur := none, seqPc := 0, dlyCnt := 0, pollSt := .idle, done := true }

/-- The encoding of PHASE (10_state.md R31). -/
def phaseCode : Phase → BitVec 3
  | .idle => 0#3
  | .command => 1#3
  | .address => 2#3
  | .dataOut => 3#3
  | .dataIn => 4#3

/-- POLLING, the mirror of POLLST (10_state.md R43). -/
def polling : PollState → Bool
  | .idle => false
  | .wait => true

/-- STAT[6:0], the result code of 60_exceptions.md R221. -/
def State.resultCode (s : State) : BitVec 7 :=
  BitVec.ofBool s.badArg ++ BitVec.ofBool s.overrun ++ BitVec.ofBool s.illOp ++ BitVec.ofBool s.uidWarn ++
    BitVec.ofBool s.fail ++ BitVec.ofBool s.done ++ BitVec.ofBool s.busy

/-- STAT as the host reads it (10_state.md R43). -/
def State.stat (s : State) : Word :=
  0#19 ++ BitVec.ofBool s.rbS ++ BitVec.ofBool (polling s.pollSt) ++ phaseCode s.phase ++ 0#1 ++ s.resultCode

end Sys2Proof.Machine
end

