-- ==== Sys2Proof/Machine/Sequencer.lean ====
section
/-! DEFINITION. The sequencer: acceptance of an operation (30_encoding.md R96), one cycle of the operation in progress
(10_state.md R32, 30_encoding.md R93, 41_timing.md R126, 43_ready_busy.md R156) and its completion. -/

namespace Sys2Proof.Machine

/-- How many DLY(0) a sequence begins with: each completes without taking a cycle (41_timing.md R126). -/
def zeroRun : List MicroStep → Nat
  | [] => 0
  | m :: rest => if m.op = .dly 0 then zeroRun rest + 1 else 0

/-- The first index from `n` on whose micro-operation takes a cycle. -/
def skipZero (seq : List MicroStep) (n : Nat) : Nat := n + zeroRun (seq.drop n)

/-- DLYCNT when a micro-operation begins: k for DLY(k), else 0 (10_state.md R34, 41_timing.md R126; log 6). -/
def loadDly (m : Option MicroStep) : Nat :=
  match m with
  | some { op := .dly k, .. } => k
  | _ => 0

/-- POLLST when a micro-operation begins: PollWait for POLL, else PollIdle (10_state.md R33, 43_ready_busy.md R156). -/
def loadPoll (m : Option MicroStep) : PollState :=
  match m with
  | some { op := .poll, .. } => .wait
  | _ => .idle

/-- SEQ_PC takes `n` and the micro-operation there begins. -/
def State.beginAt (s : State) (seq : List MicroStep) (n : Nat) : State :=
  { s with seqPc := n, dlyCnt := loadDly seq[n]?, pollSt := loadPoll seq[n]? }

/-- The micro-operation before index `n` has ended: the next one that takes a cycle begins, or the operation is
complete (10_state.md R32). -/
def State.advance (s : State) (c : CurOp) (n : Nat) : State :=
  let n' := skipZero c.seq n
  if n' < c.seq.length then s.beginAt c.seq n' else s.complete c.completion

/-- The micro-operation ends with this cycle: DLY when its count runs out (R126), POLL when RB_S = 1 (R156), every other
at once (R93). -/
def State.microEnds (s : State) (op : MicroOp) : Bool :=
  match op with
  | .dly _ => decide (s.dlyCnt ≤ 1)
  | .poll => s.rbS
  | .lines _ _ | .dirD _ | .dirAll _ | .cap | .rdl _ | .rdd => true

/-- One cycle of a micro-operation: while it lasts DLYCNT counts down (R126) and a POLL changes nothing (R156); when it
ends it writes what it writes, with its PHASE update, and SEQ_PC advances. A CAP needs room in RXBUF (R140, log 10). -/
def State.microCycle (s : State) (c : CurOp) (m : MicroStep) (levels : Latch) : Host.Outcome State Fault Refusal :=
  if m.op = .cap ∧ s.cfg.rxDepth ≤ s.rxLen then .fault .rxbufOverflow
  else if s.microEnds m.op then .next (((s.microEffect m.op levels).setPhase m.phase).advance c (s.seqPc + 1))
  else .next { s with dlyCnt := s.dlyCnt - 1 }

/-- At the start of a cycle the current micro-operation takes a cycle: a DLY(0) that stands first in a sequence is
passed over (41_timing.md R126; log 7). -/
def State.settle (s : State) (c : CurOp) : State :=
  if skipZero c.seq s.seqPc = s.seqPc then s else s.beginAt c.seq (skipZero c.seq s.seqPc)

/-- One cycle of the sequencer. With no operation nothing happens; an operation whose sequence has no cycle completes in
the one cycle it shows BUSY (41_timing.md R125, 70_reset_and_hazards.md R257). -/
def State.seqCycle (s : State) (levels : Latch) : Host.Outcome State Fault Refusal :=
  match s.cur with
  | none => .next s
  | some c =>
    match c.seq[(s.settle c).seqPc]? with
    | none => .next (s.complete c.completion)
    | some m => (s.settle c).microCycle c m levels

/-- Acceptance, the last lines of 30_encoding.md R96: CUR_OP is latched, SEQ_PC <- 0, BUSY <- 1, and DONE, FAIL,
UIDWARN, ILLOP, BADARG, RES, RXLEN, RXRD are cleared (10_state.md R41 to R43). -/
def State.accept (s : State) (op : Instr) (seq : List MicroStep) (completion : Completion) : State :=
  { s with
    cur := some { op, aLen := s.aLen, txLen := s.txLen, len := s.len, pages := s.pages, seq, completion }
    seqPc := 0
    dlyCnt := loadDly seq[0]?
    pollSt := loadPoll seq[0]?
    done := false
    fail := false
    uidWarn := false
    illOp := false
    badArg := false
    res := 0#16
    rxbuf := []
    rxRd := 0 }

/-- The start of an operation by the host (30_encoding.md R96, 60_exceptions.md R220), the causes tested in the order
busy, operand: OVERRUN while an operation runs, BADARG outside the operation's domain, else it is accepted and
runs from the next cycle on. -/
def startOp (op : Instr) (inDomain : Bool) (seq : List MicroStep) (completion : Completion) (s : State) :
    Host.Outcome State Fault Refusal :=
  if s.busy then .next (s.refuse .overrun)
  else if inDomain then .next (s.accept op seq completion)
  else .next (s.refuse .badArg)

end Sys2Proof.Machine
end

