-- ==== Sys2Proof/Machine/ArrayOps.lean ====
section
/-! DEFINITION. The Array Operations (46_array_ops.md R190 to R198). Addresses come from ABUF in wire order, data from
TXBUF. -/

namespace Sys2Proof.Machine

/-- changeReadColumn(c2) (R191). -/
def changeReadColumnSeq (c : Config) (a : List Byte) : List MicroStep :=
  wait c .rtc ++ sendCommand c 0x05#8 ++ sendAddress c a ++ sendCommand c 0xE0#8 ++ wait c .ccs

/-- changeWriteColumn(c2) (R192). -/
def changeWriteColumnSeq (c : Config) (a : List Byte) : List MicroStep :=
  wait c .ww ++ sendCommand c 0x85#8 ++ sendAddress c a ++ wait c .ccs

/-- changeRowAddress(a5) (R193). -/
def changeRowAddressSeq (c : Config) (a : List Byte) : List MicroStep :=
  wait c .ww ++ sendCommand c 0x85#8 ++ sendAddress c a ++ wait c .row

/-- programPage(a5, data): the page, then readStatus (R194). -/
def programPageSeq (c : Config) (a data : List Byte) : List MicroStep :=
  programBody c a data 0x10#8 ++ readStatus c

/-- programPageCache: all pages but the last confirmed by 0x15, the last by 0x10, then one readStatus; every page sends
the same data (R195). -/
def programCacheSeq (s : State) (n : Nat) : List MicroStep :=
  (List.range (n - 1)).flatMap (fun p => programBody s.cfg (pageAddress s p) s.txbuf 0x15#8) ++
    programBody s.cfg (pageAddress s (n - 1)) s.txbuf 0x10#8 ++ readStatus s.cfg

/-- eraseBlock(a3) (R196). -/
def eraseSeq (c : Config) (a : List Byte) : List MicroStep :=
  eraseOpening c a ++ wait c .wb ++ waitReady ++ readStatus c

/-- partialEraseBlock(a3, k): after the opening exactly k iterations, then the device reset (R197). -/
def partialEraseSeq (c : Config) (a : List Byte) (k : Nat) : List MicroStep :=
  eraseOpening c a ++ [plainStep (.dly (k * c.peIterCycles))] ++ deviceReset c

/-- One page through the read cache: sendCommand(0x31); wait T_WB; waitReady; receiveData(PAGE_SIZE) (R198). -/
def cacheNext (c : Config) : List MicroStep :=
  sendCommand c 0x31#8 ++ wait c .wb ++ waitReady ++ receiveData c c.pageSize

/-- readPageCacheSequential(a5, N): readPage, N-1 pages by 0x31, the last by 0x3F with no wait of its own (R198). -/
def readCacheSeq (c : Config) (a : List Byte) (n : Nat) : List MicroStep :=
  readPage c a ++ (List.replicate (n - 1) (cacheNext c)).flatten ++ sendCommand c 0x3F#8 ++ receiveData c c.pageSize

/-- RDPAGE: readPage(ABUF[0..5)), ALEN at least 5 (R190). -/
def execRdpage (s : State) : Host.Outcome State Fault Refusal :=
  startOp .rdpage (hasAddress s 5) (readPage s.cfg (addressBytes s 5)) .plain s

/-- CHGRDCOL: changeReadColumn(ABUF[0..2)), ALEN at least 2 (R191). -/
def execChgrdcol (s : State) : Host.Outcome State Fault Refusal :=
  startOp .chgrdcol (hasAddress s 2) (changeReadColumnSeq s.cfg (addressBytes s 2)) .plain s

/-- CHGWRCOL: changeWriteColumn(ABUF[0..2)), ALEN at least 2 (R192). -/
def execChgwrcol (s : State) : Host.Outcome State Fault Refusal :=
  startOp .chgwrcol (hasAddress s 2) (changeWriteColumnSeq s.cfg (addressBytes s 2)) .plain s

/-- CHGROW: changeRowAddress(ABUF[0..5)), ALEN at least 5 (R193). -/
def execChgrow (s : State) : Host.Outcome State Fault Refusal :=
  startOp .chgrow (hasAddress s 5) (changeRowAddressSeq s.cfg (addressBytes s 5)) .plain s

/-- PROGPAGE: programPage(ABUF[0..5), TXBUF), ALEN at least 5; FAIL from the status byte (R194, R199). -/
def execProgpage (s : State) : Host.Outcome State Fault Refusal :=
  startOp .progpage (hasAddress s 5) (programPageSeq s.cfg (addressBytes s 5) s.txbuf) .statusFail s

/-- PROGCACHE: programPageCache of PAGES pages, 1 <= PAGES <= MAX_PAGES and ALEN at least 5*PAGES; FAIL from the one
status byte (R195, R199). -/
def execProgcache (s : State) : Host.Outcome State Fault Refusal :=
  startOp .progcache (pagesInRange s && hasAddress s (5 * s.pages.toNat)) (programCacheSeq s s.pages.toNat)
    .statusFail s

/-- ERASE: eraseBlock(ABUF[0..3)), ALEN at least 3; FAIL from the status byte (R196, R199). -/
def execErase (s : State) : Host.Outcome State Fault Refusal :=
  startOp .erase (hasAddress s 3) (eraseSeq s.cfg (addressBytes s 3)) .statusFail s

/-- PERASE: partialEraseBlock(ABUF[0..3), LEN), ALEN at least 3 and LEN * PE_ITER_CYCLES < 2^DLY_W (R197). -/
def execPerase (s : State) : Host.Outcome State Fault Refusal :=
  startOp .perase (hasAddress s 3 && decide (s.len.toNat * s.cfg.peIterCycles < 2 ^ s.cfg.dlyW))
    (partialEraseSeq s.cfg (addressBytes s 3) s.len.toNat) .plain s

/-- RDCACHESEQ: readPageCacheSequential(ABUF[0..5), PAGES), ALEN at least 5, 1 <= PAGES <= MAX_PAGES and
PAGES*PAGE_SIZE <= RX_DEPTH (R198). -/
def execRdcacheseq (s : State) : Host.Outcome State Fault Refusal :=
  startOp .rdcacheseq
    (hasAddress s 5 && pagesInRange s && decide (s.pages.toNat * s.cfg.pageSize ≤ s.cfg.rxDepth))
    (readCacheSeq s.cfg (addressBytes s 5) s.pages.toNat) .plain s

end Sys2Proof.Machine
end

