-- ==== Sys2Proof/Machine/BusInterface.lean ====
section
/-! DEFINITION. The L0 operations of the Bus Interface (40_bus_interface.md R115 to R119). -/

namespace Sys2Proof.Machine

/-- SETLINE: LINES(1 << l, v << l) for l in 8..13 (R115). -/
def execSetline (line : BitVec 4) (value : Bool) (s : State) : Host.Outcome State Fault Refusal :=
  startOp (.setline line value) (settableLine line)
    [plainStep (.lines (1#14 <<< line.toNat) ((BitVec.ofBool value).setWidth 14 <<< line.toNat))] .plain s

/-- READLINE: RDL(l) for l in 8..14 (R116). -/
def execReadline (line : BitVec 4) (s : State) : Host.Outcome State Fault Refusal :=
  startOp (.readline line) (readableLine line) [plainStep (.rdl line)] .plain s

/-- WRDATA: LINES(M_D, b) (R117). -/
def execWrdata (byte : Byte) (s : State) : Host.Outcome State Fault Refusal :=
  startOp (.wrdata byte) true [plainStep (.lines mD (byte.setWidth 14))] .plain s

/-- RDDATA: RDD (R118). -/
def execRddata (s : State) : Host.Outcome State Fault Refusal :=
  startOp .rddata true [plainStep .rdd] .plain s

/-- SETDIR: DIRD(d) (R119). -/
def execSetdir (dir : Direction) (s : State) : Host.Outcome State Fault Refusal :=
  startOp (.setdir dir) true [plainStep (.dirD dir)] .plain s

end Sys2Proof.Machine
end

