-- ==== Sys2Proof/Machine/IdentStatus.lean ====
section
/-! DEFINITION. Identification and Status (45_ident_status.md R175 to R181). The addresses of the ID reads are
constants of the operation (30_encoding.md R91). -/

namespace Sys2Proof.Machine

/-- readUniqueId(), steps 1 to 7; the three waits are the doc's one wait of the sum (R178). -/
def readUniqueIdSeq (c : Config) : List MicroStep :=
  sendCommand c 0xED#8 ++ sendAddress c [0x00#8] ++ wait c .wb ++ wait c .ar ++ wait c .row ++ waitReady ++
    receiveData c 32

/-- readStatusEnhanced(a3): 0x78 and the address take the place of 0x70 (R181; log 13). -/
def readStatusEnhancedSeq (c : Config) (a : List Byte) : List MicroStep :=
  sendCommand c 0x78#8 ++ sendAddress c a ++ wait c .whr ++ receiveData c 1

/-- RDMFID: column 0x00, 8 bytes (R175). -/
def execRdmfid (s : State) : Host.Outcome State Fault Refusal :=
  startOp .rdmfid true (readId s.cfg 0x00#8 8) .plain s

/-- RDONFIID: column 0x20, 4 bytes (R176). -/
def execRdonfiid (s : State) : Host.Outcome State Fault Refusal :=
  startOp .rdonfiid true (readId s.cfg 0x20#8 4) .plain s

/-- RDJEDECID: column 0x40, 5 bytes (R177). -/
def execRdjedecid (s : State) : Host.Outcome State Fault Refusal :=
  startOp .rdjedecid true (readId s.cfg 0x40#8 5) .plain s

/-- RDUID: 32 bytes, then the validity check and RXLEN <- 16 (R178, R179). -/
def execRduid (s : State) : Host.Outcome State Fault Refusal :=
  startOp .rduid true (readUniqueIdSeq s.cfg) .uniqueId s

/-- RDSTATUS: the status byte in RES[7:0]; FAIL is not written (R180). -/
def execRdstatus (s : State) : Host.Outcome State Fault Refusal :=
  startOp .rdstatus true (readStatus s.cfg) .status s

/-- RDSTATUSE: readStatusEnhanced(ABUF[0..3)), ALEN at least 3 (R181). -/
def execRdstatuse (s : State) : Host.Outcome State Fault Refusal :=
  startOp .rdstatuse (hasAddress s 3) (readStatusEnhancedSeq s.cfg (addressBytes s 3)) .status s

end Sys2Proof.Machine
end

