-- ==== Sys2Proof/Machine/Lifecycle.lean ====
section
/-! DEFINITION. The Device Lifecycle operations (44_lifecycle.md R165 to R167). -/

namespace Sys2Proof.Machine

/-- initialize(), steps i1 to i7 (R165). -/
def initSeq (c : Config) : List MicroStep :=
  [plainStep (.lines 0x3FFF#14 (idleWord c)), plainStep (.dirAll 0x3FFF#14)] ++ wait c .por ++ waitReady ++ deviceReset c

/-- resetLUN(a3) (R167). -/
def resetLunSeq (c : Config) (a : List Byte) : List MicroStep :=
  sendCommand c 0xFA#8 ++ sendAddress c a ++ wait c .wb ++ waitReady

/-- INIT: initialize() (R165). -/
def execInit (s : State) : Host.Outcome State Fault Refusal :=
  startOp .init true (initSeq s.cfg) .plain s

/-- RESET: reset(), the device reset command, not the input rst (R166, 70_reset_and_hazards.md R241). -/
def execReset (s : State) : Host.Outcome State Fault Refusal :=
  startOp .reset true (deviceReset s.cfg) .plain s

/-- RESETLUN: resetLUN(ABUF[0..3)), ALEN at least 3 (R167). -/
def execResetlun (s : State) : Host.Outcome State Fault Refusal :=
  startOp .resetlun (hasAddress s 3) (resetLunSeq s.cfg (addressBytes s 3)) .plain s

end Sys2Proof.Machine
end

