-- ==== Sys2Proof/Machine/PhaseEngine.lean ====
section
/-! DEFINITION. The four operations of the Phase Engine (42_phase_engine.md R136 to R139). -/

namespace Sys2Proof.Machine

/-- SENDCMD: sendCommand(IMM8), any byte (R136, 30_encoding.md R89). -/
def execSendcmd (cmd : Byte) (s : State) : Host.Outcome State Fault Refusal :=
  startOp (.sendcmd cmd) true (sendCommand s.cfg cmd) .plain s

/-- SENDADDR: sendAddress(ABUF[0..n)), n at most 5 and at most ALEN (R137, 30_encoding.md R96). -/
def execSendaddr (n : BitVec 3) (s : State) : Host.Outcome State Fault Refusal :=
  startOp (.sendaddr n) (decide (n.toNat ≤ 5) && hasAddress s n.toNat)
    (sendAddress s.cfg (addressBytes s n.toNat)) .plain s

/-- SENDDATA: sendData(TXBUF[0..TXLEN)) (R138). -/
def execSenddata (s : State) : Host.Outcome State Fault Refusal :=
  startOp .senddata true (sendData s.cfg s.txbuf) .plain s

/-- RECVDATA: receiveData(LEN), LEN at most RX_DEPTH (R139, 30_encoding.md R96). -/
def execRecvdata (s : State) : Host.Outcome State Fault Refusal :=
  startOp .recvdata (decide (s.len.toNat ≤ s.cfg.rxDepth)) (receiveData s.cfg s.len.toNat) .plain s

end Sys2Proof.Machine
end

