-- ==== Sys2Proof/Machine/ReadyBusy.lean ====
section
/-! DEFINITION. The operation of the Ready/Busy polling state machine (43_ready_busy.md R157). -/

namespace Sys2Proof.Machine

/-- WAITRDY: POLL (R157); it may last for ever (R158). -/
def execWaitrdy (s : State) : Host.Outcome State Fault Refusal :=
  startOp .waitrdy true waitReady .plain s

end Sys2Proof.Machine
end

