-- ==== Sys2Proof/Machine/TimingPrimitives.lean ====
section
/-! DEFINITION. The Timing Primitives' operation (41_timing.md R125). -/

namespace Sys2Proof.Machine

/-- DLY of the delay a selector names; a reserved selector has none (30_encoding.md R84). -/
def waitSeq (c : Config) (sel : BitVec 4) : List MicroStep :=
  match selectDelay sel with
  | some d => wait c d
  | none => []

/-- WAIT: DLY(T) for the constant T the selector names; codes 12 to 15 are BADARG (R125, 30_encoding.md R84). -/
def execWait (sel : BitVec 4) (s : State) : Host.Outcome State Fault Refusal :=
  startOp (.wait sel) (selectDelay sel).isSome (waitSeq s.cfg sel) .plain s

end Sys2Proof.Machine
end

