-- ==== Sys2Proof/Machine/WireCommands.lean ====
section
/-! DEFINITION. The NAND command bytes of 30_encoding.md R88. What the block does with a command byte is one command
cycle: the sequence of sendCommand with that byte (R87, R89, 42_phase_engine.md R136); what the device then does is the
environment's (00_scope.md R4). The host has one way to send a byte alone, SENDCMD, so the operation that runs is
SENDCMD with the byte (log 8). -/

namespace Sys2Proof.Machine

/-- A command cycle of byte `b`, started as SENDCMD (30_encoding.md R82, R89). -/
def commandCycle (b : Byte) (s : State) : Host.Outcome State Fault Refusal :=
  startOp (.sendcmd b) true (sendCommand s.cfg b) .plain s

/-- 0xFF, reset; no address byte; sent by R166, R165, R197. -/
def execNandReset (s : State) : Host.Outcome State Fault Refusal := commandCycle 0xFF#8 s

/-- 0xFA, reset-LUN; 3 row bytes follow; sent by R167. -/
def execNandResetLun (s : State) : Host.Outcome State Fault Refusal := commandCycle 0xFA#8 s

/-- 0x90, read-ID; 1 address byte follows; sent by R175 to R177. -/
def execNandReadId (s : State) : Host.Outcome State Fault Refusal := commandCycle 0x90#8 s

/-- 0xED, read-unique-ID; 1 address byte follows; sent by R178. -/
def execNandReadUniqueId (s : State) : Host.Outcome State Fault Refusal := commandCycle 0xED#8 s

/-- 0x70, read-status; no address byte; sent by R180. -/
def execNandReadStatus (s : State) : Host.Outcome State Fault Refusal := commandCycle 0x70#8 s

/-- 0x78, read status enhanced; 3 row bytes follow; sent by R181 (90_conflicts.md C1). -/
def execNandReadStatusEnh (s : State) : Host.Outcome State Fault Refusal := commandCycle 0x78#8 s

/-- 0x00, read-array, first; 5 address bytes follow; sent by R190, R198. -/
def execNandRead1 (s : State) : Host.Outcome State Fault Refusal := commandCycle 0x00#8 s

/-- 0x30, read-array, confirm; sent by R190, R198. -/
def execNandRead2 (s : State) : Host.Outcome State Fault Refusal := commandCycle 0x30#8 s

/-- 0x31, read-cache-next; sent by R198. -/
def execNandReadCacheNext (s : State) : Host.Outcome State Fault Refusal := commandCycle 0x31#8 s

/-- 0x3F, read-cache-last; sent by R198. -/
def execNandReadCacheLast (s : State) : Host.Outcome State Fault Refusal := commandCycle 0x3F#8 s

/-- 0x05, change-read-column, first; 2 column bytes follow; sent by R191. -/
def execNandChgRdCol1 (s : State) : Host.Outcome State Fault Refusal := commandCycle 0x05#8 s

/-- 0xE0, change-read-column, confirm; sent by R191. -/
def execNandChgRdCol2 (s : State) : Host.Outcome State Fault Refusal := commandCycle 0xE0#8 s

/-- 0x80, program, first; 5 address bytes and data-out cycles follow; sent by R194, R195. -/
def execNandProgram1 (s : State) : Host.Outcome State Fault Refusal := commandCycle 0x80#8 s

/-- 0x10, program, confirm; sent by R194, R195. -/
def execNandProgram2 (s : State) : Host.Outcome State Fault Refusal := commandCycle 0x10#8 s

/-- 0x15, program-cache, confirm of a pipelined page; sent by R195. -/
def execNandProgramCache (s : State) : Host.Outcome State Fault Refusal := commandCycle 0x15#8 s

/-- 0x85, change-write-column/row; 2 or 5 address bytes follow; sent by R192, R193. -/
def execNandChgWrColRow (s : State) : Host.Outcome State Fault Refusal := commandCycle 0x85#8 s

/-- 0x60, erase, first; 3 row bytes follow; sent by R196, R197. -/
def execNandErase1 (s : State) : Host.Outcome State Fault Refusal := commandCycle 0x60#8 s

/-- 0xD0, erase, confirm; sent by R196, R197. -/
def execNandErase2 (s : State) : Host.Outcome State Fault Refusal := commandCycle 0xD0#8 s

end Sys2Proof.Machine
end

