-- ==== Sys2Proof/Machine/Dispatch.lean ====
section
/-! DEFINITION. The dispatch: one arm per constructor of Instr. `exec i s` is what the block does in the cycle in which
the host starts operation `i` (30_encoding.md R96). -/

namespace Sys2Proof.Machine

def exec (i : Instr) (s : State) : Host.Outcome State Fault Refusal :=
  match i with
  | .setline line value => Sys2Proof.Machine.execSetline line value s
  | .readline line => Sys2Proof.Machine.execReadline line s
  | .wrdata byte => Sys2Proof.Machine.execWrdata byte s
  | .rddata => Sys2Proof.Machine.execRddata s
  | .setdir dir => Sys2Proof.Machine.execSetdir dir s
  | .wait sel => Sys2Proof.Machine.execWait sel s
  | .sendcmd cmd => Sys2Proof.Machine.execSendcmd cmd s
  | .sendaddr n => Sys2Proof.Machine.execSendaddr n s
  | .senddata => Sys2Proof.Machine.execSenddata s
  | .recvdata => Sys2Proof.Machine.execRecvdata s
  | .waitrdy => Sys2Proof.Machine.execWaitrdy s
  | .init => Sys2Proof.Machine.execInit s
  | .reset => Sys2Proof.Machine.execReset s
  | .resetlun => Sys2Proof.Machine.execResetlun s
  | .rdmfid => Sys2Proof.Machine.execRdmfid s
  | .rdonfiid => Sys2Proof.Machine.execRdonfiid s
  | .rdjedecid => Sys2Proof.Machine.execRdjedecid s
  | .rduid => Sys2Proof.Machine.execRduid s
  | .rdstatus => Sys2Proof.Machine.execRdstatus s
  | .rdstatuse => Sys2Proof.Machine.execRdstatuse s
  | .rdpage => Sys2Proof.Machine.execRdpage s
  | .chgrdcol => Sys2Proof.Machine.execChgrdcol s
  | .chgwrcol => Sys2Proof.Machine.execChgwrcol s
  | .chgrow => Sys2Proof.Machine.execChgrow s
  | .progpage => Sys2Proof.Machine.execProgpage s
  | .progcache => Sys2Proof.Machine.execProgcache s
  | .erase => Sys2Proof.Machine.execErase s
  | .perase => Sys2Proof.Machine.execPerase s
  | .rdcacheseq => Sys2Proof.Machine.execRdcacheseq s
  | .nandReset => Sys2Proof.Machine.execNandReset s
  | .nandResetLun => Sys2Proof.Machine.execNandResetLun s
  | .nandReadId => Sys2Proof.Machine.execNandReadId s
  | .nandReadUniqueId => Sys2Proof.Machine.execNandReadUniqueId s
  | .nandReadStatus => Sys2Proof.Machine.execNandReadStatus s
  | .nandReadStatusEnh => Sys2Proof.Machine.execNandReadStatusEnh s
  | .nandRead1 => Sys2Proof.Machine.execNandRead1 s
  | .nandRead2 => Sys2Proof.Machine.execNandRead2 s
  | .nandReadCacheNext => Sys2Proof.Machine.execNandReadCacheNext s
  | .nandReadCacheLast => Sys2Proof.Machine.execNandReadCacheLast s
  | .nandChgRdCol1 => Sys2Proof.Machine.execNandChgRdCol1 s
  | .nandChgRdCol2 => Sys2Proof.Machine.execNandChgRdCol2 s
  | .nandProgram1 => Sys2Proof.Machine.execNandProgram1 s
  | .nandProgram2 => Sys2Proof.Machine.execNandProgram2 s
  | .nandProgramCache => Sys2Proof.Machine.execNandProgramCache s
  | .nandChgWrColRow => Sys2Proof.Machine.execNandChgWrColRow s
  | .nandErase1 => Sys2Proof.Machine.execNandErase1 s
  | .nandErase2 => Sys2Proof.Machine.execNandErase2 s

end Sys2Proof.Machine
end

