-- ==== Sys2Proof/Machine/HostPort.lean ====
section
/-! DEFINITION. The host port: the register map of 20_memory.md R61 with the access rules of R62, but for the write of
OPW, which starts an operation and stands in Step.lean. -/

namespace Sys2Proof.Machine

/-- The word registers of 20_memory.md R61. -/
inductive HostReg where
  | opw | stat | res | aPush | aClr | txPush | txClr | len | pages | rxPop | rxLen | busr | dirr | reserved
deriving DecidableEq, Repr

/-- The register that `h_addr[5:2]` selects; offsets 0x34 to 0x3C are reserved (20_memory.md R61). -/
def hostReg (addr : BitVec 4) : HostReg :=
  match addr.toNat with
  | 0 => .opw
  | 1 => .stat
  | 2 => .res
  | 3 => .aPush
  | 4 => .aClr
  | 5 => .txPush
  | 6 => .txClr
  | 7 => .len
  | 8 => .pages
  | 9 => .rxPop
  | 10 => .rxLen
  | 11 => .busr
  | 12 => .dirr
  | _ => .reserved

/-- RXPOP has a byte to give: BUSY=0 and RXRD < RXLEN (20_memory.md R61). -/
def State.canPop (s : State) : Bool := !s.busy && decide (s.rxRd < s.rxLen)

/-- What a host read returns (20_memory.md R61, column "read returns"). -/
def State.hostValue (s : State) (r : HostReg) (levels : Latch) : Word :=
  match r with
  | .opw => s.opw
  | .stat => s.stat
  | .res => s.res.setWidth 32
  | .aPush => BitVec.ofNat 32 s.aLen
  | .aClr => 0#32
  | .txPush => BitVec.ofNat 32 s.txLen
  | .txClr => 0#32
  | .len => s.len
  | .pages => s.pages.setWidth 32
  | .rxPop => if s.canPop then (s.rxbuf.getD s.rxRd 0#8).setWidth 32 else 0#32
  | .rxLen => BitVec.ofNat 32 s.rxLen
  | .busr => (s.pin levels).setWidth 32
  | .dirr => s.dir.setWidth 32
  | .reserved => 0#32

/-- A host read: its value on the port; RXPOP alone changes something else, RXRD (20_memory.md R61, R62). -/
def State.hostRead (s : State) (r : HostReg) (levels : Latch) : State :=
  { s with
    rData := s.hostValue r levels
    rxRd := if r = .rxPop ∧ s.canPop then s.rxRd + 1 else s.rxRd }

/-- A host write to any register but OPW (20_memory.md R61, column "write does"): while BUSY=1 only the OVERRUN clear
has an effect (R62); a push into a full buffer is ignored. -/
def State.hostWrite (s : State) (r : HostReg) (w : Word) : State :=
  match r with
  | .stat => { s with overrun := s.overrun && !w.getLsbD 5 }
  | .aPush => if s.busy ∨ s.cfg.abufDepth ≤ s.aLen then s else { s with abuf := s.abuf ++ [w.setWidth 8] }
  | .aClr => if s.busy then s else { s with abuf := [] }
  | .txPush => if s.busy ∨ s.cfg.txDepth ≤ s.txLen then s else { s with txbuf := s.txbuf ++ [w.setWidth 8] }
  | .txClr => if s.busy then s else { s with txbuf := [] }
  | .len => if s.busy then s else { s with len := w }
  | .pages => if s.busy then s else { s with pages := w.setWidth 16 }
  | .rxLen => if s.busy then s else { s with rxRd := 0 }
  | .opw | .res | .rxPop | .busr | .dirr | .reserved => s

/-- What the host's access does to the block in this cycle, the write of OPW left to Step.lean. -/
def State.hostAccess (s : State) (a : HostAccess) (levels : Latch) : State :=
  match a with
  | .idle => s
  | .read addr => s.hostRead (hostReg addr) levels
  | .write addr w => s.hostWrite (hostReg addr) w

/-- The word the host writes to OPW in this cycle, if it does (20_memory.md R61, offset 0x00). -/
def opwWrite (a : HostAccess) : Option Word :=
  match a with
  | .write addr w => if hostReg addr = .opw then some w else none
  | .idle | .read _ => none

end Sys2Proof.Machine
end

