-- ==== Sys2Proof/Machine/Step.lean ====
section
/-! DEFINITION. One step: one `clk` cycle with the edge that ends it (00_scope.md R5, R11). -/

namespace Sys2Proof.Machine

/-- A host write of OPW (30_encoding.md R96): the word is latched while BUSY=0 and the operation it names is started; a
reserved op code is refused. -/
def issue (s : State) (w : Word) : Host.Outcome State Fault Refusal :=
  match decodeOpw w with
  | .ok i => exec i (s.latchOpw w)
  | .error _ => .next ((s.latchOpw w).refuse (if s.busy then .overrun else .illOp))

/-- What the host does in this cycle. -/
def hostCycle (s : State) (i : Input) : Host.Outcome State Fault Refusal :=
  match opwWrite i.host with
  | some w => issue s w
  | none => .next (s.hostAccess i.host i.levels)

/-- One cycle: at an edge with rst = 1 the hardware reset (R240); else the host's access and, if an operation was
running when the cycle began, one cycle of the sequencer, then the edge. While BUSY=1 the host's access touches only
OVERRUN and the read port (20_memory.md R62), so the two do not meet. -/
def step (s : State) : Host.Outcome State Fault Refusal :=
  if s.input.rst then .next s.hwReset
  else
    andThen (hostCycle s s.input) fun s1 =>
      andThen (if s.busy then s1.seqCycle s.input.levels else .next s1) fun s2 => .next (s2.tick s.input)

/-- The host writes OPW in the next cycle: the word `w` of the table, or SENDCMD with it where it is a command byte on
the wire (log 8, log 14). Nothing else of the state changes, and `rb` and the other levels are as they would be. -/
def State.withFetchWord (s : State) (nbits w : Nat) : State :=
  { s with
    inputs := { s.input with rst := false, host := .write 0#4 (hostWord (tableCode nbits w)) } :: s.inputs.tail }

end Sys2Proof.Machine
end

