-- ==== Sys2Proof/Safety.lean ====
section
/-! DEFINITION. What counts as a safe state and a good run, in the terms the statements use: the acceptance conditions
of 30_encoding.md R96 as one predicate, the invariant of the block, the cycles of a sequence (70_reset_and_hazards.md
R257), a device that is ready, the state an operation leaves, and what the device sees on the pins (30_encoding.md
R87). -/

namespace Sys2Proof.Machine

/-! ### Encodings -/

/-- The bits of IMM8 that an operation reads (30_encoding.md R83). -/
def usedImm8 (opc : BitVec 6) : Byte :=
  match opc.toNat with
  | 0x01 => 0x1F#8
  | 0x02 => 0x0F#8
  | 0x03 => 0xFF#8
  | 0x05 => 0x01#8
  | 0x08 => 0x0F#8
  | 0x10 => 0xFF#8
  | 0x11 => 0x07#8
  | _ => 0x00#8

/-- A code with its ignored bits cleared: bits 7:6 and 31:16 of an operation word (30_encoding.md R81) and the bits of
IMM8 that its operation ignores (R83); a command byte has none. -/
def usedBits : Code → Code
  | .opw w => .opw (w &&& (0#16 ++ usedImm8 (opcField w) ++ 0x3F#8))
  | .wire b => .wire b

/-- How the opcode table holds an instruction: its number of bits and its bits. -/
def tableWord (i : Instr) : Nat × Nat :=
  match encode i with
  | .opw w => (32, w.toNat)
  | .wire b => (8, b.toNat)

/-! ### Acceptance -/

/-- `domain_ok` of 30_encoding.md R96, row by row; an operation not listed there has no condition. -/
def DomainOk (i : Instr) (s : State) : Prop :=
  match i with
  | .setline line _ => 8 ≤ line.toNat ∧ line.toNat ≤ 13
  | .readline line => 8 ≤ line.toNat ∧ line.toNat ≤ 14
  | .wait sel => sel.toNat ≤ 11
  | .sendaddr n => n.toNat ≤ 5 ∧ n.toNat ≤ s.aLen
  | .recvdata => s.len.toNat ≤ s.cfg.rxDepth
  | .resetlun | .rdstatuse | .erase => 3 ≤ s.aLen
  | .perase => 3 ≤ s.aLen ∧ s.len.toNat * s.cfg.peIterCycles < 2 ^ s.cfg.dlyW
  | .chgrdcol | .chgwrcol => 2 ≤ s.aLen
  | .rdpage | .chgrow | .progpage => 5 ≤ s.aLen
  | .progcache => 1 ≤ s.pages.toNat ∧ s.pages.toNat ≤ s.cfg.maxPages ∧ 5 * s.pages.toNat ≤ s.aLen
  | .rdcacheseq =>
    5 ≤ s.aLen ∧ 1 ≤ s.pages.toNat ∧ s.pages.toNat ≤ s.cfg.maxPages ∧ s.pages.toNat * s.cfg.pageSize ≤ s.cfg.rxDepth
  | .wrdata _ | .rddata | .setdir _ | .sendcmd _ | .senddata | .waitrdy | .init | .reset => True
  | .rdmfid | .rdonfiid | .rdjedecid | .rduid | .rdstatus => True
  | .nandReset | .nandResetLun | .nandReadId | .nandReadUniqueId | .nandReadStatus | .nandReadStatusEnh => True
  | .nandRead1 | .nandRead2 | .nandReadCacheNext | .nandReadCacheLast | .nandChgRdCol1 | .nandChgRdCol2 => True
  | .nandProgram1 | .nandProgram2 | .nandProgramCache | .nandChgWrColRow | .nandErase1 | .nandErase2 => True

/-! ### Cycles, and a run in quiet cycles -/

/-- The cycles of a micro-operation when RB_S = 1: k for DLY(k), 1 for every other (70_reset_and_hazards.md R257). -/
def microCost : MicroOp → Nat
  | .dly k => k
  | .lines _ _ | .dirD _ | .dirAll _ | .poll | .cap | .rdl _ | .rdd => 1

/-- The cycles of a sequence when every POLL takes one (70_reset_and_hazards.md R257). -/
def seqCost (seq : List MicroStep) : Nat := (seq.map fun m => microCost m.op).sum

/-- How many bytes a sequence captures. -/
def capCount (seq : List MicroStep) : Nat := seq.countP fun m => m.op = .cap

/-- How many ready waits a sequence holds. -/
def pollCount (seq : List MicroStep) : Nat := seq.countP fun m => m.op = .poll

/-- RB_SYNC after the cycles of some inputs: every cycle shifts `rb` in (10_state.md R35). -/
def syncAfter (q : List Bool) (ins : List Input) : List Bool := ins.foldl (fun q i => (i.rb :: q).dropLast) q

/-- Each of the next `n` cycles is listed, with no reset and no host access; `rb` and the other levels are any. -/
def State.QuietFor (s : State) (n : Nat) : Prop :=
  n ≤ s.inputs.length ∧ ∀ i ∈ s.inputs.take n, i.rst = false ∧ i.host = .idle

/-- The next `n` cycles are quiet, and the device is ready throughout: the synchroniser holds only 1, and `rb` is high
in each of them. -/
def State.ReadyFor (s : State) (n : Nat) : Prop :=
  s.QuietFor n ∧ s.rbSync ≠ [] ∧ (∀ b ∈ s.rbSync, b = true) ∧ ∀ i ∈ s.inputs.take n, i.rb = true

/-- The level outside at the edge that ends cycle `k` from here, data bits: what a CAP in that cycle stores when the
block does not drive the data pins (10_state.md R25, 42_phase_engine.md R140). -/
def State.sample (s : State) (k : Nat) : Byte := (s.inputs.getD k default).levels.setWidth 8

/-- The `n` bytes of a receiveData whose first micro-operation runs in cycle `o` from here, on a ready device: byte j is
sampled T_SAMPLE cycles after RE has fallen (42_phase_engine.md R139). -/
def State.samples (s : State) (o n : Nat) : List Byte :=
  (List.range n).map fun j => s.sample (o + 4 + s.cfg.tSample + j * (3 + s.cfg.tSample + s.cfg.tHold))

/-- What an operation leaves when it has run for `n` cycles, where it captures nothing, reads nothing and moves no line:
DONE set, the flags and results that acceptance clears, the sequencer at rest, the clock and the synchroniser moved on,
everything else as before. -/
def State.ranFor (s : State) (n : Nat) : State :=
  { s with
    cur := none
    seqPc := 0
    dlyCnt := 0
    pollSt := .idle
    rbSync := syncAfter s.rbSync (s.inputs.take n)
    done := true
    fail := false
    uidWarn := false
    illOp := false
    badArg := false
    res := 0#16
    rxbuf := []
    rxRd := 0
    inputs := s.inputs.drop n
    cycle := s.cycle + n }

/-- BUS_OUT at idle with WP as it was: 0x3200 | (BUS_OUT[8] << 8) | DATA_IDLE (40_bus_interface.md R120). -/
def idleLines (c : Config) (b : Latch) : Latch :=
  0x3200#14 ||| (b &&& 0x0100#14) ||| c.dataIdle.setWidth 14

/-- What a phase operation leaves, lines at idle and PHASE Idle (10_state.md R30), after `n` cycles. -/
def State.ranIdle (s : State) (n : Nat) : State :=
  { s.ranFor n with busOut := idleLines s.cfg s.busOut, phase := .idle }

/-- What an operation that received bytes leaves after `n` cycles: lines at idle, the data field driven again
(42_phase_engine.md R139, R141), the bytes in RXBUF. -/
def State.ranReceived (s : State) (n : Nat) (bytes : List Byte) : State :=
  { s.ranIdle n with dir := dirWithData .output s.dir, rxbuf := bytes }

/-- `n` steps, stopping where a step stops: Host.Core.run of this machine, at its own types. -/
def runSteps : Nat → State → Host.Outcome State Fault Refusal
  | 0, s => .next s
  | n + 1, s => andThen (step s) (runSteps n)

/-- The operation `i`, started in `s`, is accepted and, run for `n` cycles, has ended in `u`. -/
def CompletesIn (i : Instr) (s : State) (n : Nat) (u : State) : Prop :=
  ∃ t, exec i s = .next t ∧ t.busy = true ∧ runSteps n t = .next u

/-- The cycles of sendCommand: 5 + T_SETUP + T_HOLD (70_reset_and_hazards.md R257). -/
def cmdCycles (c : Config) : Nat := 5 + c.tSetup + c.tHold

/-- The cycles of sendAddress of n bytes: 3 + n(3 + T_HOLD + T_SETUP) (70_reset_and_hazards.md R257). -/
def addrCycles (c : Config) (n : Nat) : Nat := 3 + n * (3 + c.tHold + c.tSetup)

/-- The cycles of sendData of n bytes: 2 + n(3 + T_HOLD + T_SETUP) (70_reset_and_hazards.md R257). -/
def dataCycles (c : Config) (n : Nat) : Nat := 2 + n * (3 + c.tHold + c.tSetup)

/-- The cycles of receiveData of n bytes with a POLL of one cycle: 5 + n(3 + T_SAMPLE + T_HOLD)
(70_reset_and_hazards.md R257). -/
def recvCycles (c : Config) (n : Nat) : Nat := 5 + n * (3 + c.tSample + c.tHold)

/-- The cycles of programPage without its readStatus, n data bytes, each POLL one cycle (46_array_ops.md R194). -/
def programCycles (c : Config) (n : Nat) : Nat :=
  2 * cmdCycles c + addrCycles c 5 + c.tAdl + dataCycles c n + c.tWb + 1

/-- The cycles of readStatus with a POLL of one cycle (45_ident_status.md R180). -/
def statusCycles (c : Config) : Nat := cmdCycles c + c.tWhr + recvCycles c 1

/-- In the sequence, after the micro-operation at `n`, the next that takes a cycle is `m`, at `j`: between them stand only
delays of 0 (41_timing.md R126). -/
def NextAt (seq : List MicroStep) (n j : Nat) (m : MicroStep) : Prop :=
  n < j ∧ (∀ k, n < k → k < j → ∃ p, seq[k]? = some { op := .dly 0, phase := p }) ∧ seq[j]? = some m ∧ m.op ≠ .dly 0

/-! ### What the device sees -/

/-- A bus cycle of 30_encoding.md R87, as the device sees it at its active edge. -/
inductive BusCycle where
  | command (b : Byte)
  | address (b : Byte)
  | dataOut (b : Byte)
  | dataIn
deriving DecidableEq, Repr

/-- What the block puts on the pins: BUS_OUT with DIR (10_state.md R21, R23). -/
structure Pins where
  out : Latch
  dir : Lines15
deriving DecidableEq, Repr

/-- The pins in a state. -/
def State.pins (s : State) : Pins := { out := s.busOut, dir := s.dir }

/-- The bus cycle between two values of the pins, if one of the active edges of 30_encoding.md R87 lies between them, with
CE low: WE rising, its kind told by CLE and ALE, or RE falling. It asks what 10_state.md R26 and 20_memory.md R68(b) say
the device goes by, and not the levels of the lines that have no edge (RE high in a write, WE high and CLE, ALE low in a
read), which R87 lists as the phase rules leave them from idle lines: the traces below give those (log 20, DEDUCED).
DESIGN CHOICE (log 21): R68(b) names no direction for the edges and no cycle for CLE and ALE both high, and R119 says that
the device latches floating levels when WE rises with the data field released; here an edge is counted only with the
control lines driven and the data field as R87 lists it, driven for a rise of WE and released for a fall of RE, with one
of CLE and ALE at most, and CE is read after the edge. So `none` says that no cycle of R87 is counted, not that the
device latches nothing. -/
def busCycle (before after : Pins) : Option BusCycle :=
  if after.out.getLsbD 12 then none
  else if after.dir = dirOut then
    if !before.out.getLsbD 9 && after.out.getLsbD 9 then
      if after.out.getLsbD 11 && !after.out.getLsbD 10 then some (.command (after.out.setWidth 8))
      else if after.out.getLsbD 10 && !after.out.getLsbD 11 then some (.address (after.out.setWidth 8))
      else if !after.out.getLsbD 10 && !after.out.getLsbD 11 then some (.dataOut (after.out.setWidth 8))
      else none
    else none
  else if after.dir = dirIn ∧ before.out.getLsbD 13 = true ∧ after.out.getLsbD 13 = false then some .dataIn
  else none

/-- The bus cycles along a list of values of the pins, from a first one. -/
def busCycles : Pins → List Pins → List BusCycle
  | _, [] => []
  | b, a :: rest => (busCycle b a).toList ++ busCycles a rest

/-- The pins after each of the next `n` steps, as long as they answer a next state. -/
def pinTrace : Nat → State → List Pins
  | 0, _ => []
  | n + 1, s =>
    match step s with
    | .next t => t.pins :: pinTrace n t
    | .fault _ => []
    | .refused _ => []

/-- The bus cycles the device sees in the next `n` cycles. -/
def State.deviceSees (s : State) (n : Nat) : List BusCycle := busCycles s.pins (pinTrace n s)

/-- The bus cycle whose active edge ends cycle `k` from here, if one does. -/
def State.edgeAt (s : State) (k : Nat) : Option BusCycle :=
  match runSteps k s, runSteps (k + 1) s with
  | .next u, .next v => busCycle u.pins v.pins
  | _, _ => none

/-- Each of the next `n` cycles is listed, with no reset; the host's accesses, `rb` and the levels are any. -/
def State.NoResetFor (s : State) (n : Nat) : Prop := n ≤ s.inputs.length ∧ ∀ i ∈ s.inputs.take n, i.rst = false

/-- The operation `i`, started in `s`, is accepted; from then on, whatever the device and the host do short of a reset,
the device sees the bus cycles of `w` in their order while the operation runs, and all of them by the time it ends. -/
def Shows (i : Instr) (s : State) (w : List BusCycle) : Prop :=
  ∃ t, exec i s = .next t ∧ t.busy = true ∧
    ∀ n u, t.NoResetFor n → runSteps n t = .next u → (∀ k, k < n → ∀ v, runSteps k t = .next v → v.busy = true) →
      t.deviceSees n <+: w ∧ (u.busy = false → t.deviceSees n = w)

/-- The address cycles of a list of bytes, in its order (42_phase_engine.md R137). -/
def addressCycles (a : List Byte) : List BusCycle := a.map .address

/-- The data-out cycles of a list of bytes, in its order (42_phase_engine.md R138). -/
def dataOutCycles (d : List Byte) : List BusCycle := d.map .dataOut

/-- `n` data-in cycles (42_phase_engine.md R139). -/
def dataInCycles (n : Nat) : List BusCycle := List.replicate n .dataIn

/-! ### The pins cycle by cycle -/

/-- A word of the column "BUS_OUT from idle" of 42_phase_engine.md R136 to R139, which is written for WP = 1 and data
0x00, with write-protect at `wp` and the byte `d` on the data field. -/
def lineWord (wp : Bool) (word : Latch) (d : Byte) : Latch :=
  (if wp then word else word &&& 0x3EFF#14) ||| d.setWidth 14

/-- The pins with that word and every line driven. -/
def driving (wp : Bool) (word : Latch) (d : Byte) : Pins := { out := lineWord wp word d, dir := 0x3FFF#15 }

/-- The pins with that word and the data field released. -/
def released (wp : Bool) (word : Latch) (d : Byte) : Pins := { out := lineWord wp word d, dir := 0x3F00#15 }

/-- The lines are driven and at idle, write-protect at `wp` (10_state.md R27, R30). -/
def State.IdleLines (s : State) (wp : Bool) : Prop := s.pins = driving wp 0x3300#14 s.cfg.dataIdle

/-- `k` cycles at idle lines: a delay or a POLL between phases. -/
def holdTrace (c : Config) (wp : Bool) (k : Nat) : List Pins := List.replicate k (driving wp 0x3300#14 c.dataIdle)

/-- The pins after each cycle of sendCommand(b) from idle lines (42_phase_engine.md R136, steps c1 to c7): the byte stands
T_SETUP cycles before WE rises, and T_HOLD cycles after. -/
def commandTrace (c : Config) (wp : Bool) (b : Byte) : List Pins :=
  [driving wp 0x2900#14 c.dataIdle] ++ List.replicate (1 + c.tSetup) (driving wp 0x2900#14 b) ++
    List.replicate (1 + c.tHold) (driving wp 0x2B00#14 b) ++ [driving wp 0x2300#14 b, driving wp 0x3300#14 c.dataIdle]

/-- The pins after each cycle of the bytes of sendAddress or sendData (42_phase_engine.md R137 steps a2 to a6, R138 steps
d2 to d6), `high` and `low` the words with WE high and low, `p` the byte before: T_HOLD before each fall of WE, T_SETUP
before each rise, and no hold after the last (70_reset_and_hazards.md R250). -/
def bytesTrace (c : Config) (wp : Bool) (high low : Latch) : Byte → List Byte → List Pins
  | _, [] => []
  | p, b :: rest =>
    List.replicate c.tHold (driving wp high p) ++ [driving wp low p] ++ List.replicate (1 + c.tSetup) (driving wp low b) ++
      [driving wp high b] ++ bytesTrace c wp high low b rest

/-- The pins after each cycle of sendAddress(a) from idle lines (42_phase_engine.md R137, steps a1 to a8). -/
def addressTrace (c : Config) (wp : Bool) (a : List Byte) : List Pins :=
  [driving wp 0x2700#14 c.dataIdle] ++ bytesTrace c wp 0x2700#14 0x2500#14 c.dataIdle a ++
    [driving wp 0x2300#14 (a.getLastD c.dataIdle), driving wp 0x3300#14 c.dataIdle]

/-- The pins after each cycle of sendData(d) from idle lines (42_phase_engine.md R138, steps d1 to d7). -/
def dataTrace (c : Config) (wp : Bool) (d : List Byte) : List Pins :=
  [driving wp 0x2300#14 c.dataIdle] ++ bytesTrace c wp 0x2300#14 0x2100#14 c.dataIdle d ++
    [driving wp 0x3300#14 c.dataIdle]

/-- The pins after each cycle of receiveData(n) from idle lines, its POLL one cycle (42_phase_engine.md R139, steps r1 to
r10): RE is low for T_SAMPLE cycles before the CAP, and high for T_HOLD before it falls again. -/
def receiveTrace (c : Config) (wp : Bool) (n : Nat) : List Pins :=
  [released wp 0x3300#14 c.dataIdle, released wp 0x3300#14 c.dataIdle, released wp 0x2300#14 c.dataIdle] ++
    (List.replicate n (List.replicate (2 + c.tSample) (released wp 0x0300#14 c.dataIdle) ++
      List.replicate (1 + c.tHold) (released wp 0x2300#14 c.dataIdle))).flatten ++
    [driving wp 0x2300#14 c.dataIdle, driving wp 0x3300#14 c.dataIdle]

/-- The pins in reset() from idle lines, its POLL one cycle (44_lifecycle.md R166). -/
def resetTrace (c : Config) (wp : Bool) : List Pins := commandTrace c wp 0xFF#8 ++ holdTrace c wp (c.tWb + 1)

/-- The pins in readStatus() from idle lines, its POLL one cycle (45_ident_status.md R180). -/
def statusTrace (c : Config) (wp : Bool) : List Pins :=
  commandTrace c wp 0x70#8 ++ holdTrace c wp c.tWhr ++ receiveTrace c wp 1

/-- The pins in an ID read of `n` bytes from idle lines, each POLL one cycle (45_ident_status.md R175 to R177). -/
def idTrace (c : Config) (wp : Bool) (column : Byte) (n : Nat) : List Pins :=
  holdTrace c wp 1 ++ commandTrace c wp 0x90#8 ++ addressTrace c wp [column] ++ holdTrace c wp c.tAdl ++
    receiveTrace c wp n

/-- The pins in readPage(a5) from idle lines, each POLL one cycle (46_array_ops.md R190). -/
def readPageTrace (c : Config) (wp : Bool) (a : List Byte) : List Pins :=
  holdTrace c wp 1 ++ commandTrace c wp 0x00#8 ++ addressTrace c wp a ++ commandTrace c wp 0x30#8 ++
    holdTrace c wp (c.tWb + 1)

/-- The pins in one page of a program operation from idle lines, its POLL one cycle (46_array_ops.md R194, R195). -/
def programTrace (c : Config) (wp : Bool) (a d : List Byte) (confirm : Byte) : List Pins :=
  commandTrace c wp 0x80#8 ++ addressTrace c wp a ++ holdTrace c wp c.tAdl ++ dataTrace c wp d ++
    commandTrace c wp confirm ++ holdTrace c wp (c.tWb + 1)

/-- The pins in the opening of the erase operations from idle lines, its POLL one cycle (46_array_ops.md R196, R197). -/
def eraseTrace (c : Config) (wp : Bool) (a : List Byte) : List Pins :=
  holdTrace c wp 1 ++ commandTrace c wp 0x60#8 ++ addressTrace c wp a ++ commandTrace c wp 0xD0#8

/-- The operation `i`, started in `s`, is accepted; then, with no reset, whatever the device and the host do, the pins
after each of its cycles are those of the list, and it ends with the last of them. -/
def Draws (i : Instr) (s : State) (trace : List Pins) : Prop :=
  s.NoResetFor trace.length →
    ∃ t u, exec i s = .next t ∧ t.busy = true ∧ pinTrace trace.length t = trace ∧
      runSteps trace.length t = .next u ∧ u.busy = false

/-- The synchroniser holds only 1, and `rb` is high in each of the next `n` cycles. -/
def State.DeviceReady (s : State) (n : Nat) : Prop :=
  s.rbSync ≠ [] ∧ (∀ b ∈ s.rbSync, b = true) ∧ ∀ i ∈ s.inputs.take n, i.rb = true

/-- The same for a device that is ready throughout, so that each POLL lasts one cycle. -/
def DrawsReady (i : Instr) (s : State) (trace : List Pins) : Prop := s.DeviceReady trace.length → Draws i s trace

/-! ### Safe lines -/

/-- ALE and CLE are not both high (10_state.md R28). -/
def LatchesApart (b : Latch) : Prop := ¬(b.getLsbD 10 = true ∧ b.getLsbD 11 = true)

/-! ### The invariant -/

/-- DIR as 10_state.md R24 builds it: bit 14 is 0, the data field and the control lines each all 0 or all 1. -/
def DirOk (d : Lines15) : Prop := d = 0x0000#15 ∨ d = 0x00FF#15 ∨ d = 0x3F00#15 ∨ d = 0x3FFF#15

/-- A micro-operation that a sequence of this configuration may hold: a delay the counter can count (41_timing.md
R126) with no PHASE update on it (42_phase_engine.md R136 to R139), and DIRALL only with DIR_OUT (40_bus_interface.md R114). -/
def MicroOk (c : Config) (m : MicroStep) : Prop :=
  match m.op with
  | .dly k => k < 2 ^ c.dlyW ∧ m.phase = none
  | .dirAll v => v = 0x3FFF#14
  | .lines _ _ | .dirD _ | .poll | .cap | .rdl _ | .rdd => True

/-- DLYCNT fits the current micro-operation: at most k in a DLY(k), else 0 (10_state.md R34). -/
def DlyOk (m : Option MicroStep) (n : Nat) : Prop :=
  match m with
  | some { op := .dly k, .. } => n ≤ k
  | _ => n = 0

/-- From PHASE `p` on, the rest of a sequence leaves Idle only for one phase at a time and ends in Idle: there is no
transition between two phases (42_phase_engine.md R135, 10_state.md R31). -/
def PhasesOk (p : Phase) : List MicroStep → Prop
  | [] => p = .idle
  | m :: rest =>
    match m.phase with
    | none => PhasesOk p rest
    | some q => (p = .idle ∨ q = .idle) ∧ PhasesOk q rest

/-- The sequencer at rest (10_state.md R46): PHASE Idle, SEQ_PC 0, DLYCNT 0, POLLST PollIdle. -/
def State.AtRest (s : State) : Prop := s.phase = .idle ∧ s.seqPc = 0 ∧ s.dlyCnt = 0 ∧ s.pollSt = .idle

/-- The sequencer in operation `c`: the operand registers are those latched at the start (70_reset_and_hazards.md R244);
DONE, ILLOP, BADARG and RXRD are 0 (10_state.md R43, 20_memory.md R61); SEQ_PC is in the sequence or at its end (R32);
POLLST is PollWait exactly in a POLL (R33); DLYCNT fits (R34); the bytes still to be captured fit RXBUF
(42_phase_engine.md R140); PHASE goes through Idle and returns to it (R31). -/
def State.Running (s : State) (c : CurOp) : Prop :=
  (c.aLen = s.aLen ∧ c.txLen = s.txLen ∧ c.len = s.len ∧ c.pages = s.pages) ∧
  (s.done = false ∧ s.illOp = false ∧ s.badArg = false ∧ s.rxRd = 0) ∧
  s.seqPc ≤ c.seq.length ∧
  s.pollSt = loadPoll c.seq[s.seqPc]? ∧
  DlyOk c.seq[s.seqPc]? s.dlyCnt ∧
  (∀ m ∈ c.seq, MicroOk s.cfg m) ∧
  s.rxLen + capCount (c.seq.drop s.seqPc) ≤ s.cfg.rxDepth ∧
  PhasesOk s.phase (c.seq.drop s.seqPc)

/-- The registers are as the rules keep them, whatever runs: a valid configuration, DIR as R24 builds it, a synchroniser
of RB_SYNC_STAGES stages (R35), buffers within their depths (R38, R39, R41), RXRD at most RXLEN, RES[15:13] = 0 (R42),
FAIL and UIDWARN never together and never without DONE (60_exceptions.md R221, R223), ILLOP and BADARG never together
(60_exceptions.md R220). -/
def State.RegsOk (s : State) : Prop :=
  s.cfg.Valid ∧ DirOk s.dir ∧ s.rbSync.length = s.cfg.rbSyncStages ∧
  s.aLen ≤ s.cfg.abufDepth ∧ s.txLen ≤ s.cfg.txDepth ∧ s.rxLen ≤ s.cfg.rxDepth ∧ s.rxRd ≤ s.rxLen ∧
  s.res.extractLsb' 13 3 = 0#3 ∧ ¬(s.fail = true ∧ s.uidWarn = true) ∧ (s.fail = true → s.done = true) ∧
  (s.uidWarn = true → s.done = true) ∧ ¬(s.illOp = true ∧ s.badArg = true)

/-- The invariant of the block. -/
def State.Inv (s : State) : Prop :=
  s.RegsOk ∧
  match s.cur with
  | none => s.AtRest
  | some c => s.Running c

end Sys2Proof.Machine
end

