-- ==== Sys2Proof/Certificates/Slice0/Obligations.lean ====
section
/-! DEFINITION. The statements for the provers. Each says what it formalises: the rules of spec/ by number. No statement
fixes a delay, a parameter or a level: they hold for every configuration, and for whatever the device and the host do
within the premises. -/

open Sys2Proof Sys2Proof.Machine

/-! ### Encodings -/

/-- For every instruction i, decode (encode i) is i. For every code c (an operation word or a command byte) and every
instruction i: c decodes to i if and only if c, with the bits that its operation ignores cleared (bits 7:6, 31:16, and
the bits of IMM8 the operation does not read), is the encoding of i. (R80, R81, R82, R83, R88.) -/
def Obligations.DecodeEncode : Prop :=
  (∀ i : Instr, decode (encode i) = .ok i) ∧ ∀ (c : Code) (i : Instr), decode c = .ok i ↔ usedBits c = encode i

/-- Twelve operation words and one command byte, one or more of each family, decode to the instruction the tables
give; one of them has every ignored bit set. The word 0 is refused as reserved op code 0. (R81, R82, R83, R86, R88.)
-/
def Obligations.SampleWords : Prop :=
  decode (.opw 0x00001801#32) = .ok (.setline 8#4 true) ∧ decode (.opw 0x00000E02#32) = .ok (.readline 14#4) ∧
  decode (.opw 0x0000A503#32) = .ok (.wrdata 0xA5#8) ∧ decode (.opw 0x00000105#32) = .ok (.setdir .output) ∧
  decode (.opw 0x00000308#32) = .ok (.wait 3#4) ∧ decode (.opw 0x0000FF10#32) = .ok (.sendcmd 0xFF#8) ∧
  decode (.opw 0x00000511#32) = .ok (.sendaddr 5#3) ∧ decode (.opw 0x00000018#32) = .ok .waitrdy ∧
  decode (.opw 0x00000020#32) = .ok .init ∧ decode (.opw 0x0000002B#32) = .ok .rduid ∧
  decode (.opw 0x00000035#32) = .ok .progcache ∧ decode (.opw 0xFFFFFFF8#32) = .ok .rdcacheseq ∧
  decode (.opw 0x00000000#32) = .error (.reservedOpcode 0#6) ∧ decode (.wire 0x78#8) = .ok .nandReadStatusEnh

/-- With BUSY=0, no reset and the host writing w to OPW: OPW[5:0] is one of the 35 values that R86 lists if and only
if the next state is the old one with OPW = w, ILLOP = 1, BADARG = 0 and the clock edge (the synchroniser shifts). So
no micro-operation runs, no pin changes, BUSY stays 0 and DONE is as it was. (R86.) -/
def Obligations.ReservedOpcodes : Prop :=
  ∀ (s : State) (w : Word), s.busy = false → s.input.rst = false → s.input.host = .write 0#4 w →
    (w.extractLsb' 0 6 ∈ [0x00#6, 0x06#6, 0x07#6, 0x09#6, 0x0A#6, 0x0B#6, 0x0C#6, 0x0D#6, 0x0E#6, 0x0F#6, 0x14#6,
      0x15#6, 0x16#6, 0x17#6, 0x19#6, 0x1A#6, 0x1B#6, 0x1C#6, 0x1D#6, 0x1E#6, 0x1F#6, 0x23#6, 0x24#6, 0x25#6, 0x26#6,
      0x27#6, 0x2E#6, 0x2F#6, 0x39#6, 0x3A#6, 0x3B#6, 0x3C#6, 0x3D#6, 0x3E#6, 0x3F#6] ↔
      step s = .next (({ s with opw := w, illOp := true, badArg := false } : State).tick s.input))

/-! ### The step and the start of an operation -/

/-- No reset and the host writes w to OPW. Where w decodes to i: with BUSY=0 the step is exec i of the state with OPW
= w and ILLOP, BADARG cleared, then the edge (the synchroniser shifts, the next input is due); with BUSY=1 it is exec
i of the state, then one cycle of the running operation, then the edge. For every w, reserved op codes too: with
BUSY=1 the step sets OVERRUN, runs one cycle of the running operation as without the write, then the edge. (R96, R61,
R62.) -/
def Obligations.StepRunsDecoded : Prop :=
  ∀ (s : State) (w : Word), s.input.rst = false → s.input.host = .write 0#4 w →
    (s.busy = true →
      step s = andThen (({ s with overrun := true } : State).seqCycle s.input.levels) fun u => .next (u.tick s.input)) ∧
    ∀ i : Instr, decode (.opw w) = .ok i →
      (s.busy = false →
        step s = andThen (exec i { s with opw := w, illOp := false, badArg := false }) fun t =>
          .next (t.tick s.input)) ∧
      (s.busy = true →
        step s = andThen (exec i s) fun t => andThen (t.seqCycle s.input.levels) fun u => .next (u.tick s.input))

/-- For every instruction i and every state with BUSY=0: the step after withFetchWord of i's table word is exec i of
that state with OPW latched and ILLOP, BADARG cleared, then the edge. The word in OPW is the operation word itself,
or, for a NAND command byte b, the word of SENDCMD b. That a command byte of the table runs as SENDCMD, and that the
table's width tells the two encodings apart, are the model's choices (logs 8 and 14). (R82, R88, R89, R96.) -/
def Obligations.FetchedWordRuns : Prop :=
  ∀ (s : State) (i : Instr), s.busy = false →
    (match encode i with
      | .opw w => hostWord (tableCode (tableWord i).1 (tableWord i).2) = w
      | .wire b => hostWord (tableCode (tableWord i).1 (tableWord i).2) = opwWord 0x10#6 b) ∧
    step (s.withFetchWord (tableWord i).1 (tableWord i).2) =
      andThen (exec i { s.withFetchWord (tableWord i).1 (tableWord i).2 with
          opw := hostWord (tableCode (tableWord i).1 (tableWord i).2), illOp := false, badArg := false }) fun t =>
        .next (t.tick (s.withFetchWord (tableWord i).1 (tableWord i).2).input)

/-- For every instruction and state: with BUSY=1 only OVERRUN is set; with BUSY=0 and the operands outside domain_ok
of R96 only BADARG is set (ILLOP cleared); with BUSY=0 and the operands inside, CUR_OP latches the operation with
ALEN, TXLEN, LEN and PAGES, SEQ_PC is 0, DONE, FAIL, UIDWARN, ILLOP, BADARG, RES, RXLEN, RXRD are cleared, and every
other field of the state is as before but DLYCNT and POLLST, which belong to the first micro-operation. Of the 47, R96
speaks of the 29 op codes of R82; that each of the 18 command bytes is started in the same way, as SENDCMD, is the
model's choice (log 8). (R96, R220, R32, R43, R244.) -/
def Obligations.ExecDecides : Prop :=
  ∀ (i : Instr) (s : State),
    (s.busy = true → exec i s = .next { s with overrun := true }) ∧
    (s.busy = false → ¬DomainOk i s → exec i s = .next { s with badArg := true, illOp := false }) ∧
    (s.busy = false → DomainOk i s → ∃ (c : CurOp) (d : Nat) (p : PollState),
      c.aLen = s.abuf.length ∧ c.txLen = s.txbuf.length ∧ c.len = s.len ∧ c.pages = s.pages ∧
      (∀ w, decode (.opw w) = .ok i → c.op = i) ∧
      exec i s = .next { s with
        cur := some c, seqPc := 0, dlyCnt := d, pollSt := p, done := false, fail := false, uidWarn := false,
        illOp := false, badArg := false, res := 0#16, rxbuf := [], rxRd := 0 })

/-- For every step without reset: OVERRUN is 1 after it exactly when the host wrote OPW while BUSY=1, or it was 1 and
the host did not write 1 to STAT bit 5. Without an OPW write, or while BUSY=1, ILLOP and BADARG stay. An OPW write
while BUSY=0 sets ILLOP exactly for a reserved op code and BADARG exactly for a valid one outside its domain, and
where it sets either the next state is the old one with OPW, ILLOP and BADARG written and the clock edge. (R220, R43,
R62, R96.) -/
def Obligations.RefusalFlags : Prop :=
  ∀ s t : State, s.input.rst = false → step s = .next t →
    (t.overrun = true ↔ (s.busy = true ∧ ∃ w, s.input.host = .write 0#4 w) ∨
      (s.overrun = true ∧ ∀ w, s.input.host = .write 1#4 w → w.getLsbD 5 = false)) ∧
    ((s.busy = true ∨ ∀ w, s.input.host ≠ .write 0#4 w) → t.illOp = s.illOp ∧ t.badArg = s.badArg) ∧
    ∀ w, s.busy = false → s.input.host = .write 0#4 w →
      ((t.illOp = true ↔ ∃ e, decode (.opw w) = .error e) ∧
        (t.badArg = true ↔ ∃ i, decode (.opw w) = .ok i ∧ ¬DomainOk i s)) ∧
      ((t.illOp = true ∨ t.badArg = true) →
        t = ({ s with opw := w, illOp := t.illOp, badArg := t.badArg } : State).tick s.input)

/-! ### What each operation leaves -/

/-- BUSY=0, l in 8..13, one quiet cycle: setline l v is accepted and after one cycle has completed; BUS_OUT differs at
most in bit l, which is v; DONE is set, the flags and results that acceptance clears are clear, the clock and the
synchroniser have moved on, and everything else is as before. (R115, R85, R112.) -/
def Obligations.SetlineResult : Prop :=
  ∀ (s : State) (l : BitVec 4) (v : Bool), s.busy = false → 8 ≤ l.toNat → l.toNat ≤ 13 → s.QuietFor 1 →
    ∃ b : Latch, (∀ i, i < 14 → b.getLsbD i = if i = l.toNat then v else s.busOut.getLsbD i) ∧
      CompletesIn (.setline l v) s 1 { s.ranFor 1 with busOut := b }

/-- BUSY=0, l in 8..14, one quiet cycle: readline l completes in one cycle with RES = 1 or 0: RB_S for l = 14,
BUS_OUT[l] where DIR[l]=1, the level outside at the edge where DIR[l]=0. Everything else as acceptance and the clock
leave it. That the level is taken at the edge that ends the cycle is the model's reading (log 15). (R116, R25, R35,
R85.) -/
def Obligations.ReadlineResult : Prop :=
  ∀ (s : State) (l : BitVec 4), s.busy = false → 8 ≤ l.toNat → l.toNat ≤ 14 → s.QuietFor 1 →
    CompletesIn (.readline l) s 1
      { s.ranFor 1 with
        res :=
          if (if l.toNat = 14 then s.rbS else if s.dir.getLsbD l.toNat then s.busOut.getLsbD l.toNat
            else (s.inputs.getD 0 default).levels.getLsbD l.toNat) = true then 1#16 else 0#16 }

/-- BUSY=0, one quiet cycle: wrdata b completes in one cycle with BUS_OUT = (BUS_OUT and 0x3F00) or b. Everything else
as acceptance and the clock leave it. (R117.) -/
def Obligations.WrdataResult : Prop :=
  ∀ (s : State) (b : Byte), s.busy = false → s.QuietFor 1 →
    CompletesIn (.wrdata b) s 1 { s.ranFor 1 with busOut := (s.busOut &&& 0x3F00#14) ||| b.setWidth 14 }

/-- BUSY=0, one quiet cycle: rddata completes in one cycle with RES = the byte whose bit i is BUS_OUT[i] where
DIR[i]=1 and the level outside at the edge where DIR[i]=0. Everything else as acceptance and the clock leave it. That
the level is taken at the edge that ends the cycle is the model's reading (log 15). (R118, R25.) -/
def Obligations.RddataResult : Prop :=
  ∀ s : State, s.busy = false → s.QuietFor 1 →
    ∃ b : Byte, (∀ i, i < 8 → b.getLsbD i = if s.dir.getLsbD i then s.busOut.getLsbD i
        else (s.inputs.getD 0 default).levels.getLsbD i) ∧
      CompletesIn .rddata s 1 { s.ranFor 1 with res := b.setWidth 16 }

/-- BUSY=0, one quiet cycle: setdir Output completes in one cycle with DIR or 0x00FF, setdir Input with DIR and
0x7F00. Everything else as acceptance and the clock leave it. (R119, R113.) -/
def Obligations.SetdirResult : Prop :=
  ∀ s : State, s.busy = false → s.QuietFor 1 →
    CompletesIn (.setdir .output) s 1 { s.ranFor 1 with dir := s.dir ||| 0x00FF#15 } ∧
    CompletesIn (.setdir .input) s 1 { s.ranFor 1 with dir := s.dir &&& 0x7F00#15 }

/-- BUSY=0, the selector names the delay k in the order of the table of R84, max 1 k quiet cycles: wait completes
after exactly max 1 k cycles, with DONE set and nothing changed but what acceptance clears and the clock moves. That
the delay is exact is the model's reading (log 6). (R125, R84, R126.) -/
def Obligations.WaitResult : Prop :=
  ∀ (s : State) (sel : BitVec 4) (k : Nat), s.busy = false →
    [s.cfg.tSetup, s.cfg.tHold, s.cfg.tSample, s.cfg.tWb, s.cfg.tWhr, s.cfg.tAdl, s.cfg.tCcs, s.cfg.tRow, s.cfg.tWw,
      s.cfg.tRtc, s.cfg.tAr, s.cfg.tPor][sel.toNat]? = some k → s.QuietFor (max 1 k) →
    CompletesIn (.wait sel) s (max 1 k) (s.ranFor (max 1 k))

/-- BUSY=0; RB_S, as the synchroniser shifts the rb levels in, is 0 in cycles 0 to n-1 and 1 in cycle n; n+1 quiet
cycles: waitrdy completes after n+1 cycles, with DONE set and nothing changed but what acceptance clears and the clock
moves. (R157, R156, R35.) -/
def Obligations.WaitrdyResult : Prop :=
  ∀ (s : State) (n : Nat), s.busy = false → s.QuietFor (n + 1) →
    (∀ k, k < n → (syncAfter s.rbSync (s.inputs.take k)).getLastD false = false) →
    (syncAfter s.rbSync (s.inputs.take n)).getLastD false = true →
    CompletesIn .waitrdy s (n + 1) (s.ranFor (n + 1))

/-- BUSY=0 and that many quiet cycles: sendcmd b, for every byte b, completes with BUS_OUT = 0x3200, or WP as it was,
or DATA_IDLE; PHASE Idle; DONE set; everything else as acceptance and the clock leave it. (R136, R141, R257.) -/
def Obligations.SendcmdResult : Prop :=
  ∀ (s : State) (b : Byte) (n : Nat), s.busy = false → n = cmdCycles s.cfg → s.QuietFor n →
    CompletesIn (.sendcmd b) s n (s.ranIdle n)

/-- BUSY=0, n at most 5 and at most ALEN, that many quiet cycles: sendaddr n completes with BUS_OUT at idle (WP as it
was), PHASE Idle, DONE set; everything else as acceptance and the clock leave it. (R137, R141, R257.) -/
def Obligations.SendaddrResult : Prop :=
  ∀ (s : State) (k : BitVec 3) (n : Nat), s.busy = false → k.toNat ≤ 5 → k.toNat ≤ s.aLen →
    n = addrCycles s.cfg k.toNat → s.QuietFor n → CompletesIn (.sendaddr k) s n (s.ranIdle n)

/-- BUSY=0 and that many quiet cycles: senddata completes with BUS_OUT at idle (WP as it was), PHASE Idle, DONE set;
TXBUF and everything else as acceptance and the clock leave it. (R138, R141, R257.) -/
def Obligations.SenddataResult : Prop :=
  ∀ (s : State) (n : Nat), s.busy = false → n = dataCycles s.cfg s.txLen → s.QuietFor n →
    CompletesIn .senddata s n (s.ranIdle n)

/-- BUSY=0, LEN at most RX_DEPTH, a ready device for 4 + P + LEN(3 + T_SAMPLE + T_HOLD) quiet cycles with P = 1:
recvdata completes with RXBUF = the LEN bytes on the data pins at the edges its CAPs end on, DIR[7:0] = 0xFF, BUS_OUT
at idle (WP as it was), PHASE Idle, DONE set; everything else as acceptance and the clock leave it. (R139, R140, R141,
R96, R257.) -/
def Obligations.RecvdataResult : Prop :=
  ∀ (s : State) (n : Nat), s.busy = false → s.len.toNat ≤ s.cfg.rxDepth → n = recvCycles s.cfg s.len.toNat →
    s.ReadyFor n → CompletesIn .recvdata s n (s.ranReceived n (s.samples 0 s.len.toNat))

/-- BUSY=0 and that many quiet cycles: each of the 18 wire commands completes with BUS_OUT at idle (WP as it was),
PHASE Idle, DONE set; everything else as acceptance and the clock leave it. That a command byte alone is started as
SENDCMD is the model's choice (log 8). (R87, R88, R89, R136, R257.) -/
def Obligations.WireCommandResult : Prop :=
  ∀ (s : State) (i : Instr) (n : Nat), s.busy = false →
    i ∈ [Instr.nandReset, .nandResetLun, .nandReadId, .nandReadUniqueId, .nandReadStatus, .nandReadStatusEnh,
      .nandRead1, .nandRead2, .nandReadCacheNext, .nandReadCacheLast, .nandChgRdCol1, .nandChgRdCol2, .nandProgram1,
      .nandProgram2, .nandProgramCache, .nandChgWrColRow, .nandErase1, .nandErase2] →
    n = cmdCycles s.cfg → s.QuietFor n → CompletesIn i s n (s.ranIdle n)

/-- BUSY=0, a ready device for 2 + T_POR + 1 + (5 + T_SETUP + T_HOLD) + T_WB + 1 quiet cycles: init completes after
exactly these with BUS_OUT = IDLE (write-protect and data at their idle parameters), DIR = 0x3FFF, PHASE Idle, DONE
set; everything else as acceptance and the clock leave it. (R165, R46, R257.) -/
def Obligations.InitResult : Prop :=
  ∀ (s : State) (n : Nat), s.busy = false →
    n = 2 + s.cfg.tPor + 1 + cmdCycles s.cfg + s.cfg.tWb + 1 → s.ReadyFor n →
    CompletesIn .init s n { s.ranFor n with busOut := idleWord s.cfg, dir := 0x3FFF#15, phase := .idle }

/-- BUSY=0, a ready device: reset completes in (5 + T_SETUP + T_HOLD) + T_WB + 1 cycles; resetlun, with ALEN at least
3, in these and the cycles of a 3-byte sendAddress. Both leave BUS_OUT at idle (WP as it was), PHASE Idle, DONE set,
and everything else as acceptance and the clock leave it. (R166, R167, R241, R257.) -/
def Obligations.ResetResult : Prop :=
  ∀ (s : State) (n : Nat), s.busy = false → s.ReadyFor n →
    (n = cmdCycles s.cfg + s.cfg.tWb + 1 → CompletesIn .reset s n (s.ranIdle n)) ∧
    (3 ≤ s.aLen → n = cmdCycles s.cfg + addrCycles s.cfg 3 + s.cfg.tWb + 1 → CompletesIn .resetlun s n (s.ranIdle n))

/-- BUSY=0, RX_DEPTH at least 32, a ready device for the cycles of waitReady, sendCommand, a one-byte sendAddress,
T_ADL and receiveData: the operation completes after exactly these with RXBUF = the bytes on the data pins at its
CAPs, DIR[7:0] = 0xFF, lines at idle (WP as it was), DONE set, everything else as acceptance and the clock leave it.
(R175, R176, R177, R140, R257.) -/
def Obligations.IdReadResult : Prop :=
  ∀ (s : State) (i : Instr) (k o n : Nat), s.busy = false → 32 ≤ s.cfg.rxDepth →
    (i, k) ∈ [(Instr.rdmfid, 8), (.rdonfiid, 4), (.rdjedecid, 5)] →
    o = 1 + cmdCycles s.cfg + addrCycles s.cfg 1 + s.cfg.tAdl → n = o + recvCycles s.cfg k → s.ReadyFor n →
    CompletesIn i s n (s.ranReceived n (s.samples o k))

/-- BUSY=0, RX_DEPTH at least 32, a ready device for the cycles of the operation; rx is the 32 bytes on the data pins
at its CAPs. If byte i xor byte 16+i is 0xFF for every i below 16, rduid completes with RXBUF = the first 16 bytes and
UIDWARN = 0, RES = 0. If i is the first index where it is not, RXBUF is the same, UIDWARN = 1 and RES = 256 i.
Everything else as for a receiving operation. (R178, R179, R42, R48, R217.) -/
def Obligations.RduidResult : Prop :=
  ∀ (s : State) (o n : Nat) (rx : List Byte), s.busy = false → 32 ≤ s.cfg.rxDepth →
    o = cmdCycles s.cfg + addrCycles s.cfg 1 + s.cfg.tWb + s.cfg.tAr + s.cfg.tRow + 1 →
    n = o + recvCycles s.cfg 32 → s.ReadyFor n → rx = s.samples o 32 →
    ((∀ i, i < 16 → rx.getD i 0#8 ^^^ rx.getD (16 + i) 0#8 = 0xFF#8) →
      CompletesIn .rduid s n (s.ranReceived n (rx.take 16))) ∧
    ∀ i, i < 16 → rx.getD i 0#8 ^^^ rx.getD (16 + i) 0#8 ≠ 0xFF#8 →
      (∀ j, j < i → rx.getD j 0#8 ^^^ rx.getD (16 + j) 0#8 = 0xFF#8) →
      CompletesIn .rduid s n { s.ranReceived n (rx.take 16) with uidWarn := true, res := BitVec.ofNat 16 (256 * i) }

/-- BUSY=0, RX_DEPTH at least 32, a ready device for the cycles of the operation (rdstatuse with ALEN at least 3 has a
3-byte sendAddress more): it completes with RXBUF = [b], RES = b zero-extended, FAIL = 0, where b is the byte on the
data pins at its CAP; everything else as for a receiving operation. That 0x78 and the address take the place of 0x70
is the reading R181 takes (log 13). (R180, R181, R47, R257.) -/
def Obligations.StatusResult : Prop :=
  ∀ (s : State) (n : Nat) (b : Byte), s.busy = false → 32 ≤ s.cfg.rxDepth →
    (n = statusCycles s.cfg → s.ReadyFor n → b = s.sample (cmdCycles s.cfg + s.cfg.tWhr + 4 + s.cfg.tSample) →
      CompletesIn .rdstatus s n { s.ranReceived n [b] with res := b.setWidth 16 }) ∧
    (3 ≤ s.aLen → n = statusCycles s.cfg + addrCycles s.cfg 3 → s.ReadyFor n →
      b = s.sample (cmdCycles s.cfg + addrCycles s.cfg 3 + s.cfg.tWhr + 4 + s.cfg.tSample) →
      CompletesIn .rdstatuse s n { s.ranReceived n [b] with res := b.setWidth 16 })

/-- BUSY=0, ALEN at least 5, a ready device for 1 + 2(5 + T_SETUP + T_HOLD) + the cycles of a 5-byte sendAddress +
T_WB + 1 quiet cycles: rdpage completes with lines at idle (WP as it was), RXLEN 0, DONE set, everything else as
acceptance and the clock leave it. (R190, R257.) -/
def Obligations.RdpageResult : Prop :=
  ∀ (s : State) (n : Nat), s.busy = false → 5 ≤ s.aLen →
    n = 1 + 2 * cmdCycles s.cfg + addrCycles s.cfg 5 + s.cfg.tWb + 1 → s.ReadyFor n →
    CompletesIn .rdpage s n (s.ranIdle n)

/-- BUSY=0 and the cycles of the operation quiet: chgrdcol (ALEN at least 2) in T_RTC + 2 commands + a 2-byte address
+ T_CCS; chgwrcol (ALEN at least 2) in T_WW + command + a 2-byte address + T_CCS; chgrow (ALEN at least 5) in T_WW +
command + a 5-byte address + T_ROW. No ready wait. The delays of the last two are decision D23 of the spec (log 16).
(R191, R192, R193, D23, R257.) -/
def Obligations.ChangeResult : Prop :=
  ∀ (s : State) (n : Nat), s.busy = false → s.QuietFor n →
    (2 ≤ s.aLen → n = s.cfg.tRtc + 2 * cmdCycles s.cfg + addrCycles s.cfg 2 + s.cfg.tCcs →
      CompletesIn .chgrdcol s n (s.ranIdle n)) ∧
    (2 ≤ s.aLen → n = s.cfg.tWw + cmdCycles s.cfg + addrCycles s.cfg 2 + s.cfg.tCcs →
      CompletesIn .chgwrcol s n (s.ranIdle n)) ∧
    (5 ≤ s.aLen → n = s.cfg.tWw + cmdCycles s.cfg + addrCycles s.cfg 5 + s.cfg.tRow →
      CompletesIn .chgrow s n (s.ranIdle n))

/-- BUSY=0, RX_DEPTH at least 32, ALEN at least 5, a ready device for the cycles of the page and the readStatus after
it: progpage completes with RXBUF = [b], RES = b, FAIL = b[0], where b is the byte on the data pins at its CAP;
DIR[7:0] = 0xFF, lines at idle (WP as it was), DONE set, everything else as acceptance and the clock leave it. (R194,
R199, R216, R257.) -/
def Obligations.ProgpageResult : Prop :=
  ∀ (s : State) (o n : Nat) (b : Byte), s.busy = false → 32 ≤ s.cfg.rxDepth → 5 ≤ s.aLen →
    o = programCycles s.cfg s.txLen → n = o + statusCycles s.cfg → s.ReadyFor n →
    b = s.sample (o + cmdCycles s.cfg + s.cfg.tWhr + 4 + s.cfg.tSample) →
    CompletesIn .progpage s n { s.ranReceived n [b] with res := b.setWidth 16, fail := b.getLsbD 0 }

/-- BUSY=0, RX_DEPTH at least 32, 1 <= PAGES <= MAX_PAGES, ALEN at least 5 PAGES, a ready device for PAGES times the
cycles of a page and one readStatus: progcache completes as progpage does. (R195, R199, R216, R257.) -/
def Obligations.ProgcacheResult : Prop :=
  ∀ (s : State) (o n : Nat) (b : Byte), s.busy = false → 32 ≤ s.cfg.rxDepth → 1 ≤ s.pages.toNat →
    s.pages.toNat ≤ s.cfg.maxPages → 5 * s.pages.toNat ≤ s.aLen →
    o = s.pages.toNat * programCycles s.cfg s.txLen → n = o + statusCycles s.cfg → s.ReadyFor n →
    b = s.sample (o + cmdCycles s.cfg + s.cfg.tWhr + 4 + s.cfg.tSample) →
    CompletesIn .progcache s n { s.ranReceived n [b] with res := b.setWidth 16, fail := b.getLsbD 0 }

/-- BUSY=0, RX_DEPTH at least 32, ALEN at least 3, a ready device for the cycles of the operation: erase completes as
progpage does. (R196, R199, R216, R257.) -/
def Obligations.EraseResult : Prop :=
  ∀ (s : State) (o n : Nat) (b : Byte), s.busy = false → 32 ≤ s.cfg.rxDepth → 3 ≤ s.aLen →
    o = 1 + 2 * cmdCycles s.cfg + addrCycles s.cfg 3 + s.cfg.tWb + 1 → n = o + statusCycles s.cfg → s.ReadyFor n →
    b = s.sample (o + cmdCycles s.cfg + s.cfg.tWhr + 4 + s.cfg.tSample) →
    CompletesIn .erase s n { s.ranReceived n [b] with res := b.setWidth 16, fail := b.getLsbD 0 }

/-- BUSY=0, ALEN at least 3, LEN * PE_ITER_CYCLES below 2^DLY_W, a ready device for 1 + 3 commands + a 3-byte address
+ LEN * PE_ITER_CYCLES + T_WB + 1 quiet cycles: perase completes after exactly these with lines at idle (WP as it
was), DONE set, no status read, everything else as acceptance and the clock leave it. With DIR = 0x3FFF, from any
lines: the latching edge of 0xD0 ends cycle 1 + command + address + 2 + T_SETUP, and that of 0xFF comes T_HOLD + 2 +
LEN * PE_ITER_CYCLES + 2 + T_SETUP + 1 cycles after it. (R197, R136, R257.) -/
def Obligations.PeraseResult : Prop :=
  ∀ (s : State) (n o : Nat), s.busy = false → 3 ≤ s.aLen → s.len.toNat * s.cfg.peIterCycles < 2 ^ s.cfg.dlyW →
    n = 1 + 3 * cmdCycles s.cfg + addrCycles s.cfg 3 + s.len.toNat * s.cfg.peIterCycles + s.cfg.tWb + 1 →
    o = 1 + cmdCycles s.cfg + addrCycles s.cfg 3 + 2 + s.cfg.tSetup → s.ReadyFor n →
    CompletesIn .perase s n (s.ranIdle n) ∧
    (s.dir = 0x3FFF#15 → ∃ t, exec .perase s = .next t ∧ t.edgeAt o = some (.command 0xD0#8) ∧
      t.edgeAt (o + (s.cfg.tHold + 2 + s.len.toNat * s.cfg.peIterCycles + 2 + s.cfg.tSetup + 1)) =
        some (.command 0xFF#8))

/-- BUSY=0, ALEN at least 5, 1 <= PAGES <= MAX_PAGES, PAGES * PAGE_SIZE at most RX_DEPTH, a ready device for the
cycles of readPage, PAGES-1 cache-next pages and the last one: rdcacheseq completes with RXBUF = the bytes of every
page on the data pins at their CAPs, in order; lines at idle (WP as it was), DIR[7:0] = 0xFF, DONE set, everything
else as acceptance and the clock leave it. (R198, R140, R257.) -/
def Obligations.RdcacheseqResult : Prop :=
  ∀ (s : State) (rp pg n : Nat), s.busy = false → 5 ≤ s.aLen → 1 ≤ s.pages.toNat → s.pages.toNat ≤ s.cfg.maxPages →
    s.pages.toNat * s.cfg.pageSize ≤ s.cfg.rxDepth →
    rp = 1 + 2 * cmdCycles s.cfg + addrCycles s.cfg 5 + s.cfg.tWb + 1 →
    pg = cmdCycles s.cfg + s.cfg.tWb + 1 + recvCycles s.cfg s.cfg.pageSize →
    n = rp + (s.pages.toNat - 1) * pg + cmdCycles s.cfg + recvCycles s.cfg s.cfg.pageSize → s.ReadyFor n →
    CompletesIn .rdcacheseq s n (s.ranReceived n
      ((List.range (s.pages.toNat - 1)).flatMap
          (fun j => s.samples (rp + j * pg + cmdCycles s.cfg + s.cfg.tWb + 1) s.cfg.pageSize) ++
        s.samples (rp + (s.pages.toNat - 1) * pg + cmdCycles s.cfg) s.cfg.pageSize))

/-! ### What the device sees -/

/-- BUSY=0, DIR = 0x3FFF. While it runs the device sees an initial part of, and by its end all of: sendcmd b: the
command cycle b; sendaddr n: the address cycles of ABUF[0..n); senddata: the data-out cycles of TXBUF; recvdata (RE
high at entry): LEN data-in cycles; a wire command of byte b: the command cycle b; waitrdy and wait: none. This holds
for every rb, every level and every host access short of a reset. That a command byte alone is started as SENDCMD is
the model's choice (log 8); bus cycles are counted as logs 20 (DEDUCED) and 21 (DESIGN CHOICE) say. (R87, R88, R89,
R91, R136, R137, R138, R139, R157, R125.) -/
def Obligations.PhaseOpsShow : Prop :=
  ∀ s : State, s.busy = false → s.dir = 0x3FFF#15 →
    (∀ b : Byte, Shows (.sendcmd b) s [.command b]) ∧
    (∀ (i : Instr) (b : Byte), decode (.wire b) = .ok i → Shows i s [.command b]) ∧
    (∀ n : BitVec 3, n.toNat ≤ 5 → n.toNat ≤ s.aLen →
      Shows (.sendaddr n) s (addressCycles (s.abuf.take n.toNat))) ∧
    Shows .senddata s (dataOutCycles s.txbuf) ∧
    (s.len.toNat ≤ s.cfg.rxDepth → s.busOut.getLsbD 13 = true → Shows .recvdata s (dataInCycles s.len.toNat)) ∧
    Shows .waitrdy s [] ∧
    ∀ sel : BitVec 4, sel.toNat ≤ 11 → Shows (.wait sel) s []

/-- BUSY=0: init shows the command cycle 0xFF, from any BUS_OUT and DIR. With DIR = 0x3FFF reset shows 0xFF, and
resetlun with ALEN at least 3 shows 0xFA and the three address cycles of ABUF[0..3). With no reset and a ready device
the pins after each cycle are, for init from any pins: IDLE with DIR as it was, then driven idle lines for 1 + T_POR +
1 cycles, then those of reset; from idle lines (WP at either level), for reset: the command trace of 0xFF and idle for
T_WB + 1; for resetlun: the traces of 0xFA and of the address, and idle for T_WB + 1. Bus cycles are counted as logs
20 (DEDUCED) and 21 (DESIGN CHOICE) say. (R165, R166, R167, R87.) -/
def Obligations.LifecycleShow : Prop :=
  ∀ s : State, s.busy = false →
    (Shows .init s [.command 0xFF#8] ∧
      DrawsReady .init s ([{ out := lineWord s.cfg.wpIdle 0x3300#14 s.cfg.dataIdle, dir := s.dir }] ++
        holdTrace s.cfg s.cfg.wpIdle (1 + s.cfg.tPor + 1) ++ resetTrace s.cfg s.cfg.wpIdle)) ∧
    (s.dir = 0x3FFF#15 → Shows .reset s [.command 0xFF#8] ∧
      (3 ≤ s.aLen → Shows .resetlun s ([.command 0xFA#8] ++ addressCycles (s.abuf.take 3)))) ∧
    ∀ wp, s.IdleLines wp → DrawsReady .reset s (resetTrace s.cfg wp) ∧
      (3 ≤ s.aLen → DrawsReady .resetlun s (commandTrace s.cfg wp 0xFA#8 ++ addressTrace s.cfg wp (s.abuf.take 3) ++
        holdTrace s.cfg wp (s.cfg.tWb + 1)))

/-- BUSY=0, DIR = 0x3FFF: rdmfid, rdonfiid, rdjedecid show 0x90, the address 0x00, 0x20 or 0x40, and 8, 4 or 5 data-in
cycles; rduid shows 0xED, address 0x00 and 32 data-in cycles; rdstatus shows 0x70 and one data-in cycle; rdstatuse
with ALEN at least 3 shows 0x78, the address cycles of ABUF[0..3) and one data-in cycle. From idle lines (WP at either
level), RX_DEPTH at least 32, no reset and a ready device, the pins after each cycle are those of the phases in order
with idle lines between them: a POLL before 0x90 and T_ADL before its data; T_WB + T_AR + T_ROW and a POLL before
rduid's data; T_WHR before a status byte. That 0x78 and the address take the place of 0x70 is the reading R181 takes
(log 13); bus cycles are counted as logs 20 (DEDUCED) and 21 (DESIGN CHOICE) say. (R175, R176, R177, R178, R180, R181,
R87.) -/
def Obligations.IdentStatusShow : Prop :=
  ∀ s : State, s.busy = false →
    (s.dir = 0x3FFF#15 →
      Shows .rdmfid s ([.command 0x90#8, .address 0x00#8] ++ dataInCycles 8) ∧
      Shows .rdonfiid s ([.command 0x90#8, .address 0x20#8] ++ dataInCycles 4) ∧
      Shows .rdjedecid s ([.command 0x90#8, .address 0x40#8] ++ dataInCycles 5) ∧
      Shows .rduid s ([.command 0xED#8, .address 0x00#8] ++ dataInCycles 32) ∧
      Shows .rdstatus s [.command 0x70#8, .dataIn] ∧
      (3 ≤ s.aLen → Shows .rdstatuse s ([.command 0x78#8] ++ addressCycles (s.abuf.take 3) ++ [.dataIn]))) ∧
    ∀ wp, s.IdleLines wp → 32 ≤ s.cfg.rxDepth →
      DrawsReady .rdmfid s (idTrace s.cfg wp 0x00#8 8) ∧ DrawsReady .rdonfiid s (idTrace s.cfg wp 0x20#8 4) ∧
      DrawsReady .rdjedecid s (idTrace s.cfg wp 0x40#8 5) ∧
      DrawsReady .rduid s (commandTrace s.cfg wp 0xED#8 ++ addressTrace s.cfg wp [0x00#8] ++
        holdTrace s.cfg wp (s.cfg.tWb + s.cfg.tAr + s.cfg.tRow + 1) ++ receiveTrace s.cfg wp 32) ∧
      DrawsReady .rdstatus s (statusTrace s.cfg wp) ∧
      (3 ≤ s.aLen → DrawsReady .rdstatuse s (commandTrace s.cfg wp 0x78#8 ++ addressTrace s.cfg wp (s.abuf.take 3) ++
        holdTrace s.cfg wp s.cfg.tWhr ++ receiveTrace s.cfg wp 1))

/-- BUSY=0, DIR = 0x3FFF, operands in the domain: rdpage shows 0x00, the five address bytes, 0x30; chgrdcol shows
0x05, the two address bytes, 0xE0; rdcacheseq shows the readPage, then PAGES-1 times 0x31 with PAGE_SIZE data-in
cycles, then 0x3F with PAGE_SIZE data-in cycles. From idle lines (WP at either level), no reset (and, but for
chgrdcol, a ready device), the pins after each cycle are those of the phases in order with idle lines between them: a
POLL before 0x00, T_WB and a POLL after 0x30 and 0x31, no wait between 0x3F and its data, T_RTC before 0x05 and T_CCS
after 0xE0. Bus cycles are counted as logs 20 (DEDUCED) and 21 (DESIGN CHOICE) say. (R190, R191, R198, R87, R91.) -/
def Obligations.ReadsShow : Prop :=
  ∀ s : State, s.busy = false →
    (s.dir = 0x3FFF#15 →
      (5 ≤ s.aLen → Shows .rdpage s ([.command 0x00#8] ++ addressCycles (s.abuf.take 5) ++ [.command 0x30#8])) ∧
      (2 ≤ s.aLen → Shows .chgrdcol s ([.command 0x05#8] ++ addressCycles (s.abuf.take 2) ++ [.command 0xE0#8])) ∧
      (5 ≤ s.aLen → 1 ≤ s.pages.toNat → s.pages.toNat ≤ s.cfg.maxPages →
        s.pages.toNat * s.cfg.pageSize ≤ s.cfg.rxDepth →
        Shows .rdcacheseq s ([.command 0x00#8] ++ addressCycles (s.abuf.take 5) ++ [.command 0x30#8] ++
          (List.replicate (s.pages.toNat - 1) ([.command 0x31#8] ++ dataInCycles s.cfg.pageSize)).flatten ++
          [.command 0x3F#8] ++ dataInCycles s.cfg.pageSize))) ∧
    ∀ wp, s.IdleLines wp →
      (5 ≤ s.aLen → DrawsReady .rdpage s (readPageTrace s.cfg wp (s.abuf.take 5))) ∧
      (2 ≤ s.aLen → Draws .chgrdcol s (holdTrace s.cfg wp s.cfg.tRtc ++ commandTrace s.cfg wp 0x05#8 ++
        addressTrace s.cfg wp (s.abuf.take 2) ++ commandTrace s.cfg wp 0xE0#8 ++ holdTrace s.cfg wp s.cfg.tCcs)) ∧
      (5 ≤ s.aLen → 1 ≤ s.pages.toNat → s.pages.toNat ≤ s.cfg.maxPages →
        s.pages.toNat * s.cfg.pageSize ≤ s.cfg.rxDepth →
        DrawsReady .rdcacheseq s (readPageTrace s.cfg wp (s.abuf.take 5) ++
          (List.replicate (s.pages.toNat - 1) (commandTrace s.cfg wp 0x31#8 ++ holdTrace s.cfg wp (s.cfg.tWb + 1) ++
            receiveTrace s.cfg wp s.cfg.pageSize)).flatten ++
          commandTrace s.cfg wp 0x3F#8 ++ receiveTrace s.cfg wp s.cfg.pageSize))

/-- BUSY=0, DIR = 0x3FFF, operands in the domain: progpage shows 0x80, address, the data-out cycles of TXBUF, 0x10,
0x70, one data-in; progcache shows that for each page with its own five address bytes and the same data, confirmed by
0x15 but for the last, then one status read; erase shows 0x60, three address bytes, 0xD0, 0x70, one data-in; perase
ends with 0xFF instead of the status read; chgwrcol and chgrow show 0x85 and two or five address bytes. From idle
lines (WP at either level), no reset (and, but for chgwrcol and chgrow, a ready device; RX_DEPTH at least 32 with a
status read), the pins after each cycle are those of the phases in order with idle lines between them: T_ADL before a
page's data, T_WB and a POLL after 0x10, 0x15 and erase's 0xD0, T_WHR before the status byte, a POLL before 0x60, LEN
* PE_ITER_CYCLES between perase's 0xD0 and 0xFF, T_WW before 0x85 and T_CCS or T_ROW (D23, log 16) after its address.
Bus cycles are counted as logs 20 (DEDUCED) and 21 (DESIGN CHOICE) say. (D23, R192, R193, R194, R195, R196, R197, R87,
R91.) -/
def Obligations.ProgramsEraseShow : Prop :=
  ∀ s : State, s.busy = false →
    (s.dir = 0x3FFF#15 →
      (5 ≤ s.aLen → Shows .progpage s ([.command 0x80#8] ++ addressCycles (s.abuf.take 5) ++ dataOutCycles s.txbuf ++
        [.command 0x10#8] ++ [.command 0x70#8, .dataIn])) ∧
      (1 ≤ s.pages.toNat → s.pages.toNat ≤ s.cfg.maxPages → 5 * s.pages.toNat ≤ s.aLen →
        Shows .progcache s ((List.range (s.pages.toNat - 1)).flatMap (fun p =>
            [.command 0x80#8] ++ addressCycles ((s.abuf.drop (5 * p)).take 5) ++ dataOutCycles s.txbuf ++
              [.command 0x15#8]) ++
          ([.command 0x80#8] ++ addressCycles ((s.abuf.drop (5 * (s.pages.toNat - 1))).take 5) ++
            dataOutCycles s.txbuf ++ [.command 0x10#8]) ++ [.command 0x70#8, .dataIn])) ∧
      (3 ≤ s.aLen → Shows .erase s ([.command 0x60#8] ++ addressCycles (s.abuf.take 3) ++ [.command 0xD0#8] ++
        [.command 0x70#8, .dataIn])) ∧
      (3 ≤ s.aLen → s.len.toNat * s.cfg.peIterCycles < 2 ^ s.cfg.dlyW →
        Shows .perase s ([.command 0x60#8] ++ addressCycles (s.abuf.take 3) ++ [.command 0xD0#8, .command 0xFF#8])) ∧
      (2 ≤ s.aLen → Shows .chgwrcol s ([.command 0x85#8] ++ addressCycles (s.abuf.take 2))) ∧
      (5 ≤ s.aLen → Shows .chgrow s ([.command 0x85#8] ++ addressCycles (s.abuf.take 5)))) ∧
    ∀ wp, s.IdleLines wp →
      (5 ≤ s.aLen → 32 ≤ s.cfg.rxDepth → DrawsReady .progpage s
        (programTrace s.cfg wp (s.abuf.take 5) s.txbuf 0x10#8 ++ statusTrace s.cfg wp)) ∧
      (1 ≤ s.pages.toNat → s.pages.toNat ≤ s.cfg.maxPages → 5 * s.pages.toNat ≤ s.aLen → 32 ≤ s.cfg.rxDepth →
        DrawsReady .progcache s ((List.range (s.pages.toNat - 1)).flatMap (fun p =>
            programTrace s.cfg wp ((s.abuf.drop (5 * p)).take 5) s.txbuf 0x15#8) ++
          programTrace s.cfg wp ((s.abuf.drop (5 * (s.pages.toNat - 1))).take 5) s.txbuf 0x10#8 ++
          statusTrace s.cfg wp)) ∧
      (3 ≤ s.aLen → 32 ≤ s.cfg.rxDepth → DrawsReady .erase s
        (eraseTrace s.cfg wp (s.abuf.take 3) ++ holdTrace s.cfg wp (s.cfg.tWb + 1) ++ statusTrace s.cfg wp)) ∧
      (3 ≤ s.aLen → s.len.toNat * s.cfg.peIterCycles < 2 ^ s.cfg.dlyW → DrawsReady .perase s
        (eraseTrace s.cfg wp (s.abuf.take 3) ++ holdTrace s.cfg wp (s.len.toNat * s.cfg.peIterCycles) ++
          resetTrace s.cfg wp)) ∧
      (2 ≤ s.aLen → Draws .chgwrcol s (holdTrace s.cfg wp s.cfg.tWw ++ commandTrace s.cfg wp 0x85#8 ++
        addressTrace s.cfg wp (s.abuf.take 2) ++ holdTrace s.cfg wp s.cfg.tCcs)) ∧
      (5 ≤ s.aLen → Draws .chgrow s (holdTrace s.cfg wp s.cfg.tWw ++ commandTrace s.cfg wp 0x85#8 ++
        addressTrace s.cfg wp (s.abuf.take 5) ++ holdTrace s.cfg wp s.cfg.tRow))

/-- BUSY=0, DIR = 0x3FFF, a 16-bit column c and a 24-bit row r: with ABUF = address5(c, r), col2(c) or row3(r), the
device sees of rdpage, chgrdcol and resetlun the address cycles c[7:0], c[15:8], r[7:0], r[15:8], r[23:16], in that
order, for the parts that the address has. A latching edge is a rise of WE with CE low (R68(b)); in these runs every
one has DIR = 0x3FFF and one of CLE and ALE. (R64.) -/
def Obligations.AddressOrder : Prop :=
  ∀ (s : State) (c : BitVec 16) (r : BitVec 24), s.busy = false → s.dir = 0x3FFF#15 →
    (s.abuf = address5 c r → Shows .rdpage s [.command 0x00#8, .address (c.extractLsb' 0 8),
      .address (c.extractLsb' 8 8), .address (r.extractLsb' 0 8), .address (r.extractLsb' 8 8),
      .address (r.extractLsb' 16 8), .command 0x30#8]) ∧
    (s.abuf = col2 c → Shows .chgrdcol s [.command 0x05#8, .address (c.extractLsb' 0 8),
      .address (c.extractLsb' 8 8), .command 0xE0#8]) ∧
    (s.abuf = row3 r → Shows .resetlun s [.command 0xFA#8, .address (r.extractLsb' 0 8),
      .address (r.extractLsb' 8 8), .address (r.extractLsb' 16 8)])

/-- BUSY=0, BUS_OUT = 0x3300, DIR = 0x3FFF, quiet cycles: in cycle k of sendcmd b, DIR is unchanged and BUS_OUT is
0x3300 for k = 0, 0x2900 for k = 1, 0x2900 + b up to k = 2 + T_SETUP, 0x2B00 + b up to k = 3 + T_SETUP + T_HOLD, and
0x2300 + b in the last. From idle lines with WP at either level and any DATA_IDLE, no reset: the pins after each cycle
of sendcmd b (and of a wire command, started as SENDCMD: log 8), sendaddr n, senddata and, on a ready device, recvdata
are those of the tables of R136 to R139: T_HOLD before each fall of WE and T_SETUP before each rise, no hold after the
last byte, T_SAMPLE before each CAP and T_HOLD after each rise of RE; and the operation ends with the last of them.
(R136, R137, R138, R139, R250.) -/
def Obligations.CommandLines : Prop :=
  (∀ (s t : State) (b : Byte) (k : Nat) (u : State), s.busy = false → s.busOut = 0x3300#14 → s.dir = 0x3FFF#15 →
    s.QuietFor (cmdCycles s.cfg) → exec (.sendcmd b) s = .next t → k < cmdCycles s.cfg → runSteps k t = .next u →
    u.dir = s.dir ∧
    u.busOut = if k = 0 then 0x3300#14 else if k = 1 then 0x2900#14
      else if k ≤ 2 + s.cfg.tSetup then 0x2900#14 + b.setWidth 14
      else if k ≤ 3 + s.cfg.tSetup + s.cfg.tHold then 0x2B00#14 + b.setWidth 14
      else 0x2300#14 + b.setWidth 14) ∧
  ∀ (s : State) (wp : Bool), s.busy = false → s.IdleLines wp →
    (∀ b, Draws (.sendcmd b) s (commandTrace s.cfg wp b)) ∧
    (∀ (i : Instr) (b : Byte), decode (.wire b) = .ok i → Draws i s (commandTrace s.cfg wp b)) ∧
    (∀ n : BitVec 3, n.toNat ≤ 5 → n.toNat ≤ s.aLen →
      Draws (.sendaddr n) s (addressTrace s.cfg wp (s.abuf.take n.toNat))) ∧
    Draws .senddata s (dataTrace s.cfg wp s.txbuf) ∧
    (s.len.toNat ≤ s.cfg.rxDepth → DrawsReady .recvdata s (receiveTrace s.cfg wp s.len.toNat))

/-! ### Micro-operations -/

/-- A quiet cycle in which the current micro-operation is LINES(mask, val) and another that takes a cycle follows:
BUS_OUT becomes (BUS_OUT and not mask) or (val and mask), PHASE takes the update the micro-operation carries, if any,
the sequencer is at the next micro-operation, the clock and the synchroniser move on, and everything else is as
before. The next micro-operation is the next that takes a cycle: a DLY(0) between is passed over (R126). That DLYCNT
is k already in the first cycle of a following DLY(k) is the model's reading (log 6), that PHASE is written at this
edge too (log 12). A LINES that ends a sequence is in the results of the operations that end with one (SetlineResult,
WrdataResult, SendcmdResult). (R112, R126.) -/
def Obligations.LinesCycle : Prop :=
  ∀ (s : State) (c : CurOp) (mask val : Latch) (q : Option Phase) (j : Nat) (next : MicroStep), s.QuietFor 1 →
    s.cur = some c → c.seq[s.seqPc]? = some { op := .lines mask val, phase := q } → NextAt c.seq s.seqPc j next →
    step s = .next { s with
      busOut := (s.busOut &&& ~~~mask) ||| (val &&& mask)
      phase := q.getD s.phase
      seqPc := j
      dlyCnt := match next.op with | .dly k => k | _ => 0
      pollSt := if next.op = .poll then .wait else .idle
      rbSync := syncAfter s.rbSync (s.inputs.take 1)
      inputs := s.inputs.drop 1
      cycle := s.cycle + 1 }

/-- A quiet cycle in which the current micro-operation is DIRD(Output), DIRD(Input) or DIRALL(v) and another that
takes a cycle follows: DIR becomes DIR or 0x00FF, DIR and 0x7F00, or v with bit 14 = 0; PHASE takes the update it
carries, if any, the sequencer is at the next micro-operation, the clock and the synchroniser move on, everything else
is as before. The next micro-operation is the next that takes a cycle: a DLY(0) between is passed over (R126). That
DLYCNT is k already in the first cycle of a following DLY(k) is the model's reading (log 6), that PHASE is written at
this edge too (log 12). A DIRD that ends a sequence is in SetdirResult. (R113, R114, R24, R126.) -/
def Obligations.DirectionCycle : Prop :=
  ∀ (s : State) (c : CurOp) (op : MicroOp) (d : Lines15) (q : Option Phase) (j : Nat) (next : MicroStep),
    s.QuietFor 1 → s.cur = some c → c.seq[s.seqPc]? = some { op := op, phase := q } → NextAt c.seq s.seqPc j next →
    (op = .dirD .output ∧ d = s.dir ||| 0x00FF#15) ∨ (op = .dirD .input ∧ d = s.dir &&& 0x7F00#15) ∨
      (∃ v : Latch, op = .dirAll v ∧ d = 0#1 ++ v) →
    step s = .next { s with
      dir := d
      phase := q.getD s.phase
      seqPc := j
      dlyCnt := match next.op with | .dly k => k | _ => 0
      pollSt := if next.op = .poll then .wait else .idle
      rbSync := syncAfter s.rbSync (s.inputs.take 1)
      inputs := s.inputs.drop 1
      cycle := s.cycle + 1 }

/-- A quiet cycle in which the current micro-operation is CAP, RXBUF has room and another micro-operation that takes a
cycle follows: RXBUF grows by the byte whose bit i is BUS_OUT[i] where DIR[i]=1 and else the level outside at the
edge; PHASE takes the update it carries, if any, the sequencer is at the next micro-operation, the clock and the
synchroniser move on, everything else is as before. The next micro-operation is the next that takes a cycle: a DLY(0)
between is passed over (R126). That DLYCNT is k already in the first cycle of a following DLY(k) is the model's
reading (log 6), that PHASE is written at this edge too (log 12). (R140, R25, R126.) -/
def Obligations.CaptureCycle : Prop :=
  ∀ (s : State) (c : CurOp) (q : Option Phase) (j : Nat) (next : MicroStep) (b : Byte), s.QuietFor 1 →
    s.cur = some c → c.seq[s.seqPc]? = some { op := .cap, phase := q } → NextAt c.seq s.seqPc j next →
    s.rxbuf.length < s.cfg.rxDepth →
    (∀ i, i < 8 → b.getLsbD i = if s.dir.getLsbD i then s.busOut.getLsbD i
      else (s.inputs.getD 0 default).levels.getLsbD i) →
    step s = .next { s with
      rxbuf := s.rxbuf ++ [b]
      phase := q.getD s.phase
      seqPc := j
      dlyCnt := match next.op with | .dly k => k | _ => 0
      pollSt := if next.op = .poll then .wait else .idle
      rbSync := syncAfter s.rbSync (s.inputs.take 1)
      inputs := s.inputs.drop 1
      cycle := s.cycle + 1 }

/-- k quiet cycles from the start of a DLY(k), k > 0, followed by a micro-operation that takes a cycle: after j < k
cycles only DLYCNT = k - j, the clock and the synchroniser have changed; after k the sequencer is at the next
micro-operation that takes a cycle. That DLYCNT holds k in the first cycle, here and in a following DLY(k), is the
model's reading (log 6). (R126, R34.) -/
def Obligations.DelayExact : Prop :=
  ∀ (s : State) (c : CurOp) (k j : Nat) (next : MicroStep), s.QuietFor k → s.cur = some c → 0 < k →
    c.seq[s.seqPc]? = some { op := .dly k, phase := none } → s.dlyCnt = k → NextAt c.seq s.seqPc j next →
    (∀ i, i < k → runSteps i s = .next { s with
      dlyCnt := k - i
      rbSync := syncAfter s.rbSync (s.inputs.take i)
      inputs := s.inputs.drop i
      cycle := s.cycle + i }) ∧
    runSteps k s = .next { s with
      seqPc := j
      dlyCnt := match next.op with | .dly k => k | _ => 0
      pollSt := if next.op = .poll then .wait else .idle
      rbSync := syncAfter s.rbSync (s.inputs.take k)
      inputs := s.inputs.drop k
      cycle := s.cycle + k }

/-- A quiet cycle in which the current micro-operation is POLL and one that takes a cycle follows: in every state of
the invariant POLLST is PollWait; with RB_S = 0 and DLYCNT = 0 (as in every state of the invariant) only the clock and
the synchroniser move; with RB_S = 1 the next micro-operation starts, POLLST is that of the next micro-operation
(PollIdle unless it is a POLL), and everything else is as before. The next micro-operation is the next that takes a
cycle: a DLY(0) between is passed over (R126). That DLYCNT is k already in the first cycle of a following DLY(k) is
the model's reading (log 6). (R156, R33, R126.) -/
def Obligations.PollCycle : Prop :=
  ∀ (s : State) (c : CurOp) (j : Nat) (next : MicroStep), s.QuietFor 1 → s.cur = some c →
    c.seq[s.seqPc]? = some { op := .poll, phase := none } → NextAt c.seq s.seqPc j next →
    (s.Inv → s.pollSt = .wait) ∧
    (s.rbS = false → s.dlyCnt = 0 → step s = .next { s with
      rbSync := syncAfter s.rbSync (s.inputs.take 1)
      inputs := s.inputs.drop 1
      cycle := s.cycle + 1 }) ∧
    (s.rbS = true → step s = .next { s with
      seqPc := j
      dlyCnt := match next.op with | .dly k => k | _ => 0
      pollSt := if next.op = .poll then .wait else .idle
      rbSync := syncAfter s.rbSync (s.inputs.take 1)
      inputs := s.inputs.drop 1
      cycle := s.cycle + 1 })

/-- In a state of the invariant, in a POLL, with the synchroniser all 0 and rb low in the next n cycles and no reset
in them: after n steps the state is the same but for OVERRUN, the value on the host port, the inputs used up and the
cycle count, whatever the host does. (R158.) -/
def Obligations.HangForever : Prop :=
  ∀ (n : Nat) (s : State) (c : CurOp) (q : Option Phase), s.Inv → s.NoResetFor n → s.cur = some c →
    c.seq[s.seqPc]? = some { op := .poll, phase := q } → (∀ b ∈ s.rbSync, b = false) →
    (∀ i ∈ s.inputs.take n, i.rb = false) →
    ∃ (o : Bool) (r : Word), runSteps n s = .next { s with
      overrun := o, rData := r, inputs := s.inputs.drop n, cycle := s.cycle + n }

/-! ### The host port -/

/-- A cycle without reset in which the host reads word a: the port gives OPW, STAT, RES, ALEN, 0, TXLEN, 0, LEN,
PAGES, the next byte of RXBUF (0 while BUSY=1 or when none is left), RXLEN, the pins, DIR, or 0 for offsets 0x34 to
0x3C; RXRD advances exactly when RXPOP gave a byte; with BUSY=1 the running operation takes its cycle as without the
read; everything else is as before. That the pins are taken at the edge that ends the cycle, and that the value stands
in a register of the port, are the model's reading and choice (logs 15 and 9). (R61, R62, R25.) -/
def Obligations.HostReads : Prop :=
  ∀ (s : State) (a : BitVec 4) (p : Lines15), s.input.rst = false → s.input.host = .read a →
    (∀ i, i < 15 → p.getLsbD i = if i = 14 then s.rbSync.getLastD false
      else if s.dir.getLsbD i then s.busOut.getLsbD i else s.input.levels.getLsbD i) →
    (s.busy = false →
      step s = .next (({ s with
        rData := [s.opw, s.stat, s.res.setWidth 32, BitVec.ofNat 32 s.abuf.length, 0#32, BitVec.ofNat 32 s.txbuf.length,
          0#32, s.len, s.pages.setWidth 32,
          if s.rxRd < s.rxbuf.length then (s.rxbuf.getD s.rxRd 0#8).setWidth 32 else 0#32,
          BitVec.ofNat 32 s.rxbuf.length, p.setWidth 32, s.dir.setWidth 32].getD a.toNat 0#32
        rxRd := if a = 9#4 ∧ s.rxRd < s.rxbuf.length then s.rxRd + 1 else s.rxRd } : State).tick s.input)) ∧
    (s.busy = true →
      step s = andThen (({ s with
        rData := [s.opw, s.stat, s.res.setWidth 32, BitVec.ofNat 32 s.abuf.length, 0#32, BitVec.ofNat 32 s.txbuf.length,
          0#32, s.len, s.pages.setWidth 32, 0#32, BitVec.ofNat 32 s.rxbuf.length, p.setWidth 32,
          s.dir.setWidth 32].getD a.toNat 0#32 } : State).seqCycle s.input.levels) fun t => .next (t.tick s.input))

/-- A cycle without reset in which the host writes w to word a, a not 0. BUSY=0: STAT clears OVERRUN with bit 5; APUSH
and TXPUSH append w[7:0] if there is room; ACLR and TXCLR empty; LEN and PAGES take w; RXLEN rewinds RXRD; every other
word nothing. BUSY=1: only STAT bit 5 acts, and the running operation takes its cycle as without the write. (R61, R62,
R38, R39.) -/
def Obligations.HostWrites : Prop :=
  ∀ (s : State) (a : BitVec 4) (w : Word), s.input.rst = false → s.input.host = .write a w → a ≠ 0#4 →
    (s.busy = true →
      step s = andThen (({ s with
        overrun := if a = 1#4 ∧ w.getLsbD 5 = true then false else s.overrun } : State).seqCycle s.input.levels)
        fun t => .next (t.tick s.input)) ∧
    (s.busy = false →
      step s = .next (([s,
        { s with overrun := if w.getLsbD 5 = true then false else s.overrun },
        s,
        if s.abuf.length < s.cfg.abufDepth then { s with abuf := s.abuf ++ [w.setWidth 8] } else s,
        { s with abuf := [] },
        if s.txbuf.length < s.cfg.txDepth then { s with txbuf := s.txbuf ++ [w.setWidth 8] } else s,
        { s with txbuf := [] },
        { s with len := w },
        { s with pages := w.setWidth 16 },
        s,
        { s with rxRd := 0 }].getD a.toNat s : State).tick s.input))

/-- In every state the 32 bits of STAT are BUSY, DONE, FAIL, UIDWARN, ILLOP, OVERRUN, BADARG, 0, PHASE in bits 10:8,
POLLING, RB_S, and zeros. In every state of the invariant STAT[6:0] without OVERRUN is one of the 13 codes listed,
0x01 whenever BUSY=1, and never shows FAIL with UIDWARN. (R43, R31, R221.) -/
def Obligations.StatusWord : Prop :=
  ∀ s : State,
    (∀ i, i < 32 → s.stat.getLsbD i =
      [s.cur.isSome, s.done, s.fail, s.uidWarn, s.illOp, s.overrun, s.badArg, false,
        decide (s.phase = .command ∨ s.phase = .dataOut), decide (s.phase = .address ∨ s.phase = .dataOut),
        decide (s.phase = .dataIn), decide (s.pollSt = .wait), s.rbSync.getLastD false].getD i false) ∧
    (s.Inv →
      s.stat.extractLsb' 0 7 &&& 0x5F#7 ∈ [0x00#7, 0x01#7, 0x02#7, 0x06#7, 0x0A#7, 0x10#7, 0x12#7, 0x16#7, 0x1A#7,
        0x40#7, 0x42#7, 0x46#7, 0x4A#7] ∧
      (s.stat.getLsbD 0 = true → s.stat.extractLsb' 0 7 &&& 0x5F#7 = 0x01#7) ∧
      ¬(s.stat.getLsbD 2 = true ∧ s.stat.getLsbD 3 = true))

/-- BUSY=0 and n quiet cycles: after n steps the state is the same but for the synchroniser, which has shifted in n
levels of rb, the inputs used up and the cycle count. (R21, R35, R242, R110.) -/
def Obligations.IdleHolds : Prop :=
  ∀ (n : Nat) (s : State), s.busy = false → s.QuietFor n →
    runSteps n s = .next { s with
      rbSync := syncAfter s.rbSync (s.inputs.take n)
      inputs := s.inputs.drop n
      cycle := s.cycle + n }

/-! ### Reset and the whole machine -/

/-- From every state, whatever runs, a step with rst = 1 answers a next state with BUS_OUT = IDLE, DIR = 0, PHASE
Idle, POLLST PollIdle, DLYCNT 0, RB_SYNC all 0, CUR_OP none, SEQ_PC 0, OPW 0, ALEN = TXLEN = RXLEN = RXRD = 0, LEN =
PAGES = 0, RES = 0, all STAT flags 0, and the configuration as it was (log 2). The state after reset holds the same,
with the default BUS_OUT = 0x3300 and two synchroniser stages. (R240, R46, R110.) -/
def Obligations.HardwareReset : Prop :=
  (∀ s : State, s.input.rst = true → ∃ t, step s = .next t ∧ t.cfg = s.cfg ∧
    t.busOut = 0x3200#14 ||| (if s.cfg.wpIdle then 0x0100#14 else 0#14) ||| s.cfg.dataIdle.setWidth 14 ∧
    t.dir = 0x0000#15 ∧ t.phase = .idle ∧ t.pollSt = .idle ∧ t.dlyCnt = 0 ∧
    t.rbSync = List.replicate s.cfg.rbSyncStages false ∧ t.cur = none ∧ t.seqPc = 0 ∧ t.opw = 0#32 ∧ t.aLen = 0 ∧
    t.txLen = 0 ∧ t.rxLen = 0 ∧ t.rxRd = 0 ∧ t.len = 0#32 ∧ t.pages = 0#16 ∧ t.res = 0#16 ∧ t.busy = false ∧
    t.done = false ∧ t.fail = false ∧ t.uidWarn = false ∧ t.illOp = false ∧ t.overrun = false ∧ t.badArg = false) ∧
  (State.reset.busOut = 0x3300#14 ∧ State.reset.dir = 0x0000#15 ∧ State.reset.phase = .idle ∧
    State.reset.pollSt = .idle ∧ State.reset.dlyCnt = 0 ∧ State.reset.rbSync = [false, false] ∧
    State.reset.cur = none ∧ State.reset.seqPc = 0 ∧ State.reset.opw = 0#32 ∧ State.reset.aLen = 0 ∧
    State.reset.txLen = 0 ∧ State.reset.rxLen = 0 ∧ State.reset.rxRd = 0 ∧ State.reset.len = 0#32 ∧
    State.reset.pages = 0#16 ∧ State.reset.res = 0#16 ∧ State.reset.resultCode = 0x00#7)

/-- State.reset meets the invariant: its configuration is valid (each OPEN delay is below 2^DLY_W, whatever it is),
DIR is one of the words R24 builds, the buffers are within their depths, the flags and RES are as the rules keep them,
and the sequencer is at rest. (R46, R6, R221.) -/
def Obligations.InvAtReset : Prop := State.reset.Inv

/-- From every state of the invariant, whatever the host and the device do, a step that answers a next state gives a
state of the invariant: a valid configuration, DIR one of the words R24 builds, the synchroniser of its length,
buffers within depth, RES[15:13] = 0, the flag exclusions; with no operation the sequencer at rest; with one, the
operands as latched, POLLST and DLYCNT those of the current micro-operation, the captures left fit RXBUF, and PHASE
goes through Idle and returns to it. (R24, R31, R32, R33, R34, R42, R43, R135, R140, R221, R223, R244.) -/
def Obligations.InvKept : Prop := ∀ s t : State, s.Inv → step s = .next t → t.Inv

/-- The block has no trap: from every state of the invariant a step answers a next state. In particular CAP never
finds RXBUF full. (R8, R224, R140, R96.) -/
def Obligations.NeverStops : Prop := ∀ s : State, s.Inv → ∃ t, step s = .next t

/-- BUSY=0 and ALE, CLE not both high: in every state of the run of any operation other than setline, up to its end,
whatever the device and the host do short of a reset, ALE and CLE are not both high. (R28, R141.) -/
def Obligations.LatchesStayApart : Prop :=
  ∀ (i : Instr) (s t : State) (n : Nat) (u : State), (∀ l v, i ≠ .setline l v) → s.busy = false →
    LatchesApart s.busOut → exec i s = .next t → t.NoResetFor n → runSteps n t = .next u →
    (∀ k, k < n → ∀ v, runSteps k t = .next v → v.busy = true) → LatchesApart u.busOut

/-- BUSY=0: throughout the run of any operation other than init, up to its end, whatever the device and the host do
short of a reset, DIR[14:8] is as before, and, unless the operation is setline 8, BUS_OUT[8] is as before. (R142,
R115, R165, R24.) -/
def Obligations.WriteProtectKept : Prop :=
  ∀ (i : Instr) (s t : State) (n : Nat) (u : State), i ≠ .init → s.busy = false →
    exec i s = .next t → t.NoResetFor n → runSteps n t = .next u →
    (∀ k, k < n → ∀ v, runSteps k t = .next v → v.busy = true) →
    u.dir.extractLsb' 8 7 = s.dir.extractLsb' 8 7 ∧
    ((∀ v, i ≠ .setline 8#4 v) → u.busOut.getLsbD 8 = s.busOut.getLsbD 8)

/-- From every state of the invariant, a step leaves PHASE as it was, or PHASE was Idle, or it is Idle. (R135, R31.)
-/
def Obligations.PhaseThroughIdle : Prop :=
  ∀ s t : State, s.Inv → step s = .next t → t.phase = s.phase ∨ s.phase = .idle ∨ t.phase = .idle

/-- With a synchroniser of S stages, S > 0, and n >= S steps without reset: RB_S after them is the rb level of input
number n - S, counting from 0: S - 1 before the last one used, which is number n - 1 (for S = 1 the last one itself),
whatever runs and whatever the host does. (R35, R155.) -/
def Obligations.SynchroniserLag : Prop :=
  ∀ (n : Nat) (s t : State), s.NoResetFor n → 0 < s.rbSync.length → s.rbSync.length ≤ n → runSteps n s = .next t →
    t.rbS = (s.inputs.getD (n - s.rbSync.length) default).rb

/-- For every step: the configuration is as before. If BUSY=1 and there is no reset, OPW, ABUF, TXBUF, LEN and PAGES
are as before, and CUR_OP is as before or the operation has ended with DONE = 1. (R244, R44, R62, R32.) -/
def Obligations.OperandsStable : Prop :=
  ∀ s t : State, step s = .next t →
    t.cfg = s.cfg ∧
    (s.busy = true → s.input.rst = false →
      t.opw = s.opw ∧ t.abuf = s.abuf ∧ t.txbuf = s.txbuf ∧ t.len = s.len ∧ t.pages = s.pages ∧
      (t.cur = s.cur ∨ (t.cur = none ∧ t.done = true)))

/-- For every step without reset: if BUS_OUT changes, an operation runs whose current micro-operation (past delays of
0) is a LINES(mask, val), and the change is its masked write; if DIR changes, that micro-operation is DIRD or DIRALL
and the change is its write. (R110, R21, R24, R112, R113, R114.) -/
def Obligations.PinsMoveOnlyBy : Prop :=
  ∀ s t : State, s.input.rst = false → step s = .next t →
    (t.busOut ≠ s.busOut → ∃ c n mask val q, s.cur = some c ∧ s.seqPc ≤ n ∧
      (∀ j, s.seqPc ≤ j → j < n → ∃ p, c.seq[j]? = some { op := .dly 0, phase := p }) ∧
      c.seq[n]? = some { op := .lines mask val, phase := q } ∧ t.busOut = (s.busOut &&& ~~~mask) ||| (val &&& mask)) ∧
    (t.dir ≠ s.dir → ∃ c n op q, s.cur = some c ∧ s.seqPc ≤ n ∧
      (∀ j, s.seqPc ≤ j → j < n → ∃ p, c.seq[j]? = some { op := .dly 0, phase := p }) ∧
      c.seq[n]? = some { op := op, phase := q } ∧
      ((op = .dirD .output ∧ t.dir = s.dir ||| 0x00FF#15) ∨ (op = .dirD .input ∧ t.dir = s.dir &&& 0x7F00#15) ∨
        ∃ v : Latch, op = .dirAll v ∧ t.dir = 0#1 ++ v))

/-- In a state of the invariant with an operation running, n = RB_SYNC_STAGES + 1 + the cycles of its micro-operations
from SEQ_PC on (1 for each POLL), no reset and rb high in the next n cycles: within n steps the operation has ended
with BUSY = 0 and DONE = 1, whatever the host does. (R257, R155, R156, R126.) -/
def Obligations.ReadyCompletes : Prop :=
  ∀ (s : State) (c : CurOp) (n : Nat), s.Inv → s.cur = some c →
    n = s.cfg.rbSyncStages + 1 + seqCost (c.seq.drop s.seqPc) → s.NoResetFor n → (∀ i ∈ s.inputs.take n, i.rb = true) →
    ∃ k t, k ≤ n ∧ runSteps k s = .next t ∧ t.busy = false ∧ t.done = true

/-- BUSY=0, PHASE Idle, DIR[7:0] = 0xFF: throughout the run of any operation other than setdir Input, up to its end,
whatever the device and the host do short of a reset, DIR[7:0] is 0xFF, or BUSY=1, PHASE = DataInPhase and DIR[7:0] is
0x00. Where PHASE = DataInPhase, DIR[7:0] is 0x00, or the current micro-operation is RESTORE_IDLE: the one cycle after
DIRD(Output), in which PHASE still reads DataInPhase by the model's reading of R31 (log 12). (R29, R139, R141.) -/
def Obligations.DataDirection : Prop :=
  ∀ (i : Instr) (s t : State) (n : Nat) (u : State), i ≠ .setdir .input → s.busy = false → s.phase = .idle →
    s.dir.setWidth 8 = 0xFF#8 → exec i s = .next t → t.NoResetFor n → runSteps n t = .next u →
    (∀ k, k < n → ∀ v, runSteps k t = .next v → v.busy = true) →
    (u.dir.setWidth 8 = 0xFF#8 ∨ (u.busy = true ∧ u.phase = .dataIn ∧ u.dir.setWidth 8 = 0x00#8)) ∧
    (u.phase = .dataIn → u.dir.setWidth 8 = 0x00#8 ∨
      ∃ c, u.cur = some c ∧ c.seq[u.seqPc]? = some (restoreIdle u.cfg))
end

