-- ==== Sys2Proof/Laws/State.lean ====
section
/-! SUPPORT. The small lemmas of the state's updates: for each update and each field, what the field is after it. Each
holds by definition, so that later proofs need not unfold a record update. -/

namespace Sys2Proof.Machine

/-! ### setLines -/

@[simp] theorem State.setLines_cfg (s : State) (mask val : Latch) : (s.setLines mask val).cfg = s.cfg := rfl
@[simp] theorem State.setLines_busOut (s : State) (mask val : Latch) : (s.setLines mask val).busOut = muxLines mask val s.busOut := rfl
@[simp] theorem State.setLines_dir (s : State) (mask val : Latch) : (s.setLines mask val).dir = s.dir := rfl
@[simp] theorem State.setLines_phase (s : State) (mask val : Latch) : (s.setLines mask val).phase = s.phase := rfl
@[simp] theorem State.setLines_cur (s : State) (mask val : Latch) : (s.setLines mask val).cur = s.cur := rfl
@[simp] theorem State.setLines_seqPc (s : State) (mask val : Latch) : (s.setLines mask val).seqPc = s.seqPc := rfl
@[simp] theorem State.setLines_pollSt (s : State) (mask val : Latch) : (s.setLines mask val).pollSt = s.pollSt := rfl
@[simp] theorem State.setLines_dlyCnt (s : State) (mask val : Latch) : (s.setLines mask val).dlyCnt = s.dlyCnt := rfl
@[simp] theorem State.setLines_rbSync (s : State) (mask val : Latch) : (s.setLines mask val).rbSync = s.rbSync := rfl
@[simp] theorem State.setLines_opw (s : State) (mask val : Latch) : (s.setLines mask val).opw = s.opw := rfl
@[simp] theorem State.setLines_abuf (s : State) (mask val : Latch) : (s.setLines mask val).abuf = s.abuf := rfl
@[simp] theorem State.setLines_txbuf (s : State) (mask val : Latch) : (s.setLines mask val).txbuf = s.txbuf := rfl
@[simp] theorem State.setLines_len (s : State) (mask val : Latch) : (s.setLines mask val).len = s.len := rfl
@[simp] theorem State.setLines_pages (s : State) (mask val : Latch) : (s.setLines mask val).pages = s.pages := rfl
@[simp] theorem State.setLines_rxbuf (s : State) (mask val : Latch) : (s.setLines mask val).rxbuf = s.rxbuf := rfl
@[simp] theorem State.setLines_rxRd (s : State) (mask val : Latch) : (s.setLines mask val).rxRd = s.rxRd := rfl
@[simp] theorem State.setLines_res (s : State) (mask val : Latch) : (s.setLines mask val).res = s.res := rfl
@[simp] theorem State.setLines_done (s : State) (mask val : Latch) : (s.setLines mask val).done = s.done := rfl
@[simp] theorem State.setLines_fail (s : State) (mask val : Latch) : (s.setLines mask val).fail = s.fail := rfl
@[simp] theorem State.setLines_uidWarn (s : State) (mask val : Latch) : (s.setLines mask val).uidWarn = s.uidWarn := rfl
@[simp] theorem State.setLines_illOp (s : State) (mask val : Latch) : (s.setLines mask val).illOp = s.illOp := rfl
@[simp] theorem State.setLines_overrun (s : State) (mask val : Latch) : (s.setLines mask val).overrun = s.overrun := rfl
@[simp] theorem State.setLines_badArg (s : State) (mask val : Latch) : (s.setLines mask val).badArg = s.badArg := rfl
@[simp] theorem State.setLines_rData (s : State) (mask val : Latch) : (s.setLines mask val).rData = s.rData := rfl
@[simp] theorem State.setLines_inputs (s : State) (mask val : Latch) : (s.setLines mask val).inputs = s.inputs := rfl
@[simp] theorem State.setLines_cycle (s : State) (mask val : Latch) : (s.setLines mask val).cycle = s.cycle := rfl
@[simp] theorem State.setLines_busy (s : State) (mask val : Latch) : (s.setLines mask val).busy = s.busy := rfl
@[simp] theorem State.setLines_rbS (s : State) (mask val : Latch) : (s.setLines mask val).rbS = s.rbS := rfl
@[simp] theorem State.setLines_aLen (s : State) (mask val : Latch) : (s.setLines mask val).aLen = s.aLen := rfl
@[simp] theorem State.setLines_txLen (s : State) (mask val : Latch) : (s.setLines mask val).txLen = s.txLen := rfl
@[simp] theorem State.setLines_rxLen (s : State) (mask val : Latch) : (s.setLines mask val).rxLen = s.rxLen := rfl

/-! ### setDataDir -/

@[simp] theorem State.setDataDir_cfg (s : State) (d : Direction) : (s.setDataDir d).cfg = s.cfg := rfl
@[simp] theorem State.setDataDir_busOut (s : State) (d : Direction) : (s.setDataDir d).busOut = s.busOut := rfl
@[simp] theorem State.setDataDir_dir (s : State) (d : Direction) : (s.setDataDir d).dir = dirWithData d s.dir := rfl
@[simp] theorem State.setDataDir_phase (s : State) (d : Direction) : (s.setDataDir d).phase = s.phase := rfl
@[simp] theorem State.setDataDir_cur (s : State) (d : Direction) : (s.setDataDir d).cur = s.cur := rfl
@[simp] theorem State.setDataDir_seqPc (s : State) (d : Direction) : (s.setDataDir d).seqPc = s.seqPc := rfl
@[simp] theorem State.setDataDir_pollSt (s : State) (d : Direction) : (s.setDataDir d).pollSt = s.pollSt := rfl
@[simp] theorem State.setDataDir_dlyCnt (s : State) (d : Direction) : (s.setDataDir d).dlyCnt = s.dlyCnt := rfl
@[simp] theorem State.setDataDir_rbSync (s : State) (d : Direction) : (s.setDataDir d).rbSync = s.rbSync := rfl
@[simp] theorem State.setDataDir_opw (s : State) (d : Direction) : (s.setDataDir d).opw = s.opw := rfl
@[simp] theorem State.setDataDir_abuf (s : State) (d : Direction) : (s.setDataDir d).abuf = s.abuf := rfl
@[simp] theorem State.setDataDir_txbuf (s : State) (d : Direction) : (s.setDataDir d).txbuf = s.txbuf := rfl
@[simp] theorem State.setDataDir_len (s : State) (d : Direction) : (s.setDataDir d).len = s.len := rfl
@[simp] theorem State.setDataDir_pages (s : State) (d : Direction) : (s.setDataDir d).pages = s.pages := rfl
@[simp] theorem State.setDataDir_rxbuf (s : State) (d : Direction) : (s.setDataDir d).rxbuf = s.rxbuf := rfl
@[simp] theorem State.setDataDir_rxRd (s : State) (d : Direction) : (s.setDataDir d).rxRd = s.rxRd := rfl
@[simp] theorem State.setDataDir_res (s : State) (d : Direction) : (s.setDataDir d).res = s.res := rfl
@[simp] theorem State.setDataDir_done (s : State) (d : Direction) : (s.setDataDir d).done = s.done := rfl
@[simp] theorem State.setDataDir_fail (s : State) (d : Direction) : (s.setDataDir d).fail = s.fail := rfl
@[simp] theorem State.setDataDir_uidWarn (s : State) (d : Direction) : (s.setDataDir d).uidWarn = s.uidWarn := rfl
@[simp] theorem State.setDataDir_illOp (s : State) (d : Direction) : (s.setDataDir d).illOp = s.illOp := rfl
@[simp] theorem State.setDataDir_overrun (s : State) (d : Direction) : (s.setDataDir d).overrun = s.overrun := rfl
@[simp] theorem State.setDataDir_badArg (s : State) (d : Direction) : (s.setDataDir d).badArg = s.badArg := rfl
@[simp] theorem State.setDataDir_rData (s : State) (d : Direction) : (s.setDataDir d).rData = s.rData := rfl
@[simp] theorem State.setDataDir_inputs (s : State) (d : Direction) : (s.setDataDir d).inputs = s.inputs := rfl
@[simp] theorem State.setDataDir_cycle (s : State) (d : Direction) : (s.setDataDir d).cycle = s.cycle := rfl
@[simp] theorem State.setDataDir_busy (s : State) (d : Direction) : (s.setDataDir d).busy = s.busy := rfl
@[simp] theorem State.setDataDir_rbS (s : State) (d : Direction) : (s.setDataDir d).rbS = s.rbS := rfl
@[simp] theorem State.setDataDir_aLen (s : State) (d : Direction) : (s.setDataDir d).aLen = s.aLen := rfl
@[simp] theorem State.setDataDir_txLen (s : State) (d : Direction) : (s.setDataDir d).txLen = s.txLen := rfl
@[simp] theorem State.setDataDir_rxLen (s : State) (d : Direction) : (s.setDataDir d).rxLen = s.rxLen := rfl

/-! ### setDirAll -/

@[simp] theorem State.setDirAll_cfg (s : State) (v : Latch) : (s.setDirAll v).cfg = s.cfg := rfl
@[simp] theorem State.setDirAll_busOut (s : State) (v : Latch) : (s.setDirAll v).busOut = s.busOut := rfl
@[simp] theorem State.setDirAll_dir (s : State) (v : Latch) : (s.setDirAll v).dir = dirWithAll v := rfl
@[simp] theorem State.setDirAll_phase (s : State) (v : Latch) : (s.setDirAll v).phase = s.phase := rfl
@[simp] theorem State.setDirAll_cur (s : State) (v : Latch) : (s.setDirAll v).cur = s.cur := rfl
@[simp] theorem State.setDirAll_seqPc (s : State) (v : Latch) : (s.setDirAll v).seqPc = s.seqPc := rfl
@[simp] theorem State.setDirAll_pollSt (s : State) (v : Latch) : (s.setDirAll v).pollSt = s.pollSt := rfl
@[simp] theorem State.setDirAll_dlyCnt (s : State) (v : Latch) : (s.setDirAll v).dlyCnt = s.dlyCnt := rfl
@[simp] theorem State.setDirAll_rbSync (s : State) (v : Latch) : (s.setDirAll v).rbSync = s.rbSync := rfl
@[simp] theorem State.setDirAll_opw (s : State) (v : Latch) : (s.setDirAll v).opw = s.opw := rfl
@[simp] theorem State.setDirAll_abuf (s : State) (v : Latch) : (s.setDirAll v).abuf = s.abuf := rfl
@[simp] theorem State.setDirAll_txbuf (s : State) (v : Latch) : (s.setDirAll v).txbuf = s.txbuf := rfl
@[simp] theorem State.setDirAll_len (s : State) (v : Latch) : (s.setDirAll v).len = s.len := rfl
@[simp] theorem State.setDirAll_pages (s : State) (v : Latch) : (s.setDirAll v).pages = s.pages := rfl
@[simp] theorem State.setDirAll_rxbuf (s : State) (v : Latch) : (s.setDirAll v).rxbuf = s.rxbuf := rfl
@[simp] theorem State.setDirAll_rxRd (s : State) (v : Latch) : (s.setDirAll v).rxRd = s.rxRd := rfl
@[simp] theorem State.setDirAll_res (s : State) (v : Latch) : (s.setDirAll v).res = s.res := rfl
@[simp] theorem State.setDirAll_done (s : State) (v : Latch) : (s.setDirAll v).done = s.done := rfl
@[simp] theorem State.setDirAll_fail (s : State) (v : Latch) : (s.setDirAll v).fail = s.fail := rfl
@[simp] theorem State.setDirAll_uidWarn (s : State) (v : Latch) : (s.setDirAll v).uidWarn = s.uidWarn := rfl
@[simp] theorem State.setDirAll_illOp (s : State) (v : Latch) : (s.setDirAll v).illOp = s.illOp := rfl
@[simp] theorem State.setDirAll_overrun (s : State) (v : Latch) : (s.setDirAll v).overrun = s.overrun := rfl
@[simp] theorem State.setDirAll_badArg (s : State) (v : Latch) : (s.setDirAll v).badArg = s.badArg := rfl
@[simp] theorem State.setDirAll_rData (s : State) (v : Latch) : (s.setDirAll v).rData = s.rData := rfl
@[simp] theorem State.setDirAll_inputs (s : State) (v : Latch) : (s.setDirAll v).inputs = s.inputs := rfl
@[simp] theorem State.setDirAll_cycle (s : State) (v : Latch) : (s.setDirAll v).cycle = s.cycle := rfl
@[simp] theorem State.setDirAll_busy (s : State) (v : Latch) : (s.setDirAll v).busy = s.busy := rfl
@[simp] theorem State.setDirAll_rbS (s : State) (v : Latch) : (s.setDirAll v).rbS = s.rbS := rfl
@[simp] theorem State.setDirAll_aLen (s : State) (v : Latch) : (s.setDirAll v).aLen = s.aLen := rfl
@[simp] theorem State.setDirAll_txLen (s : State) (v : Latch) : (s.setDirAll v).txLen = s.txLen := rfl
@[simp] theorem State.setDirAll_rxLen (s : State) (v : Latch) : (s.setDirAll v).rxLen = s.rxLen := rfl

/-! ### capture -/

@[simp] theorem State.capture_cfg (s : State) (levels : Latch) : (s.capture levels).cfg = s.cfg := rfl
@[simp] theorem State.capture_busOut (s : State) (levels : Latch) : (s.capture levels).busOut = s.busOut := rfl
@[simp] theorem State.capture_dir (s : State) (levels : Latch) : (s.capture levels).dir = s.dir := rfl
@[simp] theorem State.capture_phase (s : State) (levels : Latch) : (s.capture levels).phase = s.phase := rfl
@[simp] theorem State.capture_cur (s : State) (levels : Latch) : (s.capture levels).cur = s.cur := rfl
@[simp] theorem State.capture_seqPc (s : State) (levels : Latch) : (s.capture levels).seqPc = s.seqPc := rfl
@[simp] theorem State.capture_pollSt (s : State) (levels : Latch) : (s.capture levels).pollSt = s.pollSt := rfl
@[simp] theorem State.capture_dlyCnt (s : State) (levels : Latch) : (s.capture levels).dlyCnt = s.dlyCnt := rfl
@[simp] theorem State.capture_rbSync (s : State) (levels : Latch) : (s.capture levels).rbSync = s.rbSync := rfl
@[simp] theorem State.capture_opw (s : State) (levels : Latch) : (s.capture levels).opw = s.opw := rfl
@[simp] theorem State.capture_abuf (s : State) (levels : Latch) : (s.capture levels).abuf = s.abuf := rfl
@[simp] theorem State.capture_txbuf (s : State) (levels : Latch) : (s.capture levels).txbuf = s.txbuf := rfl
@[simp] theorem State.capture_len (s : State) (levels : Latch) : (s.capture levels).len = s.len := rfl
@[simp] theorem State.capture_pages (s : State) (levels : Latch) : (s.capture levels).pages = s.pages := rfl
@[simp] theorem State.capture_rxbuf (s : State) (levels : Latch) : (s.capture levels).rxbuf = s.rxbuf ++ [s.pinData levels] := rfl
@[simp] theorem State.capture_rxRd (s : State) (levels : Latch) : (s.capture levels).rxRd = s.rxRd := rfl
@[simp] theorem State.capture_res (s : State) (levels : Latch) : (s.capture levels).res = s.res := rfl
@[simp] theorem State.capture_done (s : State) (levels : Latch) : (s.capture levels).done = s.done := rfl
@[simp] theorem State.capture_fail (s : State) (levels : Latch) : (s.capture levels).fail = s.fail := rfl
@[simp] theorem State.capture_uidWarn (s : State) (levels : Latch) : (s.capture levels).uidWarn = s.uidWarn := rfl
@[simp] theorem State.capture_illOp (s : State) (levels : Latch) : (s.capture levels).illOp = s.illOp := rfl
@[simp] theorem State.capture_overrun (s : State) (levels : Latch) : (s.capture levels).overrun = s.overrun := rfl
@[simp] theorem State.capture_badArg (s : State) (levels : Latch) : (s.capture levels).badArg = s.badArg := rfl
@[simp] theorem State.capture_rData (s : State) (levels : Latch) : (s.capture levels).rData = s.rData := rfl
@[simp] theorem State.capture_inputs (s : State) (levels : Latch) : (s.capture levels).inputs = s.inputs := rfl
@[simp] theorem State.capture_cycle (s : State) (levels : Latch) : (s.capture levels).cycle = s.cycle := rfl
@[simp] theorem State.capture_busy (s : State) (levels : Latch) : (s.capture levels).busy = s.busy := rfl
@[simp] theorem State.capture_rbS (s : State) (levels : Latch) : (s.capture levels).rbS = s.rbS := rfl
@[simp] theorem State.capture_aLen (s : State) (levels : Latch) : (s.capture levels).aLen = s.aLen := rfl
@[simp] theorem State.capture_txLen (s : State) (levels : Latch) : (s.capture levels).txLen = s.txLen := rfl

/-! ### readLine -/

@[simp] theorem State.readLine_cfg (s : State) (l : BitVec 4) (levels : Latch) : (s.readLine l levels).cfg = s.cfg := rfl
@[simp] theorem State.readLine_busOut (s : State) (l : BitVec 4) (levels : Latch) : (s.readLine l levels).busOut = s.busOut := rfl
@[simp] theorem State.readLine_dir (s : State) (l : BitVec 4) (levels : Latch) : (s.readLine l levels).dir = s.dir := rfl
@[simp] theorem State.readLine_phase (s : State) (l : BitVec 4) (levels : Latch) : (s.readLine l levels).phase = s.phase := rfl
@[simp] theorem State.readLine_cur (s : State) (l : BitVec 4) (levels : Latch) : (s.readLine l levels).cur = s.cur := rfl
@[simp] theorem State.readLine_seqPc (s : State) (l : BitVec 4) (levels : Latch) : (s.readLine l levels).seqPc = s.seqPc := rfl
@[simp] theorem State.readLine_pollSt (s : State) (l : BitVec 4) (levels : Latch) : (s.readLine l levels).pollSt = s.pollSt := rfl
@[simp] theorem State.readLine_dlyCnt (s : State) (l : BitVec 4) (levels : Latch) : (s.readLine l levels).dlyCnt = s.dlyCnt := rfl
@[simp] theorem State.readLine_rbSync (s : State) (l : BitVec 4) (levels : Latch) : (s.readLine l levels).rbSync = s.rbSync := rfl
@[simp] theorem State.readLine_opw (s : State) (l : BitVec 4) (levels : Latch) : (s.readLine l levels).opw = s.opw := rfl
@[simp] theorem State.readLine_abuf (s : State) (l : BitVec 4) (levels : Latch) : (s.readLine l levels).abuf = s.abuf := rfl
@[simp] theorem State.readLine_txbuf (s : State) (l : BitVec 4) (levels : Latch) : (s.readLine l levels).txbuf = s.txbuf := rfl
@[simp] theorem State.readLine_len (s : State) (l : BitVec 4) (levels : Latch) : (s.readLine l levels).len = s.len := rfl
@[simp] theorem State.readLine_pages (s : State) (l : BitVec 4) (levels : Latch) : (s.readLine l levels).pages = s.pages := rfl
@[simp] theorem State.readLine_rxbuf (s : State) (l : BitVec 4) (levels : Latch) : (s.readLine l levels).rxbuf = s.rxbuf := rfl
@[simp] theorem State.readLine_rxRd (s : State) (l : BitVec 4) (levels : Latch) : (s.readLine l levels).rxRd = s.rxRd := rfl
@[simp] theorem State.readLine_res (s : State) (l : BitVec 4) (levels : Latch) : (s.readLine l levels).res = (BitVec.ofBool ((s.pin levels).getLsbD l.toNat)).setWidth 16 := rfl
@[simp] theorem State.readLine_done (s : State) (l : BitVec 4) (levels : Latch) : (s.readLine l levels).done = s.done := rfl
@[simp] theorem State.readLine_fail (s : State) (l : BitVec 4) (levels : Latch) : (s.readLine l levels).fail = s.fail := rfl
@[simp] theorem State.readLine_uidWarn (s : State) (l : BitVec 4) (levels : Latch) : (s.readLine l levels).uidWarn = s.uidWarn := rfl
@[simp] theorem State.readLine_illOp (s : State) (l : BitVec 4) (levels : Latch) : (s.readLine l levels).illOp = s.illOp := rfl
@[simp] theorem State.readLine_overrun (s : State) (l : BitVec 4) (levels : Latch) : (s.readLine l levels).overrun = s.overrun := rfl
@[simp] theorem State.readLine_badArg (s : State) (l : BitVec 4) (levels : Latch) : (s.readLine l levels).badArg = s.badArg := rfl
@[simp] theorem State.readLine_rData (s : State) (l : BitVec 4) (levels : Latch) : (s.readLine l levels).rData = s.rData := rfl
@[simp] theorem State.readLine_inputs (s : State) (l : BitVec 4) (levels : Latch) : (s.readLine l levels).inputs = s.inputs := rfl
@[simp] theorem State.readLine_cycle (s : State) (l : BitVec 4) (levels : Latch) : (s.readLine l levels).cycle = s.cycle := rfl
@[simp] theorem State.readLine_busy (s : State) (l : BitVec 4) (levels : Latch) : (s.readLine l levels).busy = s.busy := rfl
@[simp] theorem State.readLine_rbS (s : State) (l : BitVec 4) (levels : Latch) : (s.readLine l levels).rbS = s.rbS := rfl
@[simp] theorem State.readLine_aLen (s : State) (l : BitVec 4) (levels : Latch) : (s.readLine l levels).aLen = s.aLen := rfl
@[simp] theorem State.readLine_txLen (s : State) (l : BitVec 4) (levels : Latch) : (s.readLine l levels).txLen = s.txLen := rfl
@[simp] theorem State.readLine_rxLen (s : State) (l : BitVec 4) (levels : Latch) : (s.readLine l levels).rxLen = s.rxLen := rfl

/-! ### readData -/

@[simp] theorem State.readData_cfg (s : State) (levels : Latch) : (s.readData levels).cfg = s.cfg := rfl
@[simp] theorem State.readData_busOut (s : State) (levels : Latch) : (s.readData levels).busOut = s.busOut := rfl
@[simp] theorem State.readData_dir (s : State) (levels : Latch) : (s.readData levels).dir = s.dir := rfl
@[simp] theorem State.readData_phase (s : State) (levels : Latch) : (s.readData levels).phase = s.phase := rfl
@[simp] theorem State.readData_cur (s : State) (levels : Latch) : (s.readData levels).cur = s.cur := rfl
@[simp] theorem State.readData_seqPc (s : State) (levels : Latch) : (s.readData levels).seqPc = s.seqPc := rfl
@[simp] theorem State.readData_pollSt (s : State) (levels : Latch) : (s.readData levels).pollSt = s.pollSt := rfl
@[simp] theorem State.readData_dlyCnt (s : State) (levels : Latch) : (s.readData levels).dlyCnt = s.dlyCnt := rfl
@[simp] theorem State.readData_rbSync (s : State) (levels : Latch) : (s.readData levels).rbSync = s.rbSync := rfl
@[simp] theorem State.readData_opw (s : State) (levels : Latch) : (s.readData levels).opw = s.opw := rfl
@[simp] theorem State.readData_abuf (s : State) (levels : Latch) : (s.readData levels).abuf = s.abuf := rfl
@[simp] theorem State.readData_txbuf (s : State) (levels : Latch) : (s.readData levels).txbuf = s.txbuf := rfl
@[simp] theorem State.readData_len (s : State) (levels : Latch) : (s.readData levels).len = s.len := rfl
@[simp] theorem State.readData_pages (s : State) (levels : Latch) : (s.readData levels).pages = s.pages := rfl
@[simp] theorem State.readData_rxbuf (s : State) (levels : Latch) : (s.readData levels).rxbuf = s.rxbuf := rfl
@[simp] theorem State.readData_rxRd (s : State) (levels : Latch) : (s.readData levels).rxRd = s.rxRd := rfl
@[simp] theorem State.readData_res (s : State) (levels : Latch) : (s.readData levels).res = (s.pinData levels).setWidth 16 := rfl
@[simp] theorem State.readData_done (s : State) (levels : Latch) : (s.readData levels).done = s.done := rfl
@[simp] theorem State.readData_fail (s : State) (levels : Latch) : (s.readData levels).fail = s.fail := rfl
@[simp] theorem State.readData_uidWarn (s : State) (levels : Latch) : (s.readData levels).uidWarn = s.uidWarn := rfl
@[simp] theorem State.readData_illOp (s : State) (levels : Latch) : (s.readData levels).illOp = s.illOp := rfl
@[simp] theorem State.readData_overrun (s : State) (levels : Latch) : (s.readData levels).overrun = s.overrun := rfl
@[simp] theorem State.readData_badArg (s : State) (levels : Latch) : (s.readData levels).badArg = s.badArg := rfl
@[simp] theorem State.readData_rData (s : State) (levels : Latch) : (s.readData levels).rData = s.rData := rfl
@[simp] theorem State.readData_inputs (s : State) (levels : Latch) : (s.readData levels).inputs = s.inputs := rfl
@[simp] theorem State.readData_cycle (s : State) (levels : Latch) : (s.readData levels).cycle = s.cycle := rfl
@[simp] theorem State.readData_busy (s : State) (levels : Latch) : (s.readData levels).busy = s.busy := rfl
@[simp] theorem State.readData_rbS (s : State) (levels : Latch) : (s.readData levels).rbS = s.rbS := rfl
@[simp] theorem State.readData_aLen (s : State) (levels : Latch) : (s.readData levels).aLen = s.aLen := rfl
@[simp] theorem State.readData_txLen (s : State) (levels : Latch) : (s.readData levels).txLen = s.txLen := rfl
@[simp] theorem State.readData_rxLen (s : State) (levels : Latch) : (s.readData levels).rxLen = s.rxLen := rfl

/-! ### setPhase -/

@[simp] theorem State.setPhase_cfg (s : State) (p : Option Phase) : (s.setPhase p).cfg = s.cfg := rfl
@[simp] theorem State.setPhase_busOut (s : State) (p : Option Phase) : (s.setPhase p).busOut = s.busOut := rfl
@[simp] theorem State.setPhase_dir (s : State) (p : Option Phase) : (s.setPhase p).dir = s.dir := rfl
@[simp] theorem State.setPhase_phase (s : State) (p : Option Phase) : (s.setPhase p).phase = p.getD s.phase := rfl
@[simp] theorem State.setPhase_cur (s : State) (p : Option Phase) : (s.setPhase p).cur = s.cur := rfl
@[simp] theorem State.setPhase_seqPc (s : State) (p : Option Phase) : (s.setPhase p).seqPc = s.seqPc := rfl
@[simp] theorem State.setPhase_pollSt (s : State) (p : Option Phase) : (s.setPhase p).pollSt = s.pollSt := rfl
@[simp] theorem State.setPhase_dlyCnt (s : State) (p : Option Phase) : (s.setPhase p).dlyCnt = s.dlyCnt := rfl
@[simp] theorem State.setPhase_rbSync (s : State) (p : Option Phase) : (s.setPhase p).rbSync = s.rbSync := rfl
@[simp] theorem State.setPhase_opw (s : State) (p : Option Phase) : (s.setPhase p).opw = s.opw := rfl
@[simp] theorem State.setPhase_abuf (s : State) (p : Option Phase) : (s.setPhase p).abuf = s.abuf := rfl
@[simp] theorem State.setPhase_txbuf (s : State) (p : Option Phase) : (s.setPhase p).txbuf = s.txbuf := rfl
@[simp] theorem State.setPhase_len (s : State) (p : Option Phase) : (s.setPhase p).len = s.len := rfl
@[simp] theorem State.setPhase_pages (s : State) (p : Option Phase) : (s.setPhase p).pages = s.pages := rfl
@[simp] theorem State.setPhase_rxbuf (s : State) (p : Option Phase) : (s.setPhase p).rxbuf = s.rxbuf := rfl
@[simp] theorem State.setPhase_rxRd (s : State) (p : Option Phase) : (s.setPhase p).rxRd = s.rxRd := rfl
@[simp] theorem State.setPhase_res (s : State) (p : Option Phase) : (s.setPhase p).res = s.res := rfl
@[simp] theorem State.setPhase_done (s : State) (p : Option Phase) : (s.setPhase p).done = s.done := rfl
@[simp] theorem State.setPhase_fail (s : State) (p : Option Phase) : (s.setPhase p).fail = s.fail := rfl
@[simp] theorem State.setPhase_uidWarn (s : State) (p : Option Phase) : (s.setPhase p).uidWarn = s.uidWarn := rfl
@[simp] theorem State.setPhase_illOp (s : State) (p : Option Phase) : (s.setPhase p).illOp = s.illOp := rfl
@[simp] theorem State.setPhase_overrun (s : State) (p : Option Phase) : (s.setPhase p).overrun = s.overrun := rfl
@[simp] theorem State.setPhase_badArg (s : State) (p : Option Phase) : (s.setPhase p).badArg = s.badArg := rfl
@[simp] theorem State.setPhase_rData (s : State) (p : Option Phase) : (s.setPhase p).rData = s.rData := rfl
@[simp] theorem State.setPhase_inputs (s : State) (p : Option Phase) : (s.setPhase p).inputs = s.inputs := rfl
@[simp] theorem State.setPhase_cycle (s : State) (p : Option Phase) : (s.setPhase p).cycle = s.cycle := rfl
@[simp] theorem State.setPhase_busy (s : State) (p : Option Phase) : (s.setPhase p).busy = s.busy := rfl
@[simp] theorem State.setPhase_rbS (s : State) (p : Option Phase) : (s.setPhase p).rbS = s.rbS := rfl
@[simp] theorem State.setPhase_aLen (s : State) (p : Option Phase) : (s.setPhase p).aLen = s.aLen := rfl
@[simp] theorem State.setPhase_txLen (s : State) (p : Option Phase) : (s.setPhase p).txLen = s.txLen := rfl
@[simp] theorem State.setPhase_rxLen (s : State) (p : Option Phase) : (s.setPhase p).rxLen = s.rxLen := rfl

/-! ### beginAt -/

@[simp] theorem State.beginAt_cfg (s : State) (seq : List MicroStep) (n : Nat) : (s.beginAt seq n).cfg = s.cfg := rfl
@[simp] theorem State.beginAt_busOut (s : State) (seq : List MicroStep) (n : Nat) : (s.beginAt seq n).busOut = s.busOut := rfl
@[simp] theorem State.beginAt_dir (s : State) (seq : List MicroStep) (n : Nat) : (s.beginAt seq n).dir = s.dir := rfl
@[simp] theorem State.beginAt_phase (s : State) (seq : List MicroStep) (n : Nat) : (s.beginAt seq n).phase = s.phase := rfl
@[simp] theorem State.beginAt_cur (s : State) (seq : List MicroStep) (n : Nat) : (s.beginAt seq n).cur = s.cur := rfl
@[simp] theorem State.beginAt_seqPc (s : State) (seq : List MicroStep) (n : Nat) : (s.beginAt seq n).seqPc = n := rfl
@[simp] theorem State.beginAt_pollSt (s : State) (seq : List MicroStep) (n : Nat) : (s.beginAt seq n).pollSt = loadPoll seq[n]? := rfl
@[simp] theorem State.beginAt_dlyCnt (s : State) (seq : List MicroStep) (n : Nat) : (s.beginAt seq n).dlyCnt = loadDly seq[n]? := rfl
@[simp] theorem State.beginAt_rbSync (s : State) (seq : List MicroStep) (n : Nat) : (s.beginAt seq n).rbSync = s.rbSync := rfl
@[simp] theorem State.beginAt_opw (s : State) (seq : List MicroStep) (n : Nat) : (s.beginAt seq n).opw = s.opw := rfl
@[simp] theorem State.beginAt_abuf (s : State) (seq : List MicroStep) (n : Nat) : (s.beginAt seq n).abuf = s.abuf := rfl
@[simp] theorem State.beginAt_txbuf (s : State) (seq : List MicroStep) (n : Nat) : (s.beginAt seq n).txbuf = s.txbuf := rfl
@[simp] theorem State.beginAt_len (s : State) (seq : List MicroStep) (n : Nat) : (s.beginAt seq n).len = s.len := rfl
@[simp] theorem State.beginAt_pages (s : State) (seq : List MicroStep) (n : Nat) : (s.beginAt seq n).pages = s.pages := rfl
@[simp] theorem State.beginAt_rxbuf (s : State) (seq : List MicroStep) (n : Nat) : (s.beginAt seq n).rxbuf = s.rxbuf := rfl
@[simp] theorem State.beginAt_rxRd (s : State) (seq : List MicroStep) (n : Nat) : (s.beginAt seq n).rxRd = s.rxRd := rfl
@[simp] theorem State.beginAt_res (s : State) (seq : List MicroStep) (n : Nat) : (s.beginAt seq n).res = s.res := rfl
@[simp] theorem State.beginAt_done (s : State) (seq : List MicroStep) (n : Nat) : (s.beginAt seq n).done = s.done := rfl
@[simp] theorem State.beginAt_fail (s : State) (seq : List MicroStep) (n : Nat) : (s.beginAt seq n).fail = s.fail := rfl
@[simp] theorem State.beginAt_uidWarn (s : State) (seq : List MicroStep) (n : Nat) : (s.beginAt seq n).uidWarn = s.uidWarn := rfl
@[simp] theorem State.beginAt_illOp (s : State) (seq : List MicroStep) (n : Nat) : (s.beginAt seq n).illOp = s.illOp := rfl
@[simp] theorem State.beginAt_overrun (s : State) (seq : List MicroStep) (n : Nat) : (s.beginAt seq n).overrun = s.overrun := rfl
@[simp] theorem State.beginAt_badArg (s : State) (seq : List MicroStep) (n : Nat) : (s.beginAt seq n).badArg = s.badArg := rfl
@[simp] theorem State.beginAt_rData (s : State) (seq : List MicroStep) (n : Nat) : (s.beginAt seq n).rData = s.rData := rfl
@[simp] theorem State.beginAt_inputs (s : State) (seq : List MicroStep) (n : Nat) : (s.beginAt seq n).inputs = s.inputs := rfl
@[simp] theorem State.beginAt_cycle (s : State) (seq : List MicroStep) (n : Nat) : (s.beginAt seq n).cycle = s.cycle := rfl
@[simp] theorem State.beginAt_busy (s : State) (seq : List MicroStep) (n : Nat) : (s.beginAt seq n).busy = s.busy := rfl
@[simp] theorem State.beginAt_rbS (s : State) (seq : List MicroStep) (n : Nat) : (s.beginAt seq n).rbS = s.rbS := rfl
@[simp] theorem State.beginAt_aLen (s : State) (seq : List MicroStep) (n : Nat) : (s.beginAt seq n).aLen = s.aLen := rfl
@[simp] theorem State.beginAt_txLen (s : State) (seq : List MicroStep) (n : Nat) : (s.beginAt seq n).txLen = s.txLen := rfl
@[simp] theorem State.beginAt_rxLen (s : State) (seq : List MicroStep) (n : Nat) : (s.beginAt seq n).rxLen = s.rxLen := rfl

/-! ### tick -/

@[simp] theorem State.tick_cfg (s : State) (i : Input) : (s.tick i).cfg = s.cfg := rfl
@[simp] theorem State.tick_busOut (s : State) (i : Input) : (s.tick i).busOut = s.busOut := rfl
@[simp] theorem State.tick_dir (s : State) (i : Input) : (s.tick i).dir = s.dir := rfl
@[simp] theorem State.tick_phase (s : State) (i : Input) : (s.tick i).phase = s.phase := rfl
@[simp] theorem State.tick_cur (s : State) (i : Input) : (s.tick i).cur = s.cur := rfl
@[simp] theorem State.tick_seqPc (s : State) (i : Input) : (s.tick i).seqPc = s.seqPc := rfl
@[simp] theorem State.tick_pollSt (s : State) (i : Input) : (s.tick i).pollSt = s.pollSt := rfl
@[simp] theorem State.tick_dlyCnt (s : State) (i : Input) : (s.tick i).dlyCnt = s.dlyCnt := rfl
@[simp] theorem State.tick_rbSync (s : State) (i : Input) : (s.tick i).rbSync = (i.rb :: s.rbSync).dropLast := rfl
@[simp] theorem State.tick_opw (s : State) (i : Input) : (s.tick i).opw = s.opw := rfl
@[simp] theorem State.tick_abuf (s : State) (i : Input) : (s.tick i).abuf = s.abuf := rfl
@[simp] theorem State.tick_txbuf (s : State) (i : Input) : (s.tick i).txbuf = s.txbuf := rfl
@[simp] theorem State.tick_len (s : State) (i : Input) : (s.tick i).len = s.len := rfl
@[simp] theorem State.tick_pages (s : State) (i : Input) : (s.tick i).pages = s.pages := rfl
@[simp] theorem State.tick_rxbuf (s : State) (i : Input) : (s.tick i).rxbuf = s.rxbuf := rfl
@[simp] theorem State.tick_rxRd (s : State) (i : Input) : (s.tick i).rxRd = s.rxRd := rfl
@[simp] theorem State.tick_res (s : State) (i : Input) : (s.tick i).res = s.res := rfl
@[simp] theorem State.tick_done (s : State) (i : Input) : (s.tick i).done = s.done := rfl
@[simp] theorem State.tick_fail (s : State) (i : Input) : (s.tick i).fail = s.fail := rfl
@[simp] theorem State.tick_uidWarn (s : State) (i : Input) : (s.tick i).uidWarn = s.uidWarn := rfl
@[simp] theorem State.tick_illOp (s : State) (i : Input) : (s.tick i).illOp = s.illOp := rfl
@[simp] theorem State.tick_overrun (s : State) (i : Input) : (s.tick i).overrun = s.overrun := rfl
@[simp] theorem State.tick_badArg (s : State) (i : Input) : (s.tick i).badArg = s.badArg := rfl
@[simp] theorem State.tick_rData (s : State) (i : Input) : (s.tick i).rData = s.rData := rfl
@[simp] theorem State.tick_inputs (s : State) (i : Input) : (s.tick i).inputs = s.inputs.tail := rfl
@[simp] theorem State.tick_cycle (s : State) (i : Input) : (s.tick i).cycle = s.cycle + 1 := rfl
@[simp] theorem State.tick_busy (s : State) (i : Input) : (s.tick i).busy = s.busy := rfl
@[simp] theorem State.tick_aLen (s : State) (i : Input) : (s.tick i).aLen = s.aLen := rfl
@[simp] theorem State.tick_txLen (s : State) (i : Input) : (s.tick i).txLen = s.txLen := rfl
@[simp] theorem State.tick_rxLen (s : State) (i : Input) : (s.tick i).rxLen = s.rxLen := rfl

/-! ### accept -/

@[simp] theorem State.accept_cfg (s : State) (op : Instr) (seq : List MicroStep) (k : Completion) : (s.accept op seq k).cfg = s.cfg := rfl
@[simp] theorem State.accept_busOut (s : State) (op : Instr) (seq : List MicroStep) (k : Completion) : (s.accept op seq k).busOut = s.busOut := rfl
@[simp] theorem State.accept_dir (s : State) (op : Instr) (seq : List MicroStep) (k : Completion) : (s.accept op seq k).dir = s.dir := rfl
@[simp] theorem State.accept_phase (s : State) (op : Instr) (seq : List MicroStep) (k : Completion) : (s.accept op seq k).phase = s.phase := rfl
@[simp] theorem State.accept_cur (s : State) (op : Instr) (seq : List MicroStep) (k : Completion) : (s.accept op seq k).cur = some { op, aLen := s.aLen, txLen := s.txLen, len := s.len, pages := s.pages, seq, completion := k } := rfl
@[simp] theorem State.accept_seqPc (s : State) (op : Instr) (seq : List MicroStep) (k : Completion) : (s.accept op seq k).seqPc = 0 := rfl
@[simp] theorem State.accept_pollSt (s : State) (op : Instr) (seq : List MicroStep) (k : Completion) : (s.accept op seq k).pollSt = loadPoll seq[0]? := rfl
@[simp] theorem State.accept_dlyCnt (s : State) (op : Instr) (seq : List MicroStep) (k : Completion) : (s.accept op seq k).dlyCnt = loadDly seq[0]? := rfl
@[simp] theorem State.accept_rbSync (s : State) (op : Instr) (seq : List MicroStep) (k : Completion) : (s.accept op seq k).rbSync = s.rbSync := rfl
@[simp] theorem State.accept_opw (s : State) (op : Instr) (seq : List MicroStep) (k : Completion) : (s.accept op seq k).opw = s.opw := rfl
@[simp] theorem State.accept_abuf (s : State) (op : Instr) (seq : List MicroStep) (k : Completion) : (s.accept op seq k).abuf = s.abuf := rfl
@[simp] theorem State.accept_txbuf (s : State) (op : Instr) (seq : List MicroStep) (k : Completion) : (s.accept op seq k).txbuf = s.txbuf := rfl
@[simp] theorem State.accept_len (s : State) (op : Instr) (seq : List MicroStep) (k : Completion) : (s.accept op seq k).len = s.len := rfl
@[simp] theorem State.accept_pages (s : State) (op : Instr) (seq : List MicroStep) (k : Completion) : (s.accept op seq k).pages = s.pages := rfl
@[simp] theorem State.accept_rxbuf (s : State) (op : Instr) (seq : List MicroStep) (k : Completion) : (s.accept op seq k).rxbuf = [] := rfl
@[simp] theorem State.accept_rxRd (s : State) (op : Instr) (seq : List MicroStep) (k : Completion) : (s.accept op seq k).rxRd = 0 := rfl
@[simp] theorem State.accept_res (s : State) (op : Instr) (seq : List MicroStep) (k : Completion) : (s.accept op seq k).res = 0#16 := rfl
@[simp] theorem State.accept_done (s : State) (op : Instr) (seq : List MicroStep) (k : Completion) : (s.accept op seq k).done = false := rfl
@[simp] theorem State.accept_fail (s : State) (op : Instr) (seq : List MicroStep) (k : Completion) : (s.accept op seq k).fail = false := rfl
@[simp] theorem State.accept_uidWarn (s : State) (op : Instr) (seq : List MicroStep) (k : Completion) : (s.accept op seq k).uidWarn = false := rfl
@[simp] theorem State.accept_illOp (s : State) (op : Instr) (seq : List MicroStep) (k : Completion) : (s.accept op seq k).illOp = false := rfl
@[simp] theorem State.accept_overrun (s : State) (op : Instr) (seq : List MicroStep) (k : Completion) : (s.accept op seq k).overrun = s.overrun := rfl
@[simp] theorem State.accept_badArg (s : State) (op : Instr) (seq : List MicroStep) (k : Completion) : (s.accept op seq k).badArg = false := rfl
@[simp] theorem State.accept_rData (s : State) (op : Instr) (seq : List MicroStep) (k : Completion) : (s.accept op seq k).rData = s.rData := rfl
@[simp] theorem State.accept_inputs (s : State) (op : Instr) (seq : List MicroStep) (k : Completion) : (s.accept op seq k).inputs = s.inputs := rfl
@[simp] theorem State.accept_cycle (s : State) (op : Instr) (seq : List MicroStep) (k : Completion) : (s.accept op seq k).cycle = s.cycle := rfl
@[simp] theorem State.accept_rbS (s : State) (op : Instr) (seq : List MicroStep) (k : Completion) : (s.accept op seq k).rbS = s.rbS := rfl
@[simp] theorem State.accept_aLen (s : State) (op : Instr) (seq : List MicroStep) (k : Completion) : (s.accept op seq k).aLen = s.aLen := rfl
@[simp] theorem State.accept_txLen (s : State) (op : Instr) (seq : List MicroStep) (k : Completion) : (s.accept op seq k).txLen = s.txLen := rfl

/-! ### failFromRes -/

@[simp] theorem State.failFromRes_cfg (s : State) : (s.failFromRes).cfg = s.cfg := rfl
@[simp] theorem State.failFromRes_busOut (s : State) : (s.failFromRes).busOut = s.busOut := rfl
@[simp] theorem State.failFromRes_dir (s : State) : (s.failFromRes).dir = s.dir := rfl
@[simp] theorem State.failFromRes_phase (s : State) : (s.failFromRes).phase = s.phase := rfl
@[simp] theorem State.failFromRes_cur (s : State) : (s.failFromRes).cur = s.cur := rfl
@[simp] theorem State.failFromRes_seqPc (s : State) : (s.failFromRes).seqPc = s.seqPc := rfl
@[simp] theorem State.failFromRes_pollSt (s : State) : (s.failFromRes).pollSt = s.pollSt := rfl
@[simp] theorem State.failFromRes_dlyCnt (s : State) : (s.failFromRes).dlyCnt = s.dlyCnt := rfl
@[simp] theorem State.failFromRes_rbSync (s : State) : (s.failFromRes).rbSync = s.rbSync := rfl
@[simp] theorem State.failFromRes_opw (s : State) : (s.failFromRes).opw = s.opw := rfl
@[simp] theorem State.failFromRes_abuf (s : State) : (s.failFromRes).abuf = s.abuf := rfl
@[simp] theorem State.failFromRes_txbuf (s : State) : (s.failFromRes).txbuf = s.txbuf := rfl
@[simp] theorem State.failFromRes_len (s : State) : (s.failFromRes).len = s.len := rfl
@[simp] theorem State.failFromRes_pages (s : State) : (s.failFromRes).pages = s.pages := rfl
@[simp] theorem State.failFromRes_rxbuf (s : State) : (s.failFromRes).rxbuf = s.rxbuf := rfl
@[simp] theorem State.failFromRes_rxRd (s : State) : (s.failFromRes).rxRd = s.rxRd := rfl
@[simp] theorem State.failFromRes_res (s : State) : (s.failFromRes).res = s.res := rfl
@[simp] theorem State.failFromRes_done (s : State) : (s.failFromRes).done = s.done := rfl
@[simp] theorem State.failFromRes_fail (s : State) : (s.failFromRes).fail = s.res.getLsbD 0 := rfl
@[simp] theorem State.failFromRes_uidWarn (s : State) : (s.failFromRes).uidWarn = s.uidWarn := rfl
@[simp] theorem State.failFromRes_illOp (s : State) : (s.failFromRes).illOp = s.illOp := rfl
@[simp] theorem State.failFromRes_overrun (s : State) : (s.failFromRes).overrun = s.overrun := rfl
@[simp] theorem State.failFromRes_badArg (s : State) : (s.failFromRes).badArg = s.badArg := rfl
@[simp] theorem State.failFromRes_rData (s : State) : (s.failFromRes).rData = s.rData := rfl
@[simp] theorem State.failFromRes_inputs (s : State) : (s.failFromRes).inputs = s.inputs := rfl
@[simp] theorem State.failFromRes_cycle (s : State) : (s.failFromRes).cycle = s.cycle := rfl
@[simp] theorem State.failFromRes_busy (s : State) : (s.failFromRes).busy = s.busy := rfl
@[simp] theorem State.failFromRes_rbS (s : State) : (s.failFromRes).rbS = s.rbS := rfl
@[simp] theorem State.failFromRes_aLen (s : State) : (s.failFromRes).aLen = s.aLen := rfl
@[simp] theorem State.failFromRes_txLen (s : State) : (s.failFromRes).txLen = s.txLen := rfl
@[simp] theorem State.failFromRes_rxLen (s : State) : (s.failFromRes).rxLen = s.rxLen := rfl

/-! ### hwReset -/

@[simp] theorem State.hwReset_cfg (s : State) : (s.hwReset).cfg = s.cfg := rfl
@[simp] theorem State.hwReset_busOut (s : State) : (s.hwReset).busOut = idleWord s.cfg := rfl
@[simp] theorem State.hwReset_dir (s : State) : (s.hwReset).dir = dirReset := rfl
@[simp] theorem State.hwReset_phase (s : State) : (s.hwReset).phase = .idle := rfl
@[simp] theorem State.hwReset_cur (s : State) : (s.hwReset).cur = none := rfl
@[simp] theorem State.hwReset_seqPc (s : State) : (s.hwReset).seqPc = 0 := rfl
@[simp] theorem State.hwReset_pollSt (s : State) : (s.hwReset).pollSt = .idle := rfl
@[simp] theorem State.hwReset_dlyCnt (s : State) : (s.hwReset).dlyCnt = 0 := rfl
@[simp] theorem State.hwReset_rbSync (s : State) : (s.hwReset).rbSync = List.replicate s.cfg.rbSyncStages false := rfl
@[simp] theorem State.hwReset_opw (s : State) : (s.hwReset).opw = 0#32 := rfl
@[simp] theorem State.hwReset_abuf (s : State) : (s.hwReset).abuf = [] := rfl
@[simp] theorem State.hwReset_txbuf (s : State) : (s.hwReset).txbuf = [] := rfl
@[simp] theorem State.hwReset_len (s : State) : (s.hwReset).len = 0#32 := rfl
@[simp] theorem State.hwReset_pages (s : State) : (s.hwReset).pages = 0#16 := rfl
@[simp] theorem State.hwReset_rxbuf (s : State) : (s.hwReset).rxbuf = [] := rfl
@[simp] theorem State.hwReset_rxRd (s : State) : (s.hwReset).rxRd = 0 := rfl
@[simp] theorem State.hwReset_res (s : State) : (s.hwReset).res = 0#16 := rfl
@[simp] theorem State.hwReset_done (s : State) : (s.hwReset).done = false := rfl
@[simp] theorem State.hwReset_fail (s : State) : (s.hwReset).fail = false := rfl
@[simp] theorem State.hwReset_uidWarn (s : State) : (s.hwReset).uidWarn = false := rfl
@[simp] theorem State.hwReset_illOp (s : State) : (s.hwReset).illOp = false := rfl
@[simp] theorem State.hwReset_overrun (s : State) : (s.hwReset).overrun = false := rfl
@[simp] theorem State.hwReset_badArg (s : State) : (s.hwReset).badArg = false := rfl
@[simp] theorem State.hwReset_rData (s : State) : (s.hwReset).rData = 0#32 := rfl
@[simp] theorem State.hwReset_inputs (s : State) : (s.hwReset).inputs = s.inputs.tail := rfl
@[simp] theorem State.hwReset_cycle (s : State) : (s.hwReset).cycle = s.cycle + 1 := rfl

/-! ### Derived views -/

@[simp] theorem State.busy_eq_false (s : State) : s.busy = false ↔ s.cur = none := by
  simp [State.busy]

theorem State.accept_busy (s : State) (op : Instr) (seq : List MicroStep) (k : Completion) :
    (s.accept op seq k).busy = true := rfl

theorem State.complete_busy (s : State) (k : Completion) : (s.complete k).busy = false := rfl

theorem State.hwReset_busy (s : State) : s.hwReset.busy = false := rfl

end Sys2Proof.Machine
end

