-- ==== Sys2Proof/Laws/Run.lean ====
section
/-! SUPPORT. What a running operation does on a ready device: the clocked sequencer, run for the cycles of a sequence,
leaves what the micro-operations of the sequence write one after another. -/

namespace Sys2Proof.Machine

/-- What a micro-operation writes when it ends. -/
def effectOf (m : MicroStep) (levels : Latch) (s : State) : State := (s.microEffect m.op levels).setPhase m.phase

/-- The micro-operations of a sequence one after another, each with the level outside in its own cycle. -/
def runMicros : List MicroStep → List Input → State → State
  | [], _, s => s
  | m :: rest, ins, s => runMicros rest (ins.drop (microCost m.op)) (effectOf m (ins.headD default).levels s)

/-- The fields that only the sequencer's position and the clock move. -/
def State.moved (s : State) (pc d : Nat) (p : PollState) (q : List Bool) (ins : List Input) (n : Nat) : State :=
  { s with seqPc := pc, dlyCnt := d, pollSt := p, rbSync := q, inputs := ins, cycle := n }

/-- A micro-operation that neither waits for RB_S nor reads a line: what it does does not depend on the synchroniser. -/
def Unsynced (m : MicroStep) : Prop := m.op ≠ .poll ∧ ∀ l, m.op ≠ .rdl l

/-! ### Cost and evaluation of sequences -/

@[simp] theorem seqCost_nil : seqCost [] = 0 := rfl

@[simp] theorem seqCost_cons (m : MicroStep) (r : List MicroStep) :
    seqCost (m :: r) = microCost m.op + seqCost r := by
  simp [seqCost]

@[simp] theorem seqCost_append (a b : List MicroStep) : seqCost (a ++ b) = seqCost a + seqCost b := by
  simp [seqCost]

@[simp] theorem capCount_nil : capCount [] = 0 := rfl

@[simp] theorem capCount_cons (m : MicroStep) (r : List MicroStep) :
    capCount (m :: r) = capCount r + if m.op = .cap then 1 else 0 := by
  simp [capCount, List.countP_cons]

@[simp] theorem capCount_append (a b : List MicroStep) : capCount (a ++ b) = capCount a + capCount b := by
  simp [capCount]

@[simp] theorem runMicros_nil (ins : List Input) (s : State) : runMicros [] ins s = s := rfl

@[simp] theorem runMicros_cons (m : MicroStep) (r : List MicroStep) (ins : List Input) (s : State) :
    runMicros (m :: r) ins s = runMicros r (ins.drop (microCost m.op)) (effectOf m (ins.headD default).levels s) := rfl

theorem runMicros_append (a b : List MicroStep) (ins : List Input) (s : State) :
    runMicros (a ++ b) ins s = runMicros b (ins.drop (seqCost a)) (runMicros a ins s) := by
  induction a generalizing ins s with
  | nil => simp
  | cons m r ih => simp [ih, List.drop_drop]

theorem effectOf_rbSync (m : MicroStep) (levels : Latch) (s : State) :
    (effectOf m levels s).rbSync = s.rbSync := by
  cases m with | mk op ph => cases op <;> rfl

/-- The data bits of PIN do not depend on the synchroniser. -/
theorem pinData_eq (s : State) (levels : Latch) :
    s.pinData levels =
      ((s.busOut &&& s.dir.setWidth 14) ||| (levels &&& ~~~(s.dir.setWidth 14))).setWidth 8 := by
  simp only [State.pinData, State.pin]
  apply BitVec.eq_of_getLsbD_eq
  intro i hi
  have h14 : i < 14 := by omega
  rw [BitVec.getLsbD_setWidth, BitVec.getLsbD_setWidth]
  exact congrArg _ ((BitVec.getLsbD_append (i := i)).trans (if_pos h14))

theorem effectOf_moved {m : MicroStep} (levels : Latch) {s : State} (pc d : Nat) (p : PollState) {q : List Bool}
    (ins : List Input) (n : Nat) (h : Unsynced m ∨ q.getLastD false = s.rbS) :
    effectOf m levels (s.moved pc d p q ins n) = (effectOf m levels s).moved pc d p q ins n := by
  cases m with
  | mk op ph =>
    cases op with
    | rdl l =>
      have hq : q.getLastD false = s.rbS := h.resolve_left fun h => h.2 l rfl
      have hrb : (s.moved pc d p q ins n).rbS = s.rbS := hq
      have hpin : (s.moved pc d p q ins n).pin levels = s.pin levels := by
        simp only [State.pin, hrb]; rfl
      simp only [effectOf, State.microEffect, State.readLine, hpin]; rfl
    | cap => simp only [effectOf, State.microEffect, State.capture, pinData_eq]; rfl
    | rdd => simp only [effectOf, State.microEffect, State.readData, pinData_eq]; rfl
    | _ => rfl

theorem runMicros_moved (ms : List MicroStep) (ins : List Input) (s : State) (pc d : Nat) (p : PollState)
    (q : List Bool) (ins' : List Input) (n : Nat) (h : (∀ m ∈ ms, Unsynced m) ∨ q.getLastD false = s.rbS) :
    runMicros ms ins (s.moved pc d p q ins' n) = (runMicros ms ins s).moved pc d p q ins' n := by
  induction ms generalizing ins s with
  | nil => rfl
  | cons m r ih =>
    rw [runMicros_cons, runMicros_cons, effectOf_moved _ _ _ _ _ _ (h.imp_left fun h => h m (by simp)), ih]
    exact h.imp (fun h x hx => h x (by simp [hx])) fun h => by rw [h, State.rbS, State.rbS, effectOf_rbSync]

theorem complete_moved (s : State) (k : Completion) (pc d : Nat) (p : PollState) (q : List Bool) (ins : List Input)
    (n : Nat) : (s.moved pc d p q ins n).complete k = { s.complete k with rbSync := q, inputs := ins, cycle := n } := by
  cases k <;> simp only [State.complete, State.completionAction, State.moved, State.statusToRes, State.checkUid] <;>
    first | rfl | (cases h : s.rxbuf.getLast? <;> simp [State.failFromRes])

theorem complete_clock (s : State) (k : Completion) :
    (s.complete k).rbSync = s.rbSync ∧ (s.complete k).inputs = s.inputs ∧ (s.complete k).cycle = s.cycle := by
  cases k <;> simp only [State.complete, State.completionAction, State.statusToRes, State.checkUid] <;>
    first | exact ⟨rfl, rfl, rfl⟩ | (cases h : s.rxbuf.getLast? <;> simp [State.failFromRes])

theorem zeroRun_cons_eq_zero {m : MicroStep} {r : List MicroStep} : zeroRun (m :: r) = 0 ↔ m.op ≠ .dly 0 := by
  simp only [zeroRun]; split <;> simp_all

theorem zeroRun_le (ms : List MicroStep) : zeroRun ms ≤ ms.length := by
  induction ms with
  | nil => simp [zeroRun]
  | cons m r ih => simp only [zeroRun]; split <;> simp; omega

theorem zeroRun_drop (ms : List MicroStep) : zeroRun (ms.drop (zeroRun ms)) = 0 := by
  induction ms with
  | nil => rfl
  | cons m r ih =>
    by_cases h : m.op = .dly 0
    · simpa [zeroRun, h] using ih
    · simp [zeroRun, h]

/-- A DLY(0) takes no cycle, captures nothing and writes nothing but the PHASE update it may carry. -/
theorem drop_zeroRun (ms : List MicroStep) (hp : ∀ m ∈ ms, ∀ k, m.op = .dly k → m.phase = none) (ins : List Input)
    (s : State) :
    runMicros (ms.drop (zeroRun ms)) ins s = runMicros ms ins s ∧ seqCost (ms.drop (zeroRun ms)) = seqCost ms ∧
      capCount (ms.drop (zeroRun ms)) = capCount ms := by
  induction ms with
  | nil => simp [zeroRun]
  | cons m r ih =>
    by_cases h : m.op = .dly 0
    · have hm := hp m (by simp) 0 h
      obtain ⟨h1, h2, h3⟩ := ih fun x hx => hp x (by simp [hx])
      have he : ∀ lv, effectOf m lv s = s := fun lv => by
        simp only [effectOf, h, hm, State.microEffect, State.setPhase, Option.getD_none]
      simp only [zeroRun, h, if_true, List.drop_succ_cons, runMicros_cons, he]
      simp only [microCost, List.drop_zero, h1, true_and, seqCost_cons, h, h2, capCount_cons, h3]
      simp
    · simp [zeroRun, h]

/-! ### One cycle on a ready device -/

theorem syncAfter_append (q : List Bool) (a b : List Input) : syncAfter q (a ++ b) = syncAfter (syncAfter q a) b := by
  simp [syncAfter]

@[simp] theorem syncAfter_nil (q : List Bool) : syncAfter q [] = q := rfl

theorem syncAfter_length (q : List Bool) (a : List Input) : (syncAfter q a).length = q.length := by
  induction a generalizing q with
  | nil => rfl
  | cons i r ih => simp only [syncAfter, List.foldl_cons] at ih ⊢; rw [ih]; simp

theorem rbSync_ready {l : List Bool} (hne : l ≠ []) (h : ∀ b ∈ l, b = true) : l.getLastD false = true := by
  rw [List.getLastD_eq_getLast?, List.getLast?_eq_some_getLast hne]
  exact h _ (List.getLast_mem hne)

theorem rbSync_shift {l : List Bool} (h : ∀ b ∈ l, b = true) : (true :: l).dropLast = l := by
  have : l = List.replicate l.length true := List.eq_replicate_iff.2 ⟨rfl, h⟩
  rw [this, ← List.replicate_succ, List.dropLast_replicate]; simp

/-- While `rb` stays high a synchroniser that holds only 1 stays as it is. -/
theorem syncAfter_ready {q : List Bool} {a : List Input} (hq : ∀ b ∈ q, b = true) (ha : ∀ i ∈ a, i.rb = true) :
    syncAfter q a = q := by
  induction a with
  | nil => rfl
  | cons i r ih =>
    have : (i.rb :: q).dropLast = q := by rw [ha i (by simp)]; exact rbSync_shift hq
    simp only [syncAfter, List.foldl_cons, this] at ih ⊢
    exact ih fun x hx => ha x (by simp [hx])

/-- A quiet cycle of a running operation is one cycle of the sequencer and the edge. -/
theorem step_quiet {s : State} {i : Input} {rest : List Input} {c : CurOp} (hin : s.inputs = i :: rest)
    (hr : i.rst = false) (hh : i.host = .idle) (hc : s.cur = some c) :
    step s = andThen (s.seqCycle i.levels) fun s2 => .next (s2.tick i) := by
  have hb : s.busy = true := by simp [State.busy, hc]
  simp [step, State.input, hin, hr, hostCycle, hh, opwWrite, State.hostAccess, andThen, hb]

theorem runSteps_succ {s t : State} (n : Nat) (h : step s = .next t) : runSteps (n + 1) s = runSteps n t := by
  simp [runSteps, h, andThen]

theorem runSteps_add {s t : State} {a : Nat} (b : Nat) (h : runSteps a s = .next t) :
    runSteps (a + b) s = runSteps b t := by
  induction a generalizing s with
  | zero => simp only [runSteps, Host.Outcome.next.injEq] at h; simp [h]
  | succ a ih =>
    rw [Nat.succ_add]
    simp only [runSteps] at h ⊢
    cases hs : step s with
    | next s' => simp only [hs, andThen] at h ⊢; exact ih h
    | fault r => simp [hs, andThen] at h
    | refused r => simp [hs, andThen] at h

theorem QuietFor.of_le {s : State} {a b : Nat} (h : s.QuietFor b) (hab : a ≤ b) : s.QuietFor a :=
  ⟨by have := h.1; omega, fun i hi => h.2 i (List.take_subset_take_left _ hab hi)⟩

theorem ReadyFor.of_le {s : State} {a b : Nat} (h : s.ReadyFor b) (hab : a ≤ b) : s.ReadyFor a :=
  ⟨QuietFor.of_le h.1 hab, h.2.1, h.2.2.1, fun i hi => h.2.2.2 i (List.take_subset_take_left _ hab hi)⟩

/-- The first of the quiet cycles. -/
theorem QuietFor.head {s : State} {n : Nat} (h : s.QuietFor (n + 1)) :
    ∃ i rest, s.inputs = i :: rest ∧ i.rst = false ∧ i.host = .idle := by
  obtain ⟨hl, hq⟩ := h
  cases hs : s.inputs with
  | nil => simp [hs] at hl
  | cons i rest => exact ⟨i, rest, rfl, hq i (by simp [hs])⟩

theorem QuietFor.drop {s t : State} {n : Nat} (k : Nat) (h : s.QuietFor (k + n)) (hi : t.inputs = s.inputs.drop k) :
    t.QuietFor n := by
  obtain ⟨hl, hq⟩ := h
  refine ⟨by rw [hi, List.length_drop]; omega, fun x hx => hq x ?_⟩
  rw [hi, List.take_drop] at hx
  exact List.mem_of_mem_drop hx

theorem ReadyFor.drop {s t : State} {n : Nat} (k : Nat) (h : s.ReadyFor (k + n)) (hi : t.inputs = s.inputs.drop k)
    (hr : t.rbSync = syncAfter s.rbSync (s.inputs.take k)) : t.ReadyFor n := by
  obtain ⟨hq, h1, h2, h3⟩ := h
  have hs : syncAfter s.rbSync (s.inputs.take k) = s.rbSync :=
    syncAfter_ready h2 fun i hi => h3 i (List.take_subset_take_left _ (by omega) hi)
  refine ⟨QuietFor.drop k hq hi, by rw [hr, hs]; exact h1, by rw [hr, hs]; exact h2, fun x hx => h3 x ?_⟩
  rw [hi, List.take_drop] at hx
  exact List.mem_of_mem_drop hx

/-- In ready cycles the synchroniser does not move. -/
theorem ReadyFor.sync {s : State} {n : Nat} (h : s.ReadyFor n) : syncAfter s.rbSync (s.inputs.take n) = s.rbSync :=
  syncAfter_ready h.2.2.1 h.2.2.2

theorem ReadyFor.rbS {s : State} {n : Nat} (h : s.ReadyFor n) : s.rbS = true := rbSync_ready h.2.1 h.2.2.1

/-! ### One cycle of the sequencer -/

theorem getElem?_of_drop {l : List MicroStep} {n : Nat} {m : MicroStep} {r : List MicroStep} (h : l.drop n = m :: r) :
    l[n]? = some m := by
  have := congrArg (·[0]?) h
  simpa using this

theorem drop_succ_of_drop {l : List MicroStep} {n : Nat} {m : MicroStep} {r : List MicroStep} (h : l.drop n = m :: r) :
    l.drop (n + 1) = r := by
  have := congrArg (List.drop 1) h
  simpa [List.drop_drop, Nat.add_comm] using this

theorem settle_of_zeroRun {s : State} {c : CurOp} (h : zeroRun (c.seq.drop s.seqPc) = 0) : s.settle c = s := by
  simp [State.settle, skipZero, h]

/-- At a micro-operation that takes a cycle, the sequencer's cycle is that micro-operation's. -/
theorem seqCycle_at {s : State} {c : CurOp} {m : MicroStep} {r : List MicroStep} (levels : Latch) (hc : s.cur = some c)
    (hd : c.seq.drop s.seqPc = m :: r) (hz : zeroRun (m :: r) = 0) :
    s.seqCycle levels = s.microCycle c m levels := by
  have hs : s.settle c = s := settle_of_zeroRun (by rw [hd, hz])
  simp [State.seqCycle, hc, hs, getElem?_of_drop hd]

/-- The last cycle of a micro-operation writes its effect and moves on. -/
theorem microCycle_end {s : State} {c : CurOp} {m : MicroStep} (levels : Latch) (he : s.microEnds m.op = true)
    (hroom : m.op = .cap → s.rxLen < s.cfg.rxDepth) :
    s.microCycle c m levels = .next ((effectOf m levels s).advance c (s.seqPc + 1)) := by
  have : ¬ (m.op = .cap ∧ s.cfg.rxDepth ≤ s.rxLen) := fun h => by have := hroom h.1; omega
  simp [State.microCycle, this, he, effectOf]

/-- A cycle that is not its micro-operation's last only counts DLYCNT down. -/
theorem microCycle_hold {s : State} {c : CurOp} {m : MicroStep} (levels : Latch) (he : s.microEnds m.op = false) :
    s.microCycle c m levels = .next { s with dlyCnt := s.dlyCnt - 1 } := by
  have : ¬ (m.op = .cap ∧ s.cfg.rxDepth ≤ s.rxLen) := fun h => by simp [h.1, State.microEnds] at he
  simp [State.microCycle, this, he]

/-- What `advance` does, with the rest of the sequence at hand. -/
theorem advance_eq {s : State} {c : CurOp} {n : Nat} {r : List MicroStep} (hd : c.seq.drop n = r) :
    s.advance c n =
      if zeroRun r < r.length then s.beginAt c.seq (n + zeroRun r) else s.complete c.completion := by
  have hl : r.length = c.seq.length - n := by rw [← hd, List.length_drop]
  have : (n + zeroRun r < c.seq.length) ↔ (zeroRun r < r.length) := by omega
  simp only [State.advance, skipZero, hd, this]

theorem effectOf_seqPc (m : MicroStep) (levels : Latch) (s : State) :
    (effectOf m levels s).seqPc = s.seqPc := by
  cases m with | mk op ph => cases op <;> rfl

theorem effectOf_cur (m : MicroStep) (levels : Latch) (s : State) : (effectOf m levels s).cur = s.cur := by
  cases m with | mk op ph => cases op <;> rfl

theorem effectOf_cfg (m : MicroStep) (levels : Latch) (s : State) : (effectOf m levels s).cfg = s.cfg := by
  cases m with | mk op ph => cases op <;> rfl

theorem effectOf_inputs (m : MicroStep) (levels : Latch) (s : State) :
    (effectOf m levels s).inputs = s.inputs := by
  cases m with | mk op ph => cases op <;> rfl

theorem effectOf_cycle (m : MicroStep) (levels : Latch) (s : State) : (effectOf m levels s).cycle = s.cycle := by
  cases m with | mk op ph => cases op <;> rfl

theorem effectOf_rxLen (m : MicroStep) (levels : Latch) (s : State) :
    (effectOf m levels s).rxLen = s.rxLen + if m.op = .cap then 1 else 0 := by
  cases m with | mk op ph => cases op <;> simp [effectOf, State.microEffect, State.rxLen]

/-- Where a run has got to: the evaluated state with the sequencer's position and the clock as given. -/
theorem moved_of_beginAt (s : State) (seq : List MicroStep) (n : Nat) :
    s.beginAt seq n = s.moved n (loadDly seq[n]?) (loadPoll seq[n]?) s.rbSync s.inputs s.cycle := rfl

theorem tick_moved (s : State) (pc d : Nat) (p : PollState) (q : List Bool) (ins : List Input) (n : Nat) (i : Input) :
    (s.moved pc d p q ins n).tick i = s.moved pc d p (i.rb :: q).dropLast ins.tail (n + 1) := rfl

/-- One more input. -/
theorem syncAfter_take_succ {q : List Bool} {ins : List Input} {k : Nat} {i : Input} {rest : List Input}
    (h : ins.drop k = i :: rest) :
    (i.rb :: syncAfter q (ins.take k)).dropLast = syncAfter q (ins.take (k + 1)) := by
  have hk : ins[k]? = some i := by have := congrArg (·[0]?) h; simpa using this
  rw [List.take_add_one, hk, syncAfter_append]; rfl

/-- DLYCNT runs out: a delay with `d + 1` cycles left, in quiet cycles, for `d` cycles. -/
theorem run_delay {c : CurOp} {k : Nat} {ph : Option Phase} {r : List MicroStep} (d : Nat) (s : State)
    (hc : s.cur = some c) (hd : c.seq.drop s.seqPc = ⟨.dly k, ph⟩ :: r) (hk : k ≠ 0) (hcnt : s.dlyCnt = d + 1)
    (hr : s.QuietFor d) :
    runSteps d s = .next (s.moved s.seqPc 1 s.pollSt (syncAfter s.rbSync (s.inputs.take d)) (s.inputs.drop d)
      (s.cycle + d)) := by
  induction d generalizing s with
  | zero => cases s; simp_all [runSteps, State.moved]
  | succ d ih =>
    obtain ⟨i, rest, hin, hq1, hq2⟩ := QuietFor.head hr
    have hz : zeroRun (⟨.dly k, ph⟩ :: r) = 0 := zeroRun_cons_eq_zero.2 (by simp [hk])
    have hs : step s = .next (s.moved s.seqPc (d + 1) s.pollSt (syncAfter s.rbSync (s.inputs.take 1)) s.inputs.tail
        (s.cycle + 1)) := by
      rw [step_quiet hin hq1 hq2 hc, seqCycle_at _ hc hd hz, microCycle_hold _ (by simp [State.microEnds, hcnt])]
      simp only [andThen, hcnt, Nat.add_sub_cancel, hin]
      rfl
    rw [runSteps_succ _ hs, ih]
    · simp only [State.moved, hin, ← syncAfter_append, List.take_succ_cons, List.take_zero, List.tail_cons,
        List.drop_succ_cons, List.singleton_append, Nat.add_assoc, Nat.add_comm 1 d]
    · exact hc
    · exact hd
    · rfl
    · exact QuietFor.drop 1 (by rw [Nat.add_comm]; exact hr) (by simp [State.moved])

/-- DLYCNT in the last cycle of a micro-operation. -/
def lastCount (op : MicroOp) (n : Nat) : Nat :=
  match op with
  | .dly _ => 1
  | .lines _ _ | .dirD _ | .dirAll _ | .poll | .cap | .rdl _ | .rdd => n

/-- The state in the last cycle of the first micro-operation of the rest of a sequence. -/
theorem run_to_last {c : CurOp} {m : MicroStep} {r : List MicroStep} (s : State) (hc : s.cur = some c)
    (hd : c.seq.drop s.seqPc = m :: r) (hop : m.op ≠ .dly 0) (hdly : s.dlyCnt = loadDly (some m))
    (hq : s.QuietFor (microCost m.op - 1)) :
    runSteps (microCost m.op - 1) s = .next (s.moved s.seqPc (lastCount m.op s.dlyCnt) s.pollSt
      (syncAfter s.rbSync (s.inputs.take (microCost m.op - 1))) (s.inputs.drop (microCost m.op - 1))
      (s.cycle + (microCost m.op - 1))) := by
  cases h : m.op with
  | dly k =>
    have hk : k ≠ 0 := fun hk => hop (by rw [h, hk])
    have hm : m = ⟨.dly k, m.phase⟩ := by cases m; simp_all
    have hcnt : s.dlyCnt = (k - 1) + 1 := by
      rw [hdly, hm]; simp only [loadDly]; omega
    simp only [microCost]
    rw [run_delay (k - 1) s hc (by rw [hd, hm]) hk hcnt (by simpa [h, microCost] using hq)]
    rfl
  | _ => rfl

/-- The rest of a sequence, in quiet cycles, the device ready if the sequence asks for it: after the cycles of its
micro-operations the operation is complete, and what they write has been written. -/
theorem run_suffix {c : CurOp} (len : Nat) : ∀ (ms : List MicroStep) (s : State), ms.length ≤ len → s.cur = some c →
    c.seq.drop s.seqPc = ms → ms ≠ [] → zeroRun ms = 0 → s.dlyCnt = loadDly ms.head? →
    (∀ m ∈ ms, ∀ k, m.op = .dly k → m.phase = none) → s.QuietFor (seqCost ms) →
    ((∀ m ∈ ms, Unsynced m) ∨ s.ReadyFor (seqCost ms)) → s.rxLen + capCount ms ≤ s.cfg.rxDepth →
    runSteps (seqCost ms) s =
      .next { (runMicros ms s.inputs s).complete c.completion with
              rbSync := syncAfter s.rbSync (s.inputs.take (seqCost ms))
              inputs := s.inputs.drop (seqCost ms)
              cycle := s.cycle + seqCost ms } := by
  induction len with
  | zero => intro ms s hl _ _ hne; cases ms <;> simp_all
  | succ len ih =>
    intro ms s hl hc hd hne hz hdly hp hq hr hroom
    cases ms with
    | nil => exact absurd rfl hne
    | cons m r =>
    have hop : m.op ≠ .dly 0 := zeroRun_cons_eq_zero.1 hz
    have hcost : 1 ≤ microCost m.op := by
      cases h : m.op <;> simp [microCost]
      case dly k => rw [h] at hop; simp at hop; omega
    obtain ⟨k, hk⟩ : ∃ k, microCost m.op = k + 1 := ⟨microCost m.op - 1, by omega⟩
    have hsum : seqCost (m :: r) = k + (seqCost r + 1) := by rw [seqCost_cons]; omega
    rw [hsum] at hq hr ⊢
    have hrun1 := run_to_last s hc hd hop hdly (QuietFor.of_le hq (by omega))
    rw [hk, Nat.add_sub_cancel] at hrun1
    obtain ⟨s1, hs1⟩ : ∃ s1 : State, s1 = s.moved s.seqPc (lastCount m.op s.dlyCnt) s.pollSt
        (syncAfter s.rbSync (s.inputs.take k)) (s.inputs.drop k) (s.cycle + k) := ⟨_, rfl⟩
    rw [← hs1] at hrun1
    have hc1 : s1.cur = some c := by rw [hs1]; exact hc
    have hd1 : c.seq.drop s1.seqPc = m :: r := by rw [hs1]; exact hd
    have hq1 : s1.QuietFor (seqCost r + 1) := QuietFor.drop k hq (by rw [hs1]; rfl)
    have hr1 : (∀ x ∈ m :: r, Unsynced x) ∨ s1.ReadyFor (seqCost r + 1) :=
      hr.imp_right fun h => ReadyFor.drop k h (by rw [hs1]; rfl) (by rw [hs1]; rfl)
    obtain ⟨i, rest, hin, hqi1, hqi2⟩ := QuietFor.head hq1
    have hdrop : s.inputs.drop k = i :: rest := by rw [hs1] at hin; exact hin
    have hends : s1.microEnds m.op = true := by
      cases h : m.op with
      | dly j => simp [State.microEnds, hs1, h, State.moved, lastCount]
      | poll =>
        rcases hr1 with hu | hr1
        · exact absurd h (hu m (by simp)).1
        · exact ReadyFor.rbS hr1
      | _ => rfl
    have hroom1 : m.op = .cap → s1.rxLen < s1.cfg.rxDepth := by
      intro h; rw [hs1]; simp only [State.rxLen, State.moved] at hroom ⊢; simp [h] at hroom; omega
    have hstep : step s1 = .next (((effectOf m i.levels s1).advance c (s1.seqPc + 1)).tick i) := by
      rw [step_quiet hin hqi1 hqi2 hc1, seqCycle_at _ hc1 hd1 hz, microCycle_end _ hends hroom1]; rfl
    have hdr : c.seq.drop (s1.seqPc + 1) = r := drop_succ_of_drop hd1
    have heff : effectOf m i.levels s = effectOf m (s.inputs.headD default).levels s := by
      cases m with
      | mk op ph =>
        cases op with
        | dly j => rfl
        | _ =>
          simp only [microCost] at hk
          obtain rfl : k = 0 := by omega
          simp only [List.drop_zero] at hdrop
          rw [hdrop]; rfl
    have hsyn : Unsynced m ∨ (syncAfter s.rbSync (s.inputs.take k)).getLastD false = s.rbS := by
      rcases hr with hu | hr
      · exact .inl (hu m (by simp))
      · right; rw [ReadyFor.sync (ReadyFor.of_le hr (by omega : k ≤ _))]; rfl
    have hs1e : effectOf m i.levels s1 = (effectOf m (s.inputs.headD default).levels s).moved s.seqPc
        (lastCount m.op s.dlyCnt) s.pollSt (syncAfter s.rbSync (s.inputs.take k)) (s.inputs.drop k) (s.cycle + k) := by
      rw [hs1, effectOf_moved _ _ _ _ _ _ hsyn, heff]
    have hpr : ∀ x ∈ r, ∀ k, x.op = .dly k → x.phase = none := fun x hx => hp x (by simp [hx])
    rw [runSteps_add _ hrun1, runSteps_succ _ hstep, advance_eq hdr]
    obtain ⟨hz1, hz2, hz3⟩ := drop_zeroRun r hpr (s.inputs.drop (microCost m.op))
      (effectOf m (s.inputs.headD default).levels s)
    by_cases hlt : zeroRun r < r.length
    · rw [if_pos hlt]
      obtain ⟨s2, hs2⟩ : ∃ s2 : State, s2 = (effectOf m (s.inputs.headD default).levels s).moved
          (s1.seqPc + 1 + zeroRun r) (loadDly c.seq[s1.seqPc + 1 + zeroRun r]?)
          (loadPoll c.seq[s1.seqPc + 1 + zeroRun r]?) (syncAfter s.rbSync (s.inputs.take (k + 1)))
          (s.inputs.drop (k + 1)) (s.cycle + (k + 1)) := ⟨_, rfl⟩
      have htick : ((effectOf m i.levels s1).beginAt c.seq (s1.seqPc + 1 + zeroRun r)).tick i = s2 := by
        rw [hs1e, moved_of_beginAt, tick_moved, hs2]
        simp only [State.moved, List.tail_drop, syncAfter_take_succ hdrop, Nat.add_assoc]
      have hdr2 : c.seq.drop (s1.seqPc + 1 + zeroRun r) = r.drop (zeroRun r) := by rw [← hdr, List.drop_drop]
      have hlen : (r.drop (zeroRun r)).length ≤ len := by
        simp only [List.length_drop]; simp only [List.length_cons] at hl; omega
      have h2in : s2.inputs = s.inputs.drop (k + 1) := by rw [hs2]; rfl
      have h2rb : s2.rbSync = syncAfter s.rbSync (s.inputs.take (k + 1)) := by rw [hs2]; rfl
      have hgoal := ih (r.drop (zeroRun r)) s2 hlen
        (by rw [hs2]; exact (effectOf_cur ..).trans hc)
        (by rw [hs2]; exact hdr2)
        (by intro h0; have := congrArg List.length h0; simp at this; omega)
        (zeroRun_drop r)
        (by rw [hs2, List.head?_drop, ← hdr, List.getElem?_drop]; rfl)
        (fun x hx => hpr x (List.mem_of_mem_drop hx))
        (by rw [hz2]; exact QuietFor.drop (k + 1) (by rw [show k + 1 + seqCost r = k + (seqCost r + 1) by omega]; exact hq) h2in)
        (by
          rw [hz2]
          refine hr.imp (fun h x hx => h x (by simp [List.mem_of_mem_drop hx])) fun h => ?_
          exact ReadyFor.drop (k + 1) (by rw [show k + 1 + seqCost r = k + (seqCost r + 1) by omega]; exact h) h2in h2rb)
        (by
          rw [hz3, hs2]
          show (effectOf m _ s).rxLen + _ ≤ (effectOf m _ s).cfg.rxDepth
          rw [effectOf_rxLen, effectOf_cfg]; simp only [capCount_cons] at hroom; omega)
      rw [htick]
      rw [hz2] at hgoal
      have hsyn2 : (∀ x ∈ r.drop (zeroRun r), Unsynced x) ∨ (syncAfter s.rbSync (s.inputs.take (k + 1))).getLastD false =
          (effectOf m (s.inputs.headD default).levels s).rbS := by
        refine hr.imp (fun h x hx => h x (by simp [List.mem_of_mem_drop hx])) fun h => ?_
        rw [ReadyFor.sync (ReadyFor.of_le h (by omega : k + 1 ≤ _)), State.rbS, effectOf_rbSync]
      rw [hgoal, hs2, runMicros_moved _ _ _ _ _ _ _ _ _ hsyn2, complete_moved]
      rw [hk] at hz1
      simp only [State.moved, hz1, List.drop_drop, runMicros_cons, hk, ← syncAfter_append, ← List.take_add]
      rw [show k + 1 + seqCost r = k + (seqCost r + 1) by omega,
        show s.cycle + (k + 1) + seqCost r = s.cycle + (k + (seqCost r + 1)) by omega]
    · rw [if_neg hlt]
      have hend : zeroRun r = r.length := by have := zeroRun_le r; omega
      rw [hend, List.drop_length] at hz1 hz2
      simp only [seqCost_nil] at hz2
      simp only [runMicros_nil] at hz1
      rw [hs1e, complete_moved, ← hz2]
      simp only [runSteps, runMicros_cons, ← hz1, State.tick, List.tail_drop, Host.Outcome.next.injEq,
        syncAfter_take_succ hdrop]
      rw [Nat.zero_add, Nat.add_assoc]

/-- A first cycle passes over the DLY(0) that stand first: it is the cycle of the state that begins after them. -/
theorem seqCycle_settled {s : State} {c : CurOp} (levels : Latch) (hc : s.cur = some c) :
    (s.settle c).seqCycle levels = s.seqCycle levels := by
  have h1 : (s.settle c).cur = some c := by simp only [State.settle]; split <;> exact hc
  have h2 : (s.settle c).settle c = s.settle c := by
    by_cases h : skipZero c.seq s.seqPc = s.seqPc
    · simp [State.settle, h]
    · simp only [State.settle, if_neg h]
      refine if_pos ?_
      show skipZero c.seq (skipZero c.seq s.seqPc) = skipZero c.seq s.seqPc
      simp only [skipZero, ← List.drop_drop, zeroRun_drop, Nat.add_zero]
  have h3 : (s.settle c).complete c.completion = s.complete c.completion := by
    simp only [State.settle]
    split
    · rfl
    · rw [moved_of_beginAt, complete_moved]
      obtain ⟨h1, h2, h3⟩ := complete_clock s c.completion
      rw [← h1, ← h2, ← h3]
  simp only [State.seqCycle, h1, hc, h2, h3]

/-- An accepted operation, in quiet cycles, the device ready if it asks for that: after its cycles, at least one, it is
complete, and what its micro-operations write has been written. -/
theorem run_accepted (s : State) (op : Instr) (seq : List MicroStep) (k : Completion)
    (hp : ∀ m ∈ seq, ∀ j, m.op = .dly j → m.phase = none) (hq : s.QuietFor (max 1 (seqCost seq)))
    (hr : (∀ m ∈ seq, Unsynced m) ∨ s.ReadyFor (max 1 (seqCost seq))) (hroom : capCount seq ≤ s.cfg.rxDepth) :
    runSteps (max 1 (seqCost seq)) (s.accept op seq k) =
      .next { (runMicros seq s.inputs (s.accept op seq k)).complete k with
              rbSync := syncAfter s.rbSync (s.inputs.take (max 1 (seqCost seq)))
              inputs := s.inputs.drop (max 1 (seqCost seq))
              cycle := s.cycle + max 1 (seqCost seq) } := by
  obtain ⟨t, ht⟩ : ∃ t : State, t = s.accept op seq k := ⟨_, rfl⟩
  obtain ⟨c, hc⟩ : ∃ c, t.cur = some c := ⟨_, by rw [ht]; rfl⟩
  have hseq : c.seq = seq ∧ c.completion = k := by
    rw [ht] at hc; simp only [State.accept, Option.some.injEq] at hc; rw [← hc]; exact ⟨rfl, rfl⟩
  obtain ⟨rfl, rfl⟩ := hseq
  have hin : t.inputs = s.inputs ∧ t.cycle = s.cycle ∧ t.rbSync = s.rbSync ∧ t.cfg = s.cfg ∧ t.rxLen = 0 := by
    rw [ht]; exact ⟨rfl, rfl, rfl, rfl, rfl⟩
  obtain ⟨hin, hcy, hrb, hcfg, hrx⟩ := hin
  have hpc : t.seqPc = 0 ∧ t.dlyCnt = loadDly c.seq[0]? ∧ t.pollSt = loadPoll c.seq[0]? := by rw [ht]; exact ⟨rfl, rfl, rfl⟩
  rw [← ht, ← hin, ← hcy, ← hrb]
  have hqt : t.QuietFor (max 1 (seqCost c.seq)) := QuietFor.drop 0 (by simpa using hq) (by simpa using hin)
  have hrt : (∀ m ∈ c.seq, Unsynced m) ∨ t.ReadyFor (max 1 (seqCost c.seq)) :=
    hr.imp_right fun h => ReadyFor.drop 0 (by simpa using h) (by simpa using hin) (by simpa using hrb)
  obtain ⟨n, hn⟩ : ∃ n, max 1 (seqCost c.seq) = n + 1 := ⟨max 1 (seqCost c.seq) - 1, by omega⟩
  obtain ⟨i, rest, hi, hqi1, hqi2⟩ := QuietFor.head (hn ▸ hqt)
  obtain ⟨hz1, hz2, hz3⟩ := drop_zeroRun c.seq hp t.inputs t
  have hst : t.settle c = t.moved (zeroRun c.seq) (loadDly c.seq[zeroRun c.seq]?) (loadPoll c.seq[zeroRun c.seq]?)
      t.rbSync t.inputs t.cycle := by
    by_cases h : zeroRun c.seq = 0
    · rw [settle_of_zeroRun (by rw [hpc.1]; exact h), h, ← hpc.2.1, ← hpc.2.2]
      simp only [State.moved, ← hpc.1]
    · have hsk : skipZero c.seq t.seqPc = zeroRun c.seq := by simp [skipZero, hpc.1]
      rw [State.settle, hsk, if_neg (by rw [hpc.1]; exact h)]; rfl
  have hcs : (t.settle c).cur = some c := by rw [hst]; exact hc
  have his : (t.settle c).inputs = i :: rest := by rw [hst]; exact hi
  have hstep : step t = step (t.settle c) := by
    rw [step_quiet hi hqi1 hqi2 hc, step_quiet his hqi1 hqi2 hcs, seqCycle_settled _ hc]
  have hrun : runSteps (max 1 (seqCost c.seq)) t = runSteps (max 1 (seqCost c.seq)) (t.settle c) := by
    rw [hn]; simp only [runSteps, hstep]
  rw [hrun]
  by_cases hlt : zeroRun c.seq < c.seq.length
  · have hpos : 1 ≤ seqCost c.seq := by
      rw [← hz2]
      have hzd := zeroRun_drop c.seq
      cases hd : c.seq.drop (zeroRun c.seq) with
      | nil => have := congrArg List.length hd; simp at this; omega
      | cons m r =>
        rw [hd] at hzd
        have hop := zeroRun_cons_eq_zero.1 hzd
        cases h : m.op with
        | dly j => rw [h] at hop; simp [h, microCost]; simp at hop; omega
        | _ => simp [h, microCost]
    have hmax : max 1 (seqCost c.seq) = seqCost c.seq := by omega
    rw [hmax] at hqt hrt ⊢
    have := run_suffix (c.seq.drop (zeroRun c.seq)).length _ (t.settle c) le_rfl hcs (by rw [hst]; rfl)
      (by intro h0; have := congrArg List.length h0; simp at this; omega) (zeroRun_drop _)
      (by rw [hst, List.head?_drop]; rfl) (fun x hx => hp x (List.mem_of_mem_drop hx))
      (by rw [hz2, hst]; exact hqt)
      (by rw [hz2, hst]; exact hrt.imp (fun h x hx => h x (List.mem_of_mem_drop hx)) id)
      (by rw [hz3, hst]; show t.rxLen + _ ≤ t.cfg.rxDepth; rw [hrx, hcfg]; omega)
    rw [hz2] at this
    have hsyn : (∀ x ∈ c.seq.drop (zeroRun c.seq), Unsynced x) ∨ t.rbSync.getLastD false = t.rbS := .inr rfl
    rw [this, hst, runMicros_moved _ _ _ _ _ _ _ _ _ hsyn, complete_moved]
    simp only [State.moved, hz1]
  · have hend : zeroRun c.seq = c.seq.length := by have := zeroRun_le c.seq; omega
    rw [hend, List.drop_length] at hz1 hz2
    simp only [seqCost_nil] at hz2
    simp only [runMicros_nil] at hz1
    rw [← hz2, ← hz1]
    simp only [Nat.max_zero, runSteps]
    rw [step_quiet his hqi1 hqi2 hcs, seqCycle_settled _ hc]
    have hcyc : t.seqCycle i.levels = .next (t.complete c.completion) := by
      have hnone : c.seq[(t.settle c).seqPc]? = none := by
        rw [hst]; show c.seq[zeroRun c.seq]? = none
        rw [hend]; simp
      simp only [State.seqCycle, hc, hnone]
    rw [hcyc]
    obtain ⟨h1, h2, h3⟩ := complete_clock t c.completion
    simp only [andThen, State.tick, h1, h2, h3, hi]
    rfl

/-- An operation of one micro-operation of one cycle that does not wait, in one quiet cycle. -/
theorem run_single (s : State) (op : Instr) (m : MicroStep) (k : Completion) (hcost : microCost m.op = 1)
    (hpoll : m.op ≠ .poll) (hq : s.QuietFor 1) (hroom : capCount [m] ≤ s.cfg.rxDepth) :
    runSteps 1 (s.accept op [m] k) =
      .next { (effectOf m (s.inputs.getD 0 default).levels (s.accept op [m] k)).complete k with
              rbSync := syncAfter s.rbSync (s.inputs.take 1)
              inputs := s.inputs.drop 1
              cycle := s.cycle + 1 } := by
  obtain ⟨i, rest, hi, hq1, hq2⟩ := QuietFor.head hq
  obtain ⟨t, ht⟩ : ∃ t : State, t = s.accept op [m] k := ⟨_, rfl⟩
  obtain ⟨c, hc, hcs, hck⟩ : ∃ c, t.cur = some c ∧ c.seq = [m] ∧ c.completion = k := ⟨_, by rw [ht]; rfl, rfl, rfl⟩
  have hin : t.inputs = i :: rest := by rw [ht]; exact hi
  have hz : zeroRun [m] = 0 := zeroRun_cons_eq_zero.2 fun h => by rw [h] at hcost; simp [microCost] at hcost
  have hd : c.seq.drop t.seqPc = [m] := by rw [hcs, ht]; rfl
  have hends : t.microEnds m.op = true := by
    cases h : m.op with
    | dly j => rw [h] at hcost; simp [microCost] at hcost; rw [ht]; simp [State.microEnds, State.accept, loadDly]; cases m; simp_all
    | poll => exact absurd h hpoll
    | _ => rfl
  rw [← ht]
  simp only [runSteps, andThen]
  rw [step_quiet hin hq1 hq2 hc, seqCycle_at _ hc hd hz, microCycle_end _ hends (fun h => by
    have : t.rxLen = 0 ∧ t.cfg = s.cfg := by rw [ht]; exact ⟨rfl, rfl⟩
    rw [this.1, this.2]; simp [h] at hroom; omega), advance_eq (r := []) (by rw [hcs, ht]; rfl)]
  simp only [zeroRun, List.length_nil, Nat.lt_irrefl, if_false, andThen, hck]
  obtain ⟨h1, h2, h3⟩ := complete_clock (effectOf m i.levels t) k
  have h4 : t.inputs = s.inputs ∧ t.rbSync = s.rbSync ∧ t.cycle = s.cycle := by rw [ht]; exact ⟨rfl, rfl, rfl⟩
  simp only [State.tick, h1, h2, h3, effectOf_inputs, effectOf_rbSync, effectOf_cycle, h4, hi]
  rfl

/-- An operation that is one POLL: it lasts until RB_S is 1, and writes nothing. -/
theorem run_poll (n : Nat) (s : State) {c : CurOp} (hc : s.cur = some c)
    (hseq : c.seq = [⟨.poll, none⟩]) (hk : c.completion = .plain) (hpc : s.seqPc = 0) (hd : s.dlyCnt = 0)
    (hq : s.QuietFor (n + 1))
    (hlow : ∀ k, k < n → (syncAfter s.rbSync (s.inputs.take k)).getLastD false = false)
    (hhigh : (syncAfter s.rbSync (s.inputs.take n)).getLastD false = true) :
    runSteps (n + 1) s =
      .next { s.complete .plain with
              rbSync := syncAfter s.rbSync (s.inputs.take (n + 1))
              inputs := s.inputs.drop (n + 1)
              cycle := s.cycle + (n + 1) } := by
  induction n generalizing s with
  | zero =>
    obtain ⟨i, rest, hin, hq1, hq2⟩ := QuietFor.head hq
    have hrb : s.rbS = true := hhigh
    have hdr : c.seq.drop s.seqPc = [⟨.poll, none⟩] := by rw [hpc, hseq]; rfl
    have hs : step s = .next ((s.complete .plain).tick i) := by
      rw [step_quiet hin hq1 hq2 hc, seqCycle_at _ hc hdr rfl, microCycle_end _ (by exact hrb) (fun h => by cases h),
        advance_eq (r := []) (by rw [hseq, hpc]; rfl), hk]
      rfl
    have hin' : (s.complete .plain).inputs = i :: rest := hin
    rw [runSteps_succ _ hs]
    simp only [runSteps, State.tick, hin', hin]
    rfl
  | succ n ih =>
    obtain ⟨i, rest, hin, hq1, hq2⟩ := QuietFor.head hq
    have hrb : s.rbS = false := hlow 0 (by omega)
    have hdr : c.seq.drop s.seqPc = [⟨.poll, none⟩] := by rw [hpc, hseq]; rfl
    obtain ⟨t, ht⟩ : ∃ t : State, t = s.moved s.seqPc 0 s.pollSt (syncAfter s.rbSync (s.inputs.take 1)) s.inputs.tail
      (s.cycle + 1) := ⟨_, rfl⟩
    have hs : step s = .next t := by
      rw [step_quiet hin hq1 hq2 hc, seqCycle_at _ hc hdr rfl, microCycle_hold _ (by exact hrb), ht, hin]
      simp only [andThen, hd]
      rfl
    have h4 : t.inputs = s.inputs.drop 1 ∧ t.rbSync = syncAfter s.rbSync (s.inputs.take 1) ∧ t.cycle = s.cycle + 1 := by
      rw [ht]; exact ⟨by simp [State.moved], rfl, rfl⟩
    have hsy : ∀ k, syncAfter t.rbSync (t.inputs.take k) = syncAfter s.rbSync (s.inputs.take (k + 1)) := fun k => by
      rw [h4.1, h4.2.1, ← syncAfter_append, Nat.add_comm k 1, List.take_add]
    rw [runSteps_succ _ hs, ih t (by rw [ht]; exact hc) (by rw [ht]; exact hpc) (by rw [ht]; rfl)
      (QuietFor.drop 1 (by rw [Nat.add_comm]; exact hq) h4.1)
      (fun k hk => by rw [hsy]; exact hlow (k + 1) (by omega)) (by rw [hsy]; exact hhigh)]
    rw [hsy, h4.1, h4.2.2, ht, complete_moved]
    simp only [List.drop_drop, Nat.add_assoc]
    rw [Nat.add_comm 1 (n + 1)]

end Sys2Proof.Machine
end

