-- ==== Sys2Proof/Laws/Ops.lean ====
section
/-! SUPPORT. What each shared operation can do, said once: the start of an operation, the host's accesses, one cycle of the
sequencer, one step. Later proofs cite these and do not unfold the operations. -/

namespace Sys2Proof.Machine

/-! ### The start of an operation -/

/-- Starting an operation does one of three things: OVERRUN while one runs, acceptance inside the domain, BADARG outside
it. -/
theorem startOp_cases (op : Instr) (d : Bool) (seq : List MicroStep) (k : Completion) (s : State) :
    (s.busy = true ∧ startOp op d seq k s = .next (s.refuse .overrun)) ∨
    (s.busy = false ∧ d = true ∧ startOp op d seq k s = .next (s.accept op seq k)) ∨
    (s.busy = false ∧ d = false ∧ startOp op d seq k s = .next (s.refuse .badArg)) := by
  cases hb : s.busy <;> cases d <;> simp [startOp, hb]

theorem startOp_busy {op : Instr} {d : Bool} {seq : List MicroStep} {k : Completion} {s : State}
    (h : s.busy = true) : startOp op d seq k s = .next (s.refuse .overrun) := by simp [startOp, h]

theorem startOp_accepts {op : Instr} {d : Bool} {seq : List MicroStep} {k : Completion} {s : State}
    (h : s.busy = false) (hd : d = true) : startOp op d seq k s = .next (s.accept op seq k) := by
  simp [startOp, h, hd]

theorem startOp_refuses {op : Instr} {d : Bool} {seq : List MicroStep} {k : Completion} {s : State}
    (h : s.busy = false) (hd : d = false) : startOp op d seq k s = .next (s.refuse .badArg) := by
  simp [startOp, h, hd]

/-- The operation that runs for an operation of the table: a wire command runs as SENDCMD with its byte (log 8). -/
def runningOp : Instr → Instr
  | .nandReset => .sendcmd 0xFF#8
  | .nandResetLun => .sendcmd 0xFA#8
  | .nandReadId => .sendcmd 0x90#8
  | .nandReadUniqueId => .sendcmd 0xED#8
  | .nandReadStatus => .sendcmd 0x70#8
  | .nandReadStatusEnh => .sendcmd 0x78#8
  | .nandRead1 => .sendcmd 0x00#8
  | .nandRead2 => .sendcmd 0x30#8
  | .nandReadCacheNext => .sendcmd 0x31#8
  | .nandReadCacheLast => .sendcmd 0x3F#8
  | .nandChgRdCol1 => .sendcmd 0x05#8
  | .nandChgRdCol2 => .sendcmd 0xE0#8
  | .nandProgram1 => .sendcmd 0x80#8
  | .nandProgram2 => .sendcmd 0x10#8
  | .nandProgramCache => .sendcmd 0x15#8
  | .nandChgWrColRow => .sendcmd 0x85#8
  | .nandErase1 => .sendcmd 0x60#8
  | .nandErase2 => .sendcmd 0xD0#8
  | i => i

/-- The micro-operation sequence of an operation (00_scope.md R10). -/
def expand (i : Instr) (s : State) : List MicroStep :=
  match runningOp i with
  | .setline line value =>
    [plainStep (.lines (1#14 <<< line.toNat) ((BitVec.ofBool value).setWidth 14 <<< line.toNat))]
  | .readline line => [plainStep (.rdl line)]
  | .wrdata byte => [plainStep (.lines mD (byte.setWidth 14))]
  | .rddata => [plainStep .rdd]
  | .setdir dir => [plainStep (.dirD dir)]
  | .wait sel => waitSeq s.cfg sel
  | .sendcmd cmd => sendCommand s.cfg cmd
  | .sendaddr n => sendAddress s.cfg (addressBytes s n.toNat)
  | .senddata => sendData s.cfg s.txbuf
  | .recvdata => receiveData s.cfg s.len.toNat
  | .waitrdy => waitReady
  | .init => initSeq s.cfg
  | .reset => deviceReset s.cfg
  | .resetlun => resetLunSeq s.cfg (addressBytes s 3)
  | .rdmfid => readId s.cfg 0x00#8 8
  | .rdonfiid => readId s.cfg 0x20#8 4
  | .rdjedecid => readId s.cfg 0x40#8 5
  | .rduid => readUniqueIdSeq s.cfg
  | .rdstatus => readStatus s.cfg
  | .rdstatuse => readStatusEnhancedSeq s.cfg (addressBytes s 3)
  | .rdpage => readPage s.cfg (addressBytes s 5)
  | .chgrdcol => changeReadColumnSeq s.cfg (addressBytes s 2)
  | .chgwrcol => changeWriteColumnSeq s.cfg (addressBytes s 2)
  | .chgrow => changeRowAddressSeq s.cfg (addressBytes s 5)
  | .progpage => programPageSeq s.cfg (addressBytes s 5) s.txbuf
  | .progcache => programCacheSeq s s.pages.toNat
  | .erase => eraseSeq s.cfg (addressBytes s 3)
  | .perase => partialEraseSeq s.cfg (addressBytes s 3) s.len.toNat
  | .rdcacheseq => readCacheSeq s.cfg (addressBytes s 5) s.pages.toNat
  | _ => []

/-- The completion action of an operation (10_state.md R32). -/
def completionOf : Instr → Completion
  | .rduid => .uniqueId
  | .rdstatus | .rdstatuse => .status
  | .progpage | .progcache | .erase => .statusFail
  | _ => .plain

theorem selectDelay_isSome (sel : BitVec 4) : (selectDelay sel).isSome = decide (sel.toNat ≤ 11) := by
  revert sel; decide

/-- Every meaning is the start of its operation, with its sequence and its completion action, in its domain. -/
theorem exec_eq (i : Instr) (s : State) :
    ∃ d : Bool, (d = true ↔ DomainOk i s) ∧ exec i s = startOp (runningOp i) d (expand i s) (completionOf i) s := by
  cases i <;> refine ⟨_, ?_, rfl⟩ <;>
    simp [DomainOk, settableLine, readableLine, selectDelay_isSome, hasAddress, pagesInRange, and_assoc]

theorem exec_busy {i : Instr} {s : State} (h : s.busy = true) : exec i s = .next (s.refuse .overrun) := by
  obtain ⟨d, _, he⟩ := exec_eq i s
  rw [he, startOp_busy h]

theorem exec_accepts {i : Instr} {s : State} (h : s.busy = false) (hd : DomainOk i s) :
    exec i s = .next (s.accept (runningOp i) (expand i s) (completionOf i)) := by
  obtain ⟨d, hd', he⟩ := exec_eq i s
  rw [he, startOp_accepts h (hd'.2 hd)]

theorem exec_refuses {i : Instr} {s : State} (h : s.busy = false) (hd : ¬DomainOk i s) :
    exec i s = .next (s.refuse .badArg) := by
  obtain ⟨d, hd', he⟩ := exec_eq i s
  rw [he, startOp_refuses h (by simpa using mt hd'.1 hd)]

/-- What a meaning can do: it never stops, and answers one of three states. -/
theorem exec_cases (i : Instr) (s : State) :
    (s.busy = true ∧ exec i s = .next (s.refuse .overrun)) ∨
    (s.busy = false ∧ DomainOk i s ∧ exec i s = .next (s.accept (runningOp i) (expand i s) (completionOf i))) ∨
    (s.busy = false ∧ ¬DomainOk i s ∧ exec i s = .next (s.refuse .badArg)) := by
  cases hb : s.busy with
  | true => exact .inl ⟨rfl, exec_busy hb⟩
  | false =>
    by_cases hd : DomainOk i s
    · exact .inr (.inl ⟨rfl, hd, exec_accepts hb hd⟩)
    · exact .inr (.inr ⟨rfl, hd, exec_refuses hb hd⟩)

/-- The word written to OPW is no part of an operation's domain or sequence. -/
theorem latchOpw_domain (i : Instr) (s : State) (w : Word) : DomainOk i (s.latchOpw w) ↔ DomainOk i s := by
  cases hb : s.busy <;> cases i <;> simp [DomainOk, State.latchOpw, hb, State.aLen]

/-! ### The host's cycle -/

/-- While an operation runs the host's access touches OVERRUN and the read port alone (20_memory.md R62). -/
theorem hostCycle_busy {s : State} {i : Input} (h : s.busy = true) :
    ∃ o r, hostCycle s i = .next { s with overrun := o, rData := r } ∧ (o = true ∨ o = s.overrun ∨ o = false) := by
  cases ha : i.host with
  | idle => exact ⟨s.overrun, s.rData, by simp [hostCycle, ha, opwWrite, State.hostAccess], .inr (.inl rfl)⟩
  | read a =>
    refine ⟨s.overrun, s.hostValue (hostReg a) i.levels, ?_, .inr (.inl rfl)⟩
    simp [hostCycle, ha, opwWrite, State.hostAccess, State.hostRead, State.canPop, h]
  | write a w =>
    by_cases hr : hostReg a = .opw
    · refine ⟨true, s.rData, ?_, .inl rfl⟩
      simp only [hostCycle, ha, opwWrite, hr, if_true, issue, State.latchOpw, h]
      cases decodeOpw w with
      | ok j => simp [exec_busy h, State.refuse]
      | error e => simp [State.refuse]
    · have ho : ∃ o, s.hostWrite (hostReg a) w = { s with overrun := o } ∧ (o = true ∨ o = s.overrun ∨ o = false) := by
        cases hreg : hostReg a with
        | stat => exact ⟨_, rfl, by cases s.overrun && !w.getLsbD 5 <;> simp⟩
        | _ => exact ⟨s.overrun, by simp [State.hostWrite, h], .inr (.inl rfl)⟩
      obtain ⟨o, ho, hc⟩ := ho
      refine ⟨o, s.rData, ?_, hc⟩
      simp [hostCycle, ha, opwWrite, hr, State.hostAccess, ho]

/-! ### One cycle of the sequencer -/

/-- What one cycle of a running operation can do. -/
theorem seqCycle_cases {s t : State} {c : CurOp} {levels : Latch} (hc : s.cur = some c)
    (h : s.seqCycle levels = .next t) :
    (c.seq[(s.settle c).seqPc]? = none ∧ t = s.complete c.completion) ∨
    ∃ m, c.seq[(s.settle c).seqPc]? = some m ∧ (m.op = .cap → s.rxLen < s.cfg.rxDepth) ∧
      (((s.settle c).microEnds m.op = false ∧ t = { s.settle c with dlyCnt := (s.settle c).dlyCnt - 1 }) ∨
       ((s.settle c).microEnds m.op = true ∧
         t = (effectOf m levels (s.settle c)).advance c ((s.settle c).seqPc + 1))) := by
  have hset : (s.settle c).rxLen = s.rxLen ∧ (s.settle c).cfg = s.cfg := by
    simp only [State.settle]; split <;> exact ⟨rfl, rfl⟩
  simp only [State.seqCycle, hc] at h
  cases hm : c.seq[(s.settle c).seqPc]? with
  | none => rw [hm] at h; exact .inl ⟨rfl, by simpa using h.symm⟩
  | some m =>
    rw [hm] at h
    simp only [State.microCycle] at h
    split at h
    · cases h
    · rename_i hroom
      rw [hset.1, hset.2] at hroom
      refine .inr ⟨m, rfl, fun hcap => by by_contra hlt; exact hroom ⟨hcap, by omega⟩, ?_⟩
      split at h
      · rename_i he; exact .inr ⟨he, by simpa [effectOf] using h.symm⟩
      · rename_i he; exact .inl ⟨by simpa using he, by simpa using h.symm⟩

/-- One cycle of a running operation stops only in a CAP that finds RXBUF full. -/
theorem seqCycle_next {s : State} {c : CurOp} {levels : Latch} (hc : s.cur = some c)
    (hroom : ∀ m, c.seq[(s.settle c).seqPc]? = some m → m.op = .cap → s.rxLen < s.cfg.rxDepth) :
    ∃ t, s.seqCycle levels = .next t := by
  have hset : (s.settle c).rxLen = s.rxLen ∧ (s.settle c).cfg = s.cfg := by
    simp only [State.settle]; split <;> exact ⟨rfl, rfl⟩
  simp only [State.seqCycle, hc]
  cases hm : c.seq[(s.settle c).seqPc]? with
  | none => exact ⟨_, rfl⟩
  | some m =>
    simp only [State.microCycle]
    split
    · rename_i h
      have := hroom m hm h.1
      rw [hset.1, hset.2] at h
      omega
    · split <;> exact ⟨_, rfl⟩

/-! ### One step -/

/-- A step without rst, while an operation runs. -/
theorem step_busy {s : State} {c : CurOp} (hc : s.cur = some c) (hr : s.input.rst = false) :
    ∃ o r, step s = andThen (({ s with overrun := o, rData := r } : State).seqCycle s.input.levels)
      fun t => .next (t.tick s.input) := by
  have hb : s.busy = true := by simp [State.busy, hc]
  obtain ⟨o, r, ho, _⟩ := hostCycle_busy (i := s.input) hb
  exact ⟨o, r, by simp [step, hr, ho, andThen, hb]⟩

/-- A step without rst, while no operation runs. -/
theorem step_idle {s : State} (hc : s.cur = none) (hr : s.input.rst = false) :
    step s = andThen (hostCycle s s.input) fun t => .next (t.tick s.input) := by
  have hb : s.busy = false := by simp [State.busy, hc]
  simp only [step, hr, hb]
  cases hostCycle s s.input <;> rfl

/-- A step with rst is the hardware reset. -/
theorem step_rst {s : State} (hr : s.input.rst = true) : step s = .next s.hwReset := by
  simp [step, hr]

/-- What the host's cycle can do while no operation runs: never a stop. -/
theorem hostCycle_idle {s : State} {i : Input} (h : s.busy = false) :
    (∃ w j, opwWrite i.host = some w ∧ decodeOpw w = .ok j ∧ DomainOk j s ∧
      hostCycle s i = .next ((s.latchOpw w).accept (runningOp j) (expand j s) (completionOf j))) ∨
    (∃ w f, opwWrite i.host = some w ∧ f ≠ RefuseFlag.overrun ∧ hostCycle s i = .next ((s.latchOpw w).refuse f)) ∨
    (opwWrite i.host = none ∧ hostCycle s i = .next (s.hostAccess i.host i.levels)) := by
  cases ho : opwWrite i.host with
  | none => exact .inr (.inr ⟨rfl, by simp [hostCycle, ho]⟩)
  | some w =>
    have hl : (s.latchOpw w).busy = false := by simp only [State.latchOpw, h]; exact h
    cases hd : decodeOpw w with
    | error e => exact .inr (.inl ⟨w, .illOp, rfl, by simp, by simp [hostCycle, ho, issue, hd, h]⟩)
    | ok j =>
      by_cases hdom : DomainOk j (s.latchOpw w)
      · refine .inl ⟨w, j, rfl, hd, (latchOpw_domain ..).1 hdom, ?_⟩
        have : expand j (s.latchOpw w) = expand j s := by
          simp only [State.latchOpw, h]; cases j <;> rfl
        simp [hostCycle, ho, issue, hd, exec_accepts hl hdom, this]
      · exact .inr (.inl ⟨w, .badArg, rfl, by simp, by simp [hostCycle, ho, issue, hd, exec_refuses hl hdom]⟩)

end Sys2Proof.Machine
end

