-- ==== Sys2Proof/Laws/Frames.lean ====
section
/-! SUPPORT. What a cycle of the sequencer and a step leave alone, and what they do to the pins. -/

namespace Sys2Proof.Machine

/-- The fields that the sequencer never writes: the configuration, the host's registers and buffers, the refusal flags,
the read port, the synchroniser and the clock. -/
def SameHost (s t : State) : Prop :=
  (t.cfg = s.cfg ∧ t.opw = s.opw ∧ t.abuf = s.abuf ∧ t.txbuf = s.txbuf ∧ t.len = s.len ∧ t.pages = s.pages) ∧
  (t.illOp = s.illOp ∧ t.overrun = s.overrun ∧ t.badArg = s.badArg ∧ t.rData = s.rData) ∧
  t.rbSync = s.rbSync ∧ t.inputs = s.inputs ∧ t.cycle = s.cycle ∧ t.rxRd = s.rxRd

theorem SameHost.rfl' (s : State) : SameHost s s := by simp [SameHost]

theorem SameHost.trans {a b c : State} (h1 : SameHost a b) (h2 : SameHost b c) : SameHost a c := by
  simp only [SameHost] at *
  simp [h1, h2]

theorem effectOf_sameHost (m : MicroStep) (levels : Latch) (s : State) : SameHost s (effectOf m levels s) := by
  cases m with | mk op ph => cases op <;> simp [SameHost, effectOf, State.microEffect, State.setPhase, State.setLines,
    State.setDataDir, State.setDirAll, State.capture, State.readLine, State.readData]

theorem statusToRes_sameHost (s : State) : SameHost s s.statusToRes := by
  simp only [State.statusToRes]; split
  · simp [SameHost]
  · exact .rfl' s

theorem complete_sameHost (s : State) (k : Completion) : SameHost s (s.complete k) := by
  have h : SameHost s (s.completionAction k) := by
    cases k with
    | plain => exact .rfl' s
    | status => exact statusToRes_sameHost s
    | statusFail => exact (statusToRes_sameHost s).trans (c := s.statusToRes.failFromRes) (by simp [SameHost, State.failFromRes])
    | uniqueId => simp [SameHost, State.completionAction, State.checkUid]
  exact h.trans (by simp [SameHost, State.complete])

theorem settle_sameHost (s : State) (c : CurOp) : SameHost s (s.settle c) := by
  simp only [State.settle]; split
  · exact .rfl' s
  · simp [SameHost, State.beginAt]

theorem advance_sameHost (s : State) (c : CurOp) (n : Nat) : SameHost s (s.advance c n) := by
  simp only [State.advance]; split
  · simp [SameHost, State.beginAt]
  · exact complete_sameHost ..

/-- A cycle of the sequencer leaves the host's side alone. -/
theorem seqCycle_sameHost {s t : State} {levels : Latch} (h : s.seqCycle levels = .next t) : SameHost s t := by
  cases hc : s.cur with
  | none => simp only [State.seqCycle, hc, Host.Outcome.next.injEq] at h; subst h; exact .rfl' _
  | some c =>
    rcases seqCycle_cases hc h with ⟨_, rfl⟩ | ⟨m, _, _, ⟨_, rfl⟩ | ⟨_, rfl⟩⟩
    · exact complete_sameHost ..
    · exact (settle_sameHost s c).trans (by simp [SameHost])
    · exact ((settle_sameHost s c).trans (effectOf_sameHost ..)).trans (advance_sameHost ..)

/-- A step of a running operation, the host's access apart: the next state is that of one cycle of the sequencer. -/
theorem step_busy_inv {s t : State} {c : CurOp} (hc : s.cur = some c) (hr : s.input.rst = false) (h : step s = .next t) :
    ∃ s1 u, hostCycle s s.input = .next s1 ∧ (∃ o r, s1 = { s with overrun := o, rData := r }) ∧
      s1.seqCycle s.input.levels = .next u ∧ t = u.tick s.input := by
  have hb : s.busy = true := by simp [State.busy, hc]
  obtain ⟨o, r, ho, _⟩ := hostCycle_busy (i := s.input) hb
  obtain ⟨s1, hs1⟩ : ∃ s1 : State, s1 = { s with overrun := o, rData := r } := ⟨_, rfl⟩
  rw [← hs1] at ho
  have h' : andThen (s1.seqCycle s.input.levels) (fun u => .next (u.tick s.input)) = .next t := by
    simpa [step, hr, ho, hb, andThen] using h
  cases hu : s1.seqCycle s.input.levels with
  | next u => rw [hu] at h'; exact ⟨s1, u, ho, ⟨o, r, hs1⟩, hu, by simpa [andThen] using h'.symm⟩
  | fault f => rw [hu] at h'; cases h'
  | refused f => rw [hu] at h'; cases h'

/-- A step without an operation: the next state is that of the host's access. -/
theorem step_idle_inv {s t : State} (hc : s.cur = none) (hr : s.input.rst = false) (h : step s = .next t) :
    ∃ u, hostCycle s s.input = .next u ∧ t = u.tick s.input := by
  rw [step_idle hc hr] at h
  cases hu : hostCycle s s.input with
  | next u => rw [hu] at h; exact ⟨u, rfl, by simpa [andThen] using h.symm⟩
  | fault f => rw [hu] at h; cases h
  | refused f => rw [hu] at h; cases h

/-! ### The host's accesses by address -/

theorem hostReg_opw {a : BitVec 4} : hostReg a = .opw ↔ a = 0#4 := by revert a; decide

theorem hostReg_stat {a : BitVec 4} : hostReg a = .stat ↔ a = 1#4 := by revert a; decide

theorem opwWrite_some {h : HostAccess} {w : Word} : opwWrite h = some w ↔ h = .write 0#4 w := by
  cases h with
  | idle => simp [opwWrite]
  | read a => simp [opwWrite]
  | write a v =>
    simp only [opwWrite, hostReg_opw]
    by_cases ha : a = 0#4 <;> simp [ha]

theorem opwWrite_none {h : HostAccess} : opwWrite h = none ↔ ∀ w, h ≠ .write 0#4 w := by
  rw [← not_iff_not]
  simp only [not_forall, not_not, ← opwWrite_some]
  exact Option.ne_none_iff_exists'

/-- A host write that is not one of OPW or STAT leaves every flag alone. -/
theorem hostWrite_flags (s : State) (a : BitVec 4) (w : Word) (h1 : a ≠ 1#4) :
    (s.hostWrite (hostReg a) w).overrun = s.overrun := by
  have hs : hostReg a ≠ .stat := fun h => h1 (hostReg_stat.1 h)
  cases h : hostReg a <;> simp only [State.hostWrite] <;> first | exact absurd h hs | rfl | (split <;> rfl)

theorem hostWrite_refusals (s : State) (r : HostReg) (w : Word) :
    (s.hostWrite r w).illOp = s.illOp ∧ (s.hostWrite r w).badArg = s.badArg := by
  cases r <;> simp only [State.hostWrite] <;> first | exact ⟨rfl, rfl⟩ | exact ⟨trivial, trivial⟩ | (split <;> exact ⟨rfl, rfl⟩)

/-- What a host access does while an operation runs (20_memory.md R62): OVERRUN by a write of OPW or STAT, the read port by a
read, nothing else. -/
theorem hostCycle_busy_cases {s : State} {i : Input} (h : s.busy = true) :
    (∃ w, i.host = .write 0#4 w ∧ hostCycle s i = .next { s with overrun := true }) ∨
    (∃ w, i.host = .write 1#4 w ∧ hostCycle s i = .next { s with overrun := s.overrun && !w.getLsbD 5 }) ∨
    (∃ a, i.host = .read a ∧ hostCycle s i = .next { s with rData := s.hostValue (hostReg a) i.levels }) ∨
    ((i.host = .idle ∨ ∃ a w, i.host = .write a w ∧ a ≠ 0#4 ∧ a ≠ 1#4) ∧ hostCycle s i = .next s) := by
  cases ha : i.host with
  | idle => exact .inr (.inr (.inr ⟨.inl rfl, by simp [hostCycle, ha, opwWrite, State.hostAccess]⟩))
  | read a =>
    refine .inr (.inr (.inl ⟨a, rfl, ?_⟩))
    simp [hostCycle, ha, opwWrite, State.hostAccess, State.hostRead, State.canPop, h]
  | write a w =>
    by_cases h0 : a = 0#4
    · subst h0
      refine .inl ⟨w, rfl, ?_⟩
      simp only [hostCycle, ha, opwWrite, hostReg_opw.2 rfl, if_true, issue, State.latchOpw, h]
      cases decodeOpw w with
      | ok j => simp [exec_busy h, State.refuse]
      | error e => simp [State.refuse]
    · have hr : hostReg a ≠ .opw := fun h => h0 (hostReg_opw.1 h)
      have hc : hostCycle s i = .next (s.hostWrite (hostReg a) w) := by
        simp [hostCycle, ha, opwWrite, hr, State.hostAccess]
      by_cases h1 : a = 1#4
      · subst h1; exact .inr (.inl ⟨w, rfl, hc⟩)
      · refine .inr (.inr (.inr ⟨.inr ⟨a, w, rfl, h0, h1⟩, hc.trans ?_⟩))
        have hs : hostReg a ≠ .stat := fun h => h1 (hostReg_stat.1 h)
        cases hreg : hostReg a <;> simp only [State.hostWrite] <;> first | exact absurd hreg hs | simp [h]

/-- The fields that no host access but a write of OPW touches. -/
def SameCore (s t : State) : Prop :=
  (t.cfg = s.cfg ∧ t.busOut = s.busOut ∧ t.dir = s.dir ∧ t.phase = s.phase ∧ t.cur = s.cur ∧ t.seqPc = s.seqPc ∧
    t.pollSt = s.pollSt ∧ t.dlyCnt = s.dlyCnt) ∧
  (t.rbSync = s.rbSync ∧ t.opw = s.opw ∧ t.rxbuf = s.rxbuf ∧ t.res = s.res ∧ t.done = s.done ∧ t.fail = s.fail ∧
    t.uidWarn = s.uidWarn ∧ t.illOp = s.illOp ∧ t.badArg = s.badArg) ∧ t.inputs = s.inputs ∧ t.cycle = s.cycle

theorem hostWrite_sameCore (s : State) (r : HostReg) (w : Word) : SameCore s (s.hostWrite r w) := by
  cases r <;> simp only [State.hostWrite, SameCore] <;> first | simp | (split <;> simp)

theorem hostAccess_sameCore (s : State) (a : HostAccess) (levels : Latch) : SameCore s (s.hostAccess a levels) := by
  cases a with
  | idle => simp [SameCore, State.hostAccess]
  | read a => simp [SameCore, State.hostAccess, State.hostRead]
  | write a w => exact hostWrite_sameCore ..

end Sys2Proof.Machine
end

