-- ==== Sys2Proof/Laws/Sequences.lean ====
section
/-! SUPPORT. The sequences of the operations, piece by piece: their cycles, what they capture, where they poll, how PHASE
goes, and what they write when run one micro-operation after another. -/

namespace Sys2Proof.Machine

/-! ### The latch under a mask -/

theorem muxLines_getLsbD (mask val old : Latch) (i : Nat) :
    (muxLines mask val old).getLsbD i = if mask.getLsbD i then val.getLsbD i else old.getLsbD i := by
  by_cases hi : i < 14
  · simp only [muxLines, BitVec.getLsbD_or, BitVec.getLsbD_and, BitVec.getLsbD_not, hi, decide_true, Bool.true_and]
    cases mask.getLsbD i <;> simp
  · have hx : ∀ x : Latch, x.getLsbD i = false := fun x => BitVec.getLsbD_of_ge x i (by omega)
    simp only [hx, if_false, Bool.false_eq_true]

/-- A write that leaves the data field alone. -/
theorem muxLines_data_keep {mask : Latch} (val old : Latch) (h : mask.setWidth 8 = 0#8) :
    (muxLines mask val old).setWidth 8 = old.setWidth 8 := by
  apply BitVec.eq_of_getLsbD_eq
  intro i hi
  have := congrArg (·.getLsbD i) h
  simp only [BitVec.getLsbD_setWidth, hi, decide_true, Bool.true_and, BitVec.getLsbD_zero] at this
  simp only [BitVec.getLsbD_setWidth, hi, muxLines_getLsbD, this, decide_true, Bool.true_and, if_false, Bool.false_eq_true]

/-- A write of the whole data field. -/
theorem muxLines_data_write {mask : Latch} (val old : Latch) (h : mask.setWidth 8 = 0xFF#8) :
    (muxLines mask val old).setWidth 8 = val.setWidth 8 := by
  apply BitVec.eq_of_getLsbD_eq
  intro i hi
  have := congrArg (·.getLsbD i) h
  have h1 : (0xFF#8).getLsbD i = true := by
    have : ∀ j : Fin 8, (0xFF#8).getLsbD j = true := by decide
    exact this ⟨i, hi⟩
  simp only [BitVec.getLsbD_setWidth, hi, decide_true, Bool.true_and, h1] at this
  simp only [BitVec.getLsbD_setWidth, hi, muxLines_getLsbD, this, decide_true, Bool.true_and, if_true]

/-- WP stays when the mask leaves it out. -/
theorem muxLines_wp {mask : Latch} (val old : Latch) (h : mask.getLsbD 8 = false) :
    (muxLines mask val old).getLsbD 8 = old.getLsbD 8 := by
  rw [muxLines_getLsbD, h]; rfl

theorem lit_getLsbD_100 (i : Nat) : (0x0100#14).getLsbD i = decide (i = 8) := by
  by_cases hi : i < 14
  · have : ∀ j : Fin 14, (0x0100#14).getLsbD j = decide (j.val = 8) := by decide
    exact this ⟨i, hi⟩
  · rw [BitVec.getLsbD_of_ge _ i (by omega)]
    simp; omega

/-- The idle restore, from any lines (40_bus_interface.md R120). -/
theorem muxLines_restore (c : Config) (old : Latch) :
    muxLines (mD ||| mWE ||| mALE ||| mCLE ||| mCE ||| mRE) (mWE ||| mCE ||| mRE ||| c.dataIdle.setWidth 14) old =
      idleLines c old := by
  apply BitVec.eq_of_getLsbD_eq
  intro i hi
  have h : ∀ j : Fin 14, (mD ||| mWE ||| mALE ||| mCLE ||| mCE ||| mRE).getLsbD j = !decide (j.val = 8) ∧
      (mWE ||| mCE ||| mRE).getLsbD j = (0x3200#14).getLsbD j ∧ (j.val = 8 → (0x3200#14).getLsbD j = false) := by decide
  obtain ⟨h1, h2, h3⟩ := h ⟨i, hi⟩
  rw [muxLines_getLsbD, h1]
  simp only [idleLines, BitVec.getLsbD_or, BitVec.getLsbD_and, lit_getLsbD_100] at h2 ⊢
  by_cases h8 : i = 8
  · subst h8; simp
  · simp [h8, ← h2]

/-- The idle lines depend on WP alone. -/
theorem idleLines_congr (c : Config) {a b : Latch} (h : a.getLsbD 8 = b.getLsbD 8) : idleLines c a = idleLines c b := by
  apply BitVec.eq_of_getLsbD_eq
  intro i hi
  simp only [idleLines, BitVec.getLsbD_or, BitVec.getLsbD_and, lit_getLsbD_100]
  by_cases h8 : i = 8
  · subst h8; rw [h]
  · simp [h8]

theorem idleLines_wp (c : Config) (a : Latch) : (idleLines c a).getLsbD 8 = a.getLsbD 8 := by
  rw [← muxLines_restore, muxLines_wp _ _ (by decide)]

@[simp] theorem idleLines_idleLines (c : Config) (a : Latch) : idleLines c (idleLines c a) = idleLines c a :=
  idleLines_congr c (idleLines_wp c a)

@[simp] theorem idleLines_mux (c : Config) {mask : Latch} (val old : Latch) (h : mask.getLsbD 8 = false) :
    idleLines c (muxLines mask val old) = idleLines c old :=
  idleLines_congr c (muxLines_wp val old h)

/-! ### What the pieces write -/

/-- The fields that micro-operations other than RDL and RDD write. -/
def State.onPins (s : State) (o : Latch) (d : Lines15) (p : Phase) (rx : List Byte) : State :=
  { s with busOut := o, dir := d, phase := p, rxbuf := rx }

theorem State.onPins_self (s : State) : s.onPins s.busOut s.dir s.phase s.rxbuf = s := rfl

section
variable (c : Config) (s : State) (o : Latch) (d : Lines15) (p : Phase) (rx : List Byte) (ins : List Input)

theorem effectOf_lines (mask val : Latch) (q : Option Phase) (levels : Latch) :
    effectOf ⟨.lines mask val, q⟩ levels (s.onPins o d p rx) = s.onPins (muxLines mask val o) d (q.getD p) rx := rfl

theorem effectOf_dirD (e : Direction) (q : Option Phase) (levels : Latch) :
    effectOf ⟨.dirD e, q⟩ levels (s.onPins o d p rx) = s.onPins o (dirWithData e d) (q.getD p) rx := rfl

theorem effectOf_dirAll (v levels : Latch) :
    effectOf ⟨.dirAll v, none⟩ levels (s.onPins o d p rx) = s.onPins o (dirWithAll v) p rx := rfl

theorem effectOf_dly (k : Nat) (levels : Latch) : effectOf ⟨.dly k, none⟩ levels s = s := rfl

theorem effectOf_poll (levels : Latch) : effectOf ⟨.poll, none⟩ levels s = s := rfl

theorem effectOf_cap (levels : Latch) :
    effectOf ⟨.cap, none⟩ levels (s.onPins o d p rx) =
      s.onPins o d p (rx ++ [(s.onPins o d p rx).pinData levels]) := rfl

@[simp] theorem runMicros_wait (e : Delay) : runMicros (wait c e) ins s = s := rfl

@[simp] theorem runMicros_waitReady : runMicros waitReady ins s = s := rfl

@[simp] theorem runMicros_dly (k : Nat) : runMicros [plainStep (.dly k)] ins s = s := rfl

/-- sendCommand leaves the lines at idle and PHASE Idle, and writes nothing else (42_phase_engine.md R141). -/
@[simp] theorem runMicros_sendCommand (b : Byte) :
    runMicros (sendCommand c b) ins (s.onPins o d p rx) = s.onPins (idleLines c o) d .idle rx := by
  simp only [sendCommand, plainStep, phaseStep, restoreIdle, runMicros_cons, runMicros_nil, effectOf_lines, effectOf_dly,
    muxLines_restore, Option.getD_some, Option.getD_none]
  rw [idleLines_mux _ _ _ (by decide), idleLines_mux _ _ _ (by decide), idleLines_mux _ _ _ (by decide),
    idleLines_mux _ _ _ (by decide)]

/-- The bytes of a sendAddress or sendData move lines and nothing else, WP left alone. -/
theorem runMicros_writeBytes (a : List Byte) :
    ∃ b, runMicros (a.flatMap (writeByte c)) ins (s.onPins o d p rx) = s.onPins b d p rx ∧
      b.getLsbD 8 = o.getLsbD 8 := by
  induction a generalizing ins o with
  | nil => exact ⟨o, rfl, rfl⟩
  | cons x r ih =>
    rw [List.flatMap_cons, runMicros_append]
    obtain ⟨b, hb, hw⟩ := ih (muxLines mWE mWE (muxLines mD (x.setWidth 14) (muxLines mWE 0#14 o)))
      (ins.drop (seqCost (writeByte c x)))
    refine ⟨b, hb, ?_⟩
    rw [hw, muxLines_wp _ _ (by decide), muxLines_wp _ _ (by decide), muxLines_wp _ _ (by decide)]

@[simp] theorem runMicros_sendAddress (a : List Byte) :
    runMicros (sendAddress c a) ins (s.onPins o d p rx) = s.onPins (idleLines c o) d .idle rx := by
  simp only [sendAddress, List.nil_append, List.cons_append, runMicros_cons, runMicros_append, phaseStep, effectOf_lines]
  obtain ⟨b, hb, hw⟩ := runMicros_writeBytes c s (muxLines (mALE ||| mCLE ||| mCE) mALE o) d
    ((some Phase.address).getD p) rx (ins.drop (microCost (.lines (mALE ||| mCLE ||| mCE) mALE))) a
  rw [hb]
  simp only [plainStep, phaseStep, restoreIdle, runMicros_nil, effectOf_lines, muxLines_restore, Option.getD_some,
    Option.getD_none]
  rw [idleLines_mux _ _ _ (by decide)]
  rw [idleLines_congr c (hw.trans (muxLines_wp _ _ (by decide)))]

@[simp] theorem runMicros_sendData (a : List Byte) :
    runMicros (sendData c a) ins (s.onPins o d p rx) = s.onPins (idleLines c o) d .idle rx := by
  simp only [sendData, List.nil_append, List.cons_append, runMicros_cons, runMicros_append, phaseStep, effectOf_lines]
  obtain ⟨b, hb, hw⟩ := runMicros_writeBytes c s (muxLines (mCLE ||| mALE ||| mCE) 0#14 o) d
    ((some Phase.dataOut).getD p) rx (ins.drop (microCost (.lines (mCLE ||| mALE ||| mCE) 0#14))) a
  rw [hb]
  simp only [restoreIdle, phaseStep, runMicros_nil, effectOf_lines, muxLines_restore, Option.getD_some]
  rw [idleLines_congr c (hw.trans (muxLines_wp _ _ (by decide)))]

/-- The bytes the loop of receiveData captures, its first micro-operation in the first of the given cycles. -/
def loopBytes (c : Config) (ins : List Input) (n : Nat) : List Byte :=
  (List.range n).map fun j => (ins.getD (1 + c.tSample + j * (3 + c.tSample + c.tHold)) default).levels.setWidth 8

/-- With the data field released the data bits of PIN are the levels outside. -/
theorem pinData_released {s : State} {d : Lines15} (levels : Latch) (h : s.dir = dirWithData .input d) :
    s.pinData levels = levels.setWidth 8 := by
  rw [pinData_eq, h]
  apply BitVec.eq_of_getLsbD_eq
  intro i hi
  have h1 : (0x7F00#15).getLsbD i = false := by
    have : ∀ j : Fin 8, (0x7F00#15).getLsbD j = false := by decide
    exact this ⟨i, hi⟩
  have h14 : i < 14 := by omega
  simp only [BitVec.getLsbD_setWidth, BitVec.getLsbD_or, BitVec.getLsbD_and, BitVec.getLsbD_not, dirWithData, h1, hi, h14,
    decide_true, Bool.and_false, Bool.true_and, Bool.not_false, Bool.and_true, Bool.false_or]

theorem headD_drop (ins : List Input) (k : Nat) : (ins.drop k).headD default = ins.getD k default := by
  simp [List.headD_eq_head?_getD, List.head?_drop, List.getD_eq_getElem?_getD]

theorem seqCost_readByte (c : Config) : seqCost (readByte c) = 3 + c.tSample + c.tHold := by
  simp only [readByte, plainStep, seqCost_cons, seqCost_nil, microCost]; omega

/-- The loop of receiveData, the data field released: the bytes are appended, the lines move, WP left alone. -/
theorem runMicros_readBytes (n : Nat) :
    ∃ b, runMicros (List.replicate n (readByte c)).flatten ins (s.onPins o (dirWithData .input d) p rx) =
        s.onPins b (dirWithData .input d) p (rx ++ loopBytes c ins n) ∧ b.getLsbD 8 = o.getLsbD 8 := by
  induction n generalizing ins o rx with
  | zero => exact ⟨o, by simp [loopBytes], rfl⟩
  | succ n ih =>
    rw [List.replicate_succ, List.flatten_cons, runMicros_append]
    have h1 : runMicros (readByte c) ins (s.onPins o (dirWithData .input d) p rx) =
        s.onPins (muxLines mRE mRE (muxLines mRE 0#14 o)) (dirWithData .input d) p
          (rx ++ [(ins.getD (1 + c.tSample) default).levels.setWidth 8]) := by
      simp only [readByte, plainStep, runMicros_cons, runMicros_nil, effectOf_lines, effectOf_dly, effectOf_cap, microCost,
        List.drop_drop, headD_drop, Option.getD_none]
      rw [pinData_released (d := d) _ rfl]
    obtain ⟨b, hb, hw⟩ := ih (muxLines mRE mRE (muxLines mRE 0#14 o))
      (rx ++ [(ins.getD (1 + c.tSample) default).levels.setWidth 8]) (ins.drop (seqCost (readByte c)))
    refine ⟨b, ?_, ?_⟩
    · rw [h1, hb]
      simp only [loopBytes, List.range_succ_eq_map, List.map_cons, List.map_map, Nat.zero_mul, Nat.add_zero,
        List.append_assoc, List.singleton_append]
      congr 3
      apply List.map_congr_left
      intro j _
      simp only [Function.comp, List.getD_eq_getElem?_getD, List.getElem?_drop, seqCost_readByte]
      rw [show 3 + c.tSample + c.tHold + (1 + c.tSample + j * (3 + c.tSample + c.tHold)) =
        1 + c.tSample + (j + 1) * (3 + c.tSample + c.tHold) by rw [Nat.succ_mul]; omega]
    · rw [hw, muxLines_wp _ _ (by decide), muxLines_wp _ _ (by decide)]

theorem dirWithData_output_input : dirWithData .output (dirWithData .input d) = dirWithData .output d := by
  apply BitVec.eq_of_getLsbD_eq
  intro i hi
  have h1 : ∀ j : Fin 15, (0x00FF#15).getLsbD j = !(0x7F00#15).getLsbD j := by decide
  have h1 := h1 ⟨i, hi⟩
  simp only [dirWithData, BitVec.getLsbD_or, BitVec.getLsbD_and, h1]
  cases d.getLsbD i <;> cases (0x7F00#15).getLsbD i <;> rfl

/-- receiveData leaves the lines at idle, PHASE Idle and the data field driven, and appends its bytes
(42_phase_engine.md R139). -/
@[simp] theorem runMicros_receiveData (n : Nat) :
    runMicros (receiveData c n) ins (s.onPins o d p rx) =
      s.onPins (idleLines c o) (dirWithData .output d) .idle (rx ++ loopBytes c (ins.drop 3) n) := by
  simp only [receiveData, List.cons_append, List.nil_append, runMicros_cons, runMicros_append, phaseStep, plainStep,
    effectOf_dirD, effectOf_poll, effectOf_lines, microCost, List.drop_drop, Option.getD_some, Option.getD_none]
  obtain ⟨b, hb, hw⟩ := runMicros_readBytes c s (muxLines (mCLE ||| mALE ||| mCE) 0#14 o) d .dataIn rx (ins.drop 3) n
  rw [hb]
  simp only [restoreIdle, phaseStep, runMicros_nil, effectOf_lines, effectOf_dirD, muxLines_restore, Option.getD_some,
    Option.getD_none, dirWithData_output_input]
  rw [idleLines_congr c (hw.trans (muxLines_wp _ _ (by decide)))]

end

/-! ### Cycles and captures -/

section
variable (c : Config)

theorem seqCost_flatMap (a : List Byte) :
    seqCost (a.flatMap (writeByte c)) = a.length * (3 + c.tHold + c.tSetup) := by
  induction a with
  | nil => simp
  | cons x r ih =>
    rw [List.flatMap_cons, seqCost_append, ih]
    simp only [writeByte, plainStep, seqCost_cons, seqCost_nil, microCost, List.length_cons, Nat.succ_mul]
    omega

theorem seqCost_replicate (n : Nat) (q : List MicroStep) : seqCost (List.replicate n q).flatten = n * seqCost q := by
  induction n with
  | zero => simp
  | succ n ih => rw [List.replicate_succ, List.flatten_cons, seqCost_append, ih, Nat.succ_mul]; omega

@[simp] theorem seqCost_sendCommand (b : Byte) : seqCost (sendCommand c b) = cmdCycles c := by
  simp only [sendCommand, plainStep, phaseStep, restoreIdle, seqCost_cons, seqCost_nil, microCost, cmdCycles]; omega

@[simp] theorem seqCost_sendAddress (a : List Byte) : seqCost (sendAddress c a) = addrCycles c a.length := by
  simp only [sendAddress, plainStep, phaseStep, restoreIdle, seqCost_cons, seqCost_nil, seqCost_append,
    seqCost_flatMap, microCost, addrCycles]; omega

@[simp] theorem seqCost_sendData (a : List Byte) : seqCost (sendData c a) = dataCycles c a.length := by
  simp only [sendData, phaseStep, restoreIdle, seqCost_cons, seqCost_nil, seqCost_append, seqCost_flatMap,
    microCost, dataCycles]; omega

@[simp] theorem seqCost_receiveData (n : Nat) : seqCost (receiveData c n) = recvCycles c n := by
  simp only [receiveData, plainStep, phaseStep, restoreIdle, seqCost_cons, seqCost_nil, seqCost_append,
    seqCost_replicate, seqCost_readByte, microCost, recvCycles]; omega

@[simp] theorem seqCost_wait (e : Delay) : seqCost (wait c e) = delayOf c e := by
  simp [wait, plainStep, microCost]

@[simp] theorem seqCost_waitReady : seqCost waitReady = 1 := rfl

theorem capCount_eq_zero {q : List MicroStep} (h : ∀ m ∈ q, m.op ≠ .cap) : capCount q = 0 := by
  simpa [capCount, List.countP_eq_zero] using h

theorem capCount_replicate (n : Nat) (q : List MicroStep) : capCount (List.replicate n q).flatten = n * capCount q := by
  induction n with
  | zero => simp
  | succ n ih => rw [List.replicate_succ, List.flatten_cons, capCount_append, ih, Nat.succ_mul]; omega

@[simp] theorem capCount_sendCommand (b : Byte) : capCount (sendCommand c b) = 0 := by
  simp [sendCommand, plainStep, phaseStep, restoreIdle]

theorem capCount_flatMap (a : List Byte) : capCount (a.flatMap (writeByte c)) = 0 := by
  induction a with
  | nil => rfl
  | cons x r ih => rw [List.flatMap_cons, capCount_append, ih]; simp [writeByte, plainStep]

@[simp] theorem capCount_sendAddress (a : List Byte) : capCount (sendAddress c a) = 0 := by
  simp [sendAddress, plainStep, phaseStep, restoreIdle, capCount_flatMap]

@[simp] theorem capCount_sendData (a : List Byte) : capCount (sendData c a) = 0 := by
  simp [sendData, phaseStep, restoreIdle, capCount_flatMap]

@[simp] theorem capCount_receiveData (n : Nat) : capCount (receiveData c n) = n := by
  simp [receiveData, plainStep, phaseStep, restoreIdle, capCount_replicate, readByte]

@[simp] theorem capCount_wait (e : Delay) : capCount (wait c e) = 0 := by simp [wait, plainStep]

@[simp] theorem capCount_waitReady : capCount waitReady = 0 := rfl

@[simp] theorem pollCount_append (a b : List MicroStep) : pollCount (a ++ b) = pollCount a + pollCount b := by
  simp [pollCount]

@[simp] theorem pollCount_cons (m : MicroStep) (r : List MicroStep) :
    pollCount (m :: r) = pollCount r + if m.op = .poll then 1 else 0 := by
  simp [pollCount, List.countP_cons]

@[simp] theorem pollCount_nil : pollCount [] = 0 := rfl

theorem pollCount_replicate (n : Nat) (q : List MicroStep) :
    pollCount (List.replicate n q).flatten = n * pollCount q := by
  induction n with
  | zero => simp
  | succ n ih => rw [List.replicate_succ, List.flatten_cons, pollCount_append, ih, Nat.succ_mul]; omega

@[simp] theorem pollCount_sendCommand (b : Byte) : pollCount (sendCommand c b) = 0 := by
  simp [sendCommand, plainStep, phaseStep, restoreIdle]

theorem pollCount_flatMap (a : List Byte) : pollCount (a.flatMap (writeByte c)) = 0 := by
  induction a with
  | nil => rfl
  | cons x r ih => rw [List.flatMap_cons, pollCount_append, ih]; simp [writeByte, plainStep]

@[simp] theorem pollCount_sendAddress (a : List Byte) : pollCount (sendAddress c a) = 0 := by
  simp [sendAddress, plainStep, phaseStep, restoreIdle, pollCount_flatMap]

@[simp] theorem pollCount_sendData (a : List Byte) : pollCount (sendData c a) = 0 := by
  simp [sendData, phaseStep, restoreIdle, pollCount_flatMap]

@[simp] theorem pollCount_receiveData (n : Nat) : pollCount (receiveData c n) = 1 := by
  simp [receiveData, plainStep, phaseStep, restoreIdle, pollCount_replicate, readByte]

@[simp] theorem pollCount_wait (e : Delay) : pollCount (wait c e) = 0 := by simp [wait, plainStep]

@[simp] theorem pollCount_waitReady : pollCount waitReady = 1 := rfl

/-! ### Properties of every micro-operation of a sequence -/

variable (P : MicroStep → Prop)

theorem all_sendCommand (b : Byte) :
    (∀ m ∈ sendCommand c b, P m) ↔
      P (phaseStep (.lines (mCLE ||| mCE ||| mALE ||| mWE) mCLE) .command) ∧ P (plainStep (.lines mD (b.setWidth 14))) ∧
      P (plainStep (.dly c.tSetup)) ∧ P (plainStep (.lines mWE mWE)) ∧ P (plainStep (.dly c.tHold)) ∧
      P (plainStep (.lines mCLE 0#14)) ∧ P (restoreIdle c) := by
  simp only [sendCommand, List.forall_mem_cons, List.not_mem_nil, false_imp_iff, implies_true, and_true]

theorem all_writeByte (b : Byte) :
    (∀ m ∈ writeByte c b, P m) ↔
      P (plainStep (.dly c.tHold)) ∧ P (plainStep (.lines mWE 0#14)) ∧ P (plainStep (.lines mD (b.setWidth 14))) ∧
      P (plainStep (.dly c.tSetup)) ∧ P (plainStep (.lines mWE mWE)) := by
  simp only [writeByte, List.forall_mem_cons, List.not_mem_nil, false_imp_iff, implies_true, and_true]

theorem all_flatMap {α : Type} (a : List α) (f : α → List MicroStep) :
    (∀ m ∈ a.flatMap f, P m) ↔ ∀ b ∈ a, ∀ m ∈ f b, P m := by
  simp only [List.mem_flatMap]
  exact ⟨fun h b hb m hm => h m ⟨b, hb, hm⟩, fun h m ⟨b, hb, hm⟩ => h b hb m hm⟩

theorem all_append (a b : List MicroStep) : (∀ m ∈ a ++ b, P m) ↔ (∀ m ∈ a, P m) ∧ ∀ m ∈ b, P m :=
  List.forall_mem_append

theorem all_replicate (n : Nat) (q : List MicroStep) :
    (∀ m ∈ (List.replicate n q).flatten, P m) ↔ n = 0 ∨ ∀ m ∈ q, P m := by
  constructor
  · intro h
    cases n with
    | zero => exact .inl rfl
    | succ n => exact .inr fun m hm => h m (by simp [List.replicate_succ, hm])
  · rintro (rfl | h) m hm
    · simp at hm
    · simp only [List.mem_flatten, List.mem_replicate] at hm
      obtain ⟨l, ⟨_, rfl⟩, hm⟩ := hm
      exact h m hm

theorem all_sendAddress (a : List Byte) :
    (∀ m ∈ sendAddress c a, P m) ↔
      P (phaseStep (.lines (mALE ||| mCLE ||| mCE) mALE) .address) ∧ (∀ b ∈ a, ∀ m ∈ writeByte c b, P m) ∧
      P (plainStep (.lines mALE 0#14)) ∧ P (restoreIdle c) := by
  simp only [sendAddress, all_append, all_flatMap, List.forall_mem_cons, List.not_mem_nil, false_imp_iff, implies_true,
    and_true, and_assoc]

theorem all_sendData (a : List Byte) :
    (∀ m ∈ sendData c a, P m) ↔
      P (phaseStep (.lines (mCLE ||| mALE ||| mCE) 0#14) .dataOut) ∧ (∀ b ∈ a, ∀ m ∈ writeByte c b, P m) ∧
      P (restoreIdle c) := by
  simp only [sendData, all_append, all_flatMap, List.forall_mem_cons, List.not_mem_nil, false_imp_iff, implies_true,
    and_true, and_assoc]

theorem all_receiveData (n : Nat) :
    (∀ m ∈ receiveData c n, P m) ↔
      P (phaseStep (.dirD .input) .dataIn) ∧ P (plainStep .poll) ∧
      P (plainStep (.lines (mCLE ||| mALE ||| mCE) 0#14)) ∧ (n = 0 ∨ ∀ m ∈ readByte c, P m) ∧
      P (plainStep (.dirD .output)) ∧ P (restoreIdle c) := by
  simp only [receiveData, all_append, all_replicate, List.forall_mem_cons, List.not_mem_nil, false_imp_iff, implies_true,
    and_true, and_assoc]

theorem all_readByte :
    (∀ m ∈ readByte c, P m) ↔
      P (plainStep (.lines mRE 0#14)) ∧ P (plainStep (.dly c.tSample)) ∧ P (plainStep .cap) ∧
      P (plainStep (.lines mRE mRE)) ∧ P (plainStep (.dly c.tHold)) := by
  simp only [readByte, List.forall_mem_cons, List.not_mem_nil, false_imp_iff, implies_true, and_true]

theorem all_wait (e : Delay) : (∀ m ∈ wait c e, P m) ↔ P (plainStep (.dly (delayOf c e))) := by
  simp only [wait, List.forall_mem_cons, List.not_mem_nil, false_imp_iff, implies_true, and_true]

theorem all_waitReady : (∀ m ∈ waitReady, P m) ↔ P (plainStep .poll) := by
  simp only [waitReady, List.forall_mem_cons, List.not_mem_nil, false_imp_iff, implies_true, and_true]

theorem all_single (m : MicroStep) : (∀ x ∈ [m], P x) ↔ P m := by
  simp only [List.forall_mem_cons, List.not_mem_nil, false_imp_iff, implies_true, and_true]

end

/-- A property that holds of all the micro-operations the operations are made of, the delays and the lines of SETLINE
given, holds along every operation. -/
theorem all_expand (P : MicroStep → Prop) (i : Instr) (s : State)
    (hsetline : ∀ l v, i = .setline l v →
      P (plainStep (.lines (1#14 <<< l.toNat) ((BitVec.ofBool v).setWidth 14 <<< l.toNat))))
    (hinit : i = .init → P (plainStep (.lines 0x3FFF#14 (idleWord s.cfg))) ∧ P (plainStep (.dirAll 0x3FFF#14)))
    (hrdl : ∀ l, i = .readline l → P (plainStep (.rdl l)))
    (hsetdir : ∀ d, i = .setdir d → P (plainStep (.dirD d)))
    (hperase : i = .perase → P (plainStep (.dly (s.len.toNat * s.cfg.peIterCycles))))
    (hdly : ∀ e, P (plainStep (.dly (delayOf s.cfg e))))
    (hdata : ∀ b : Byte, P (plainStep (.lines mD (b.setWidth 14))))
    (hcmd : P (phaseStep (.lines (mCLE ||| mCE ||| mALE ||| mWE) mCLE) .command))
    (hadr : P (phaseStep (.lines (mALE ||| mCLE ||| mCE) mALE) .address))
    (hdout : P (phaseStep (.lines (mCLE ||| mALE ||| mCE) 0#14) .dataOut))
    (hdin : P (phaseStep (.dirD .input) .dataIn) ∧ P (plainStep (.lines (mCLE ||| mALE ||| mCE) 0#14)) ∧
      P (plainStep (.dirD .output)))
    (hwe : P (plainStep (.lines mWE mWE)) ∧ P (plainStep (.lines mWE 0#14)))
    (hre : P (plainStep (.lines mRE mRE)) ∧ P (plainStep (.lines mRE 0#14)))
    (hle : P (plainStep (.lines mCLE 0#14)) ∧ P (plainStep (.lines mALE 0#14)))
    (hidle : P (restoreIdle s.cfg)) (hpoll : P (plainStep .poll)) (hcap : P (plainStep .cap))
    (hrdd : P (plainStep .rdd)) : ∀ m ∈ expand i s, P m := by
  have h1 : P (plainStep (.dly s.cfg.tSetup)) := hdly .setup
  have h2 : P (plainStep (.dly s.cfg.tHold)) := hdly .hold
  have h3 : P (plainStep (.dly s.cfg.tSample)) := hdly .sample
  have hc : ∀ b, ∀ m ∈ sendCommand s.cfg b, P m := fun b => by
    rw [all_sendCommand]; exact ⟨hcmd, hdata b, h1, hwe.1, h2, hle.1, hidle⟩
  have hw : ∀ b, ∀ m ∈ writeByte s.cfg b, P m := fun b => by
    rw [all_writeByte]; exact ⟨h2, hwe.2, hdata b, h1, hwe.1⟩
  have ha : ∀ a, ∀ m ∈ sendAddress s.cfg a, P m := fun a => by
    rw [all_sendAddress]; exact ⟨hadr, fun b _ => hw b, hle.2, hidle⟩
  have hd : ∀ a, ∀ m ∈ sendData s.cfg a, P m := fun a => by
    rw [all_sendData]; exact ⟨hdout, fun b _ => hw b, hidle⟩
  have hr : ∀ n, ∀ m ∈ receiveData s.cfg n, P m := fun n => by
    rw [all_receiveData, all_readByte]
    exact ⟨hdin.1, hpoll, hdin.2.1, .inr ⟨hre.2, h3, hcap, hre.1, h2⟩, hdin.2.2, hidle⟩
  have hwt : ∀ e, ∀ m ∈ wait s.cfg e, P m := fun e => by rw [all_wait]; exact hdly e
  have hwr : ∀ m ∈ waitReady, P m := by rw [all_waitReady]; exact hpoll
  have hpb : ∀ a d b, ∀ m ∈ programBody s.cfg a d b, P m := fun a d b => by
    simp only [programBody, all_append]; exact ⟨⟨⟨⟨⟨⟨hc _, ha _⟩, hwt _⟩, hd _⟩, hc _⟩, hwt _⟩, hwr⟩
  have hrs : ∀ m ∈ readStatus s.cfg, P m := by
    simp only [readStatus, all_append]; exact ⟨⟨hc _, hwt _⟩, hr _⟩
  have hdr : ∀ m ∈ deviceReset s.cfg, P m := by
    simp only [deviceReset, all_append]; exact ⟨⟨hc _, hwt _⟩, hwr⟩
  have heo : ∀ a, ∀ m ∈ eraseOpening s.cfg a, P m := fun a => by
    simp only [eraseOpening, all_append]; exact ⟨⟨⟨hwr, hc _⟩, ha _⟩, hc _⟩
  have hrp : ∀ a, ∀ m ∈ readPage s.cfg a, P m := fun a => by
    simp only [readPage, all_append]; exact ⟨⟨⟨⟨⟨hwr, hc _⟩, ha _⟩, hc _⟩, hwt _⟩, hwr⟩
  have hid : ∀ b n, ∀ m ∈ readId s.cfg b n, P m := fun b n => by
    simp only [readId, all_append]; exact ⟨⟨⟨⟨hwr, hc _⟩, ha _⟩, hwt _⟩, hr _⟩
  cases i with
  | setline l v => simpa only [expand, runningOp, all_single] using hsetline l v rfl
  | readline l => simpa only [expand, runningOp, all_single] using hrdl l rfl
  | wrdata b => simpa only [expand, runningOp, all_single] using hdata b
  | rddata => simpa only [expand, runningOp, all_single] using hrdd
  | setdir d => simpa only [expand, runningOp, all_single] using hsetdir d rfl
  | wait sel =>
    simp only [expand, runningOp, waitSeq]
    cases selectDelay sel with
    | none => simp
    | some e => exact hwt e
  | sendcmd b => exact hc b
  | sendaddr n => exact ha _
  | senddata => exact hd _
  | recvdata => exact hr _
  | waitrdy => exact hwr
  | init =>
    simp only [expand, runningOp, initSeq, all_append, List.forall_mem_cons]
    exact ⟨⟨⟨⟨(hinit rfl).1, (hinit rfl).2, by simp⟩, hwt _⟩, hwr⟩, hdr⟩
  | reset => exact hdr
  | resetlun =>
    simp only [expand, runningOp, resetLunSeq, all_append]; exact ⟨⟨⟨hc _, ha _⟩, hwt _⟩, hwr⟩
  | rdmfid => exact hid _ _
  | rdonfiid => exact hid _ _
  | rdjedecid => exact hid _ _
  | rduid =>
    simp only [expand, runningOp, readUniqueIdSeq, all_append]
    exact ⟨⟨⟨⟨⟨⟨hc _, ha _⟩, hwt _⟩, hwt _⟩, hwt _⟩, hwr⟩, hr _⟩
  | rdstatus => exact hrs
  | rdstatuse =>
    simp only [expand, runningOp, readStatusEnhancedSeq, all_append]; exact ⟨⟨⟨hc _, ha _⟩, hwt _⟩, hr _⟩
  | rdpage => exact hrp _
  | chgrdcol =>
    simp only [expand, runningOp, changeReadColumnSeq, all_append]; exact ⟨⟨⟨⟨hwt _, hc _⟩, ha _⟩, hc _⟩, hwt _⟩
  | chgwrcol =>
    simp only [expand, runningOp, changeWriteColumnSeq, all_append]; exact ⟨⟨⟨hwt _, hc _⟩, ha _⟩, hwt _⟩
  | chgrow =>
    simp only [expand, runningOp, changeRowAddressSeq, all_append]; exact ⟨⟨⟨hwt _, hc _⟩, ha _⟩, hwt _⟩
  | progpage =>
    simp only [expand, runningOp, programPageSeq, all_append]; exact ⟨hpb _ _ _, hrs⟩
  | progcache =>
    simp only [expand, runningOp, programCacheSeq, all_append, all_flatMap]
    exact ⟨⟨fun _ _ => hpb _ _ _, hpb _ _ _⟩, hrs⟩
  | erase =>
    simp only [expand, runningOp, eraseSeq, all_append]; exact ⟨⟨⟨heo _, hwt _⟩, hwr⟩, hrs⟩
  | perase =>
    simp only [expand, runningOp, partialEraseSeq, all_append, all_single]; exact ⟨⟨heo _, hperase rfl⟩, hdr⟩
  | rdcacheseq =>
    simp only [expand, runningOp, readCacheSeq, cacheNext, all_append, all_replicate]
    exact ⟨⟨⟨hrp _, .inr ⟨⟨⟨hc _, hwt _⟩, hwr⟩, hr _⟩⟩, hc _⟩, hr _⟩
  | _ => exact hc _

/-- A delay carries no PHASE update. -/
theorem expand_delays (i : Instr) (s : State) : ∀ m ∈ expand i s, ∀ k, m.op = .dly k → m.phase = none := by
  apply all_expand (fun m => ∀ k, m.op = .dly k → m.phase = none) <;>
    simp [plainStep, phaseStep, restoreIdle]

/-! ### A whole operation -/

/-- What `complete` and the clock leave after the micro-operations of an accepted operation. -/
theorem completes_of {i : Instr} {s : State} (h : s.busy = false) (hd : DomainOk i s) {n : Nat}
    (hn : max 1 (seqCost (expand i s)) = n) (hq : s.QuietFor n)
    (hr : (∀ m ∈ expand i s, Unsynced m) ∨ s.ReadyFor n) (hcap : capCount (expand i s) ≤ s.cfg.rxDepth) {u : State}
    (hu : { (runMicros (expand i s) s.inputs (s.accept (runningOp i) (expand i s) (completionOf i))).complete
              (completionOf i) with
            rbSync := syncAfter s.rbSync (s.inputs.take n)
            inputs := s.inputs.drop n
            cycle := s.cycle + n } = u) : CompletesIn i s n u := by
  subst hn
  refine ⟨_, exec_accepts h hd, rfl, ?_⟩
  rw [run_accepted s _ _ _ (expand_delays i s) hq hr hcap, hu]

/-- An accepted state, its pins in view. -/
theorem accept_onPins (s : State) (op : Instr) (seq : List MicroStep) (k : Completion) :
    s.accept op seq k = (s.accept op seq k).onPins s.busOut s.dir s.phase [] := rfl

/-- An operation that captures and reads nothing. -/
theorem ranFor_of (s : State) (op : Instr) (seq : List MicroStep) (n : Nat) :
    { (s.accept op seq .plain).complete .plain with
      rbSync := syncAfter s.rbSync (s.inputs.take n), inputs := s.inputs.drop n, cycle := s.cycle + n } =
      s.ranFor n := rfl

/-- An operation that leaves the lines at idle. -/
theorem ranIdle_of (s : State) (op : Instr) (seq : List MicroStep) (n : Nat) :
    { ((s.accept op seq .plain).onPins (idleLines s.cfg s.busOut) s.dir .idle []).complete .plain with
      rbSync := syncAfter s.rbSync (s.inputs.take n), inputs := s.inputs.drop n, cycle := s.cycle + n } =
      s.ranIdle n := rfl

/-- An operation that received bytes. -/
theorem ranReceived_of (s : State) (op : Instr) (seq : List MicroStep) (n : Nat) (rx : List Byte) :
    { ((s.accept op seq .plain).onPins (idleLines s.cfg s.busOut) (dirWithData .output s.dir) .idle rx).complete .plain with
      rbSync := syncAfter s.rbSync (s.inputs.take n), inputs := s.inputs.drop n, cycle := s.cycle + n } =
      s.ranReceived n rx := rfl

/-- An operation that received bytes, the last of them the status byte: RES takes it, and, for the operations that check
it, FAIL its bit 0 (45_ident_status.md R180, 46_array_ops.md R199). -/
theorem ranStatus_of (s : State) (op : Instr) (seq : List MicroStep) (n : Nat) (b : Byte) :
    { ((s.accept op seq .status).onPins (idleLines s.cfg s.busOut) (dirWithData .output s.dir) .idle [b]).complete .status
      with rbSync := syncAfter s.rbSync (s.inputs.take n), inputs := s.inputs.drop n, cycle := s.cycle + n } =
      { s.ranReceived n [b] with res := resWithByte 0#16 b } := rfl

theorem ranStatusFail_of (s : State) (op : Instr) (seq : List MicroStep) (n : Nat) (b : Byte) :
    { ((s.accept op seq .statusFail).onPins (idleLines s.cfg s.busOut) (dirWithData .output s.dir) .idle [b]).complete
        .statusFail
      with rbSync := syncAfter s.rbSync (s.inputs.take n), inputs := s.inputs.drop n, cycle := s.cycle + n } =
      { s.ranReceived n [b] with res := resWithByte 0#16 b, fail := (resWithByte 0#16 b).getLsbD 0 } := rfl

theorem ranUid_of (s : State) (op : Instr) (seq : List MicroStep) (n : Nat) (rx : List Byte) :
    { ((s.accept op seq .uniqueId).onPins (idleLines s.cfg s.busOut) (dirWithData .output s.dir) .idle rx).complete
        .uniqueId
      with rbSync := syncAfter s.rbSync (s.inputs.take n), inputs := s.inputs.drop n, cycle := s.cycle + n } =
      { s.ranReceived n (rx.take 16) with
        uidWarn := (uidMismatch rx).isSome, res := resWithUidIdx 0#16 ((uidMismatch rx).getD 0) } := rfl

theorem resWithByte_zero (b : Byte) : resWithByte 0#16 b = b.setWidth 16 := by
  apply BitVec.eq_of_getLsbD_eq
  intro i hi
  rw [resWithByte]
  refine (BitVec.getLsbD_append (i := i)).trans ?_
  by_cases h : i < 8
  · simp [h, hi]
  · simp [h, hi, BitVec.getLsbD_of_ge b i (by omega)]

/-- The bytes of a receiveData that begins after `k` cycles. -/
theorem loopBytes_samples (s : State) (o n : Nat) (k : Nat) (hk : k = o + 3) :
    loopBytes s.cfg (s.inputs.drop k) n = s.samples o n := by
  subst hk
  simp only [loopBytes, State.samples, State.sample, List.getD_eq_getElem?_getD, List.getElem?_drop]
  apply List.map_congr_left
  intro j _
  rw [show o + 3 + (1 + s.cfg.tSample + j * (3 + s.cfg.tSample + s.cfg.tHold)) =
    o + 4 + s.cfg.tSample + j * (3 + s.cfg.tSample + s.cfg.tHold) by omega]

end Sys2Proof.Machine
end

