-- ==== Sys2Proof/Laws/Wire.lean ====
section
/-! SUPPORT. What the device sees of a sequence: the bus cycles of its micro-operations, and that a running operation shows
the bus cycles of the rest of its sequence, whatever the device and the host do. -/

namespace Sys2Proof.Machine

/-- The pins after a micro-operation. -/
def pinsAfter (p : Pins) : MicroOp → Pins
  | .lines mask val => { p with out := muxLines mask val p.out }
  | .dirD d => { p with dir := dirWithData d p.dir }
  | .dirAll v => { p with dir := dirWithAll v }
  | .dly _ | .poll | .cap | .rdl _ | .rdd => p

/-- The bus cycles of a sequence, from some pins on. -/
def wire : Pins → List MicroStep → List BusCycle
  | _, [] => []
  | p, m :: rest => (busCycle p (pinsAfter p m.op)).toList ++ wire (pinsAfter p m.op) rest

/-- The pins after a sequence. -/
def pinsEnd (p : Pins) (seq : List MicroStep) : Pins := seq.foldl (fun q m => pinsAfter q m.op) p

/-- Pins that do not move show nothing. -/
@[simp] theorem busCycle_self (p : Pins) : busCycle p p = none := by
  simp only [busCycle]
  cases p.out.getLsbD 12 <;> cases p.out.getLsbD 9 <;> cases p.out.getLsbD 13 <;> simp

theorem wire_append (p : Pins) (a b : List MicroStep) : wire p (a ++ b) = wire p a ++ wire (pinsEnd p a) b := by
  induction a generalizing p with
  | nil => rfl
  | cons m r ih => simp only [List.cons_append, wire, ih, List.append_assoc]; rfl

theorem pinsEnd_append (p : Pins) (a b : List MicroStep) : pinsEnd p (a ++ b) = pinsEnd (pinsEnd p a) b := by
  simp [pinsEnd]

theorem wire_drop_zeroRun (p : Pins) (seq : List MicroStep) : wire p (seq.drop (zeroRun seq)) = wire p seq := by
  induction seq with
  | nil => rfl
  | cons m r ih =>
    by_cases h : m.op = .dly 0
    · simp only [zeroRun, h, if_true, List.drop_succ_cons, ih, wire, pinsAfter, busCycle_self]; rfl
    · simp [zeroRun, h]

theorem wire_skipZero (p : Pins) (seq : List MicroStep) (n : Nat) :
    wire p (seq.drop (skipZero seq n)) = wire p (seq.drop n) := by
  rw [skipZero, ← List.drop_drop, wire_drop_zeroRun]

theorem effectOf_pins (m : MicroStep) (levels : Latch) (s : State) :
    (effectOf m levels s).pins = pinsAfter s.pins m.op := by
  cases m with | mk op ph => cases op <;> rfl

theorem complete_pins (s : State) (k : Completion) : (s.complete k).pins = s.pins ∧ (s.complete k).cur = none := by
  cases k <;> simp only [State.complete, State.completionAction, State.statusToRes, State.checkUid, State.pins] <;>
    first | exact ⟨rfl, rfl⟩ | (cases h : s.rxbuf.getLast? <;> simp [State.failFromRes])

theorem settle_pins (s : State) (c : CurOp) :
    (s.settle c).pins = s.pins ∧ (s.settle c).cur = s.cur ∧ (s.settle c).seqPc = skipZero c.seq s.seqPc := by
  simp only [State.settle]
  split
  · rename_i h; exact ⟨rfl, rfl, h.symm⟩
  · exact ⟨rfl, rfl, rfl⟩

/-- The bus cycles that a running operation still has to show. -/
def State.toShow (s : State) : List BusCycle :=
  match s.cur with
  | none => []
  | some c => wire s.pins (c.seq.drop s.seqPc)

theorem drop_eq_cons {l : List MicroStep} {n : Nat} {m : MicroStep} (h : l[n]? = some m) :
    l.drop n = m :: l.drop (n + 1) := by
  obtain ⟨hn, hm⟩ := List.getElem?_eq_some_iff.1 h
  rw [List.drop_eq_getElem_cons hn, hm]

/-- A step of a running operation shows the first part of what is still to show, and leaves the rest. -/
theorem step_shows {s t : State} {c : CurOp} (hc : s.cur = some c) (hr : s.input.rst = false)
    (h : step s = .next t) :
    (busCycle s.pins t.pins).toList ++ t.toShow = wire s.pins (c.seq.drop s.seqPc) ∧
      (t.cur = none ∨ t.cur = some c) := by
  obtain ⟨o, r, hs⟩ := step_busy hc hr
  rw [hs] at h
  obtain ⟨s1, hs1⟩ : ∃ s1 : State, s1 = { s with overrun := o, rData := r } := ⟨_, rfl⟩
  rw [← hs1] at h
  have hp : s1.pins = s.pins ∧ s1.cur = some c ∧ s1.seqPc = s.seqPc := by rw [hs1]; exact ⟨rfl, hc, rfl⟩
  obtain ⟨hp1, hc1, hpc⟩ := hp
  cases hcy : s1.seqCycle s.input.levels with
  | fault f => rw [hcy] at h; cases h
  | refused f => rw [hcy] at h; cases h
  | next v =>
    rw [hcy] at h
    simp only [andThen, Host.Outcome.next.injEq] at h
    have ht : t.pins = v.pins ∧ t.toShow = v.toShow ∧ t.cur = v.cur := by rw [← h]; exact ⟨rfl, rfl, rfl⟩
    rw [ht.1, ht.2.1, ht.2.2]
    obtain ⟨hst1, hst2, hst3⟩ := settle_pins s1 c
    rw [hpc] at hst3
    rw [hp1] at hst1
    rw [hc1] at hst2
    rcases seqCycle_cases hc1 hcy with ⟨hnone, rfl⟩ | ⟨m, hm, _, hcase⟩
    · obtain ⟨h1, h2⟩ := complete_pins s1 c.completion
      rw [hst3] at hnone
      have : c.seq.drop (skipZero c.seq s.seqPc) = [] := by
        rw [List.drop_eq_nil_iff]; exact List.getElem?_eq_none_iff.1 hnone
      rw [← wire_skipZero, this]
      simp [State.toShow, h1, h2, hp1, wire]
    · rw [hst3] at hm
      rcases hcase with ⟨_, rfl⟩ | ⟨_, rfl⟩
      · refine ⟨?_, .inr hst2⟩
        have h1 : ({ s1.settle c with dlyCnt := (s1.settle c).dlyCnt - 1 } : State).pins = s.pins := hst1
        have h2 : ({ s1.settle c with dlyCnt := (s1.settle c).dlyCnt - 1 } : State).toShow = (s1.settle c).toShow := rfl
        rw [h1, h2, busCycle_self]
        simp only [State.toShow, hst2, hst1, hst3, wire_skipZero]
        rfl
      · have hpins : ∀ x : State, x.pins = pinsAfter s.pins m.op → x.cur = some c →
            (busCycle s.pins (x.advance c ((s1.settle c).seqPc + 1)).pins).toList ++
                (x.advance c ((s1.settle c).seqPc + 1)).toShow = wire s.pins (c.seq.drop s.seqPc) ∧
              ((x.advance c ((s1.settle c).seqPc + 1)).cur = none ∨
                (x.advance c ((s1.settle c).seqPc + 1)).cur = some c) := by
          intro x hx hxc
          rw [← wire_skipZero, drop_eq_cons hm, wire, hst3, ← wire_skipZero _ c.seq (skipZero c.seq s.seqPc + 1)]
          simp only [State.advance]
          split
          · have h1 : ∀ n, (x.beginAt c.seq n).pins = x.pins := fun _ => rfl
            have h2 : ∀ n, (x.beginAt c.seq n).toShow = wire x.pins (c.seq.drop n) := fun n => by
              have h3 : (x.beginAt c.seq n).cur = some c := hxc
              simp only [State.toShow, h3]; rfl
            rw [h1, h2, hx]
            exact ⟨rfl, .inr hxc⟩
          · rename_i hlen
            obtain ⟨h1, h2⟩ := complete_pins x c.completion
            have : c.seq.drop (skipZero c.seq (skipZero c.seq s.seqPc + 1)) = [] := by
              rw [List.drop_eq_nil_iff]; omega
            rw [h1, hx, this]
            simp [State.toShow, h2, wire]
        exact hpins _ (by rw [effectOf_pins, hst1]) (by rw [effectOf_cur, hst2])

theorem busCycles_eq (p : Pins) (a : Pins) (l : List Pins) :
    busCycles p (a :: l) = (busCycle p a).toList ++ busCycles a l := rfl

/-- A run of a running operation, no reset in it, shows the first part of what was to show. -/
theorem run_shows {c : CurOp} (n : Nat) (s u : State) (hc : s.cur = some c) (hin : s.NoResetFor n)
    (hrun : runSteps n s = .next u) (hbusy : ∀ k, k < n → ∀ v, runSteps k s = .next v → v.busy = true) :
    s.deviceSees n ++ u.toShow = s.toShow := by
  induction n generalizing s with
  | zero =>
    simp only [runSteps, Host.Outcome.next.injEq] at hrun
    rw [← hrun]; rfl
  | succ n ih =>
    obtain ⟨hl, hq⟩ := hin
    obtain ⟨i, rest, hi⟩ : ∃ i rest, s.inputs = i :: rest := by
      cases h : s.inputs with
      | nil => simp [h] at hl
      | cons i rest => exact ⟨i, rest, rfl⟩
    have hr : s.input.rst = false := by
      have := hq i (by simp [hi]); simpa [State.input, hi] using this
    simp only [runSteps] at hrun
    cases hs : step s with
    | fault f => rw [hs] at hrun; cases hrun
    | refused f => rw [hs] at hrun; cases hrun
    | next t =>
      rw [hs] at hrun
      simp only [andThen] at hrun
      obtain ⟨hsh, hcur⟩ := step_shows hc hr hs
      have hsees : s.deviceSees (n + 1) = (busCycle s.pins t.pins).toList ++ t.deviceSees n := by
        simp only [State.deviceSees, pinTrace, hs, busCycles_eq]
      have hto : s.toShow = wire s.pins (c.seq.drop s.seqPc) := by simp [State.toShow, hc]
      have hin : t.inputs = s.inputs.tail := by
        obtain ⟨o, r, hst⟩ := step_busy hc hr
        rw [hst] at hs
        cases hcy : ({ s with overrun := o, rData := r } : State).seqCycle s.input.levels with
        | fault f => rw [hcy] at hs; cases hs
        | refused f => rw [hcy] at hs; cases hs
        | next v =>
          rw [hcy] at hs
          simp only [andThen, Host.Outcome.next.injEq] at hs
          have hv : v.inputs = s.inputs := by
            rcases seqCycle_cases (s := { s with overrun := o, rData := r }) hc hcy with ⟨_, rfl⟩ | ⟨m, _, _, hcase⟩
            · exact (complete_clock ..).2.1
            · have hset : ∀ x : State, (x.settle c).inputs = x.inputs := fun x => by
                simp only [State.settle]; split <;> rfl
              rcases hcase with ⟨_, rfl⟩ | ⟨_, rfl⟩
              · exact hset _
              · have hadv : ∀ (x : State) k, (x.advance c k).inputs = x.inputs := fun x k => by
                  simp only [State.advance]; split
                  · rfl
                  · exact (complete_clock ..).2.1
                rw [hadv, effectOf_inputs]; exact hset _
          rw [← hs]; simp [State.tick, hv]
      rcases hcur with hcn | hcn
      · cases n with
        | zero =>
          simp only [runSteps, Host.Outcome.next.injEq] at hrun
          rw [hsees, ← hrun, hto, ← hsh]
          simp [State.deviceSees, pinTrace, busCycles]
        | succ n =>
          have := hbusy 1 (by omega) t (by simp [runSteps, hs, andThen])
          simp [State.busy, hcn] at this
      · have ht : t.toShow = wire t.pins (c.seq.drop t.seqPc) := by simp [State.toShow, hcn]
        have := ih t hcn ⟨by rw [hin, List.length_tail]; omega, fun x hx => hq x (by
            rw [hin, hi] at hx; rw [hi]; simp at hx ⊢; exact .inr hx)⟩ hrun
          (fun k hk v hv => hbusy (k + 1) (by omega) v (by rw [runSteps_succ _ hs]; exact hv))
        rw [hsees, List.append_assoc, this, hto, hsh]

/-- An operation shows the bus cycles of its sequence. -/
theorem shows_of {i : Instr} {s : State} {w : List BusCycle} (h : s.busy = false) (hd : DomainOk i s)
    (hw : wire s.pins (expand i s) = w) : Shows i s w := by
  refine ⟨_, exec_accepts h hd, rfl, fun n u hin hrun hbusy => ?_⟩
  have hrun := run_shows n _ u (c := _) rfl hin hrun hbusy
  have hto : (s.accept (runningOp i) (expand i s) (completionOf i)).toShow = w := hw
  rw [hto] at hrun
  refine ⟨⟨_, hrun⟩, fun hu => ?_⟩
  have hempty : u.toShow = [] := by
    simp only [State.busy] at hu
    cases hcu : u.cur with
    | none => simp [State.toShow, hcu]
    | some c => simp [hcu] at hu
  rw [← hrun, hempty, List.append_nil]

/-! ### The bus cycles of the pieces -/

theorem setWidth_setWidth_byte (b : Byte) : (b.setWidth 14).setWidth 8 = b := by
  apply BitVec.eq_of_getLsbD_eq
  intro i hi
  simp only [BitVec.getLsbD_setWidth, hi, show i < 14 by omega, decide_true, Bool.true_and]

/-- The pins after a phase operation that leaves the direction alone. -/
def Pins.rest (c : Config) (p : Pins) : Pins := { p with out := idleLines c p.out }

@[simp] theorem Pins.rest_rest (c : Config) (p : Pins) : (p.rest c).rest c = p.rest c := by
  simp [Pins.rest]

theorem Pins.rest_re (c : Config) (p : Pins) : (p.rest c).out.getLsbD 13 = true := by
  simp [Pins.rest, idleLines]

section
variable (c : Config) {p : Pins}

theorem pinsEnd_cons (m : MicroStep) (r : List MicroStep) : pinsEnd p (m :: r) = pinsEnd (pinsAfter p m.op) r := rfl

@[simp] theorem pinsEnd_nil : pinsEnd p [] = p := rfl

/-- sendCommand shows one command cycle, from any lines (42_phase_engine.md R136). -/
theorem wire_sendCommand (b : Byte) (hd : p.dir = dirOut) : wire p (sendCommand c b) = [.command b] := by
  simp only [sendCommand, plainStep, phaseStep, restoreIdle, wire, pinsAfter, busCycle, muxLines_getLsbD, hd]
  simp
  rw [muxLines_data_keep _ _ (by decide), muxLines_data_write _ _ (by decide), setWidth_setWidth_byte]

theorem pinsEnd_sendCommand (b : Byte) : pinsEnd p (sendCommand c b) = p.rest c := by
  simp only [sendCommand, plainStep, phaseStep, restoreIdle, pinsEnd_cons, pinsEnd_nil, pinsAfter, muxLines_restore, Pins.rest]
  rw [idleLines_mux _ _ _ (by decide), idleLines_mux _ _ _ (by decide), idleLines_mux _ _ _ (by decide),
    idleLines_mux _ _ _ (by decide)]

/-- The bytes of an address phase: CE low, ALE high, CLE low. -/
theorem wire_addressBytes (a : List Byte) (hd : p.dir = dirOut) (h10 : p.out.getLsbD 10 = true)
    (h11 : p.out.getLsbD 11 = false) (h12 : p.out.getLsbD 12 = false) :
    wire p (a.flatMap (writeByte c)) = a.map .address ∧
      ∃ o, pinsEnd p (a.flatMap (writeByte c)) = { p with out := o } ∧ o.getLsbD 8 = p.out.getLsbD 8 := by
  induction a generalizing p with
  | nil => exact ⟨rfl, p.out, rfl, rfl⟩
  | cons x r ih =>
    have h1 : wire p (writeByte c x) = [.address x] := by
      simp only [writeByte, plainStep, wire, pinsAfter, busCycle, muxLines_getLsbD, hd]
      simp [-BitVec.getLsbD_eq_getElem, h10, h11, h12]
      rw [muxLines_data_keep _ _ (by decide), muxLines_data_write _ _ (by decide), setWidth_setWidth_byte]
    obtain ⟨h2, o, h3, h4⟩ := ih (p := pinsEnd p (writeByte c x)) hd
      (by simp [-BitVec.getLsbD_eq_getElem, writeByte, plainStep, pinsEnd_cons, pinsAfter, muxLines_getLsbD, h10])
      (by simp [-BitVec.getLsbD_eq_getElem, writeByte, plainStep, pinsEnd_cons, pinsAfter, muxLines_getLsbD, h11])
      (by simp [-BitVec.getLsbD_eq_getElem, writeByte, plainStep, pinsEnd_cons, pinsAfter, muxLines_getLsbD, h12])
    rw [List.flatMap_cons, wire_append, pinsEnd_append, h1, h2]
    refine ⟨rfl, o, h3, h4.trans ?_⟩
    simp only [writeByte, plainStep, pinsEnd_cons, pinsEnd_nil, pinsAfter]
    rw [muxLines_wp _ _ (by decide), muxLines_wp _ _ (by decide), muxLines_wp _ _ (by decide)]

/-- The bytes of a data-out phase: CE, ALE and CLE low. -/
theorem wire_dataBytes (a : List Byte) (hd : p.dir = dirOut) (h10 : p.out.getLsbD 10 = false)
    (h11 : p.out.getLsbD 11 = false) (h12 : p.out.getLsbD 12 = false) :
    wire p (a.flatMap (writeByte c)) = a.map .dataOut ∧
      ∃ o, pinsEnd p (a.flatMap (writeByte c)) = { p with out := o } ∧ o.getLsbD 8 = p.out.getLsbD 8 := by
  induction a generalizing p with
  | nil => exact ⟨rfl, p.out, rfl, rfl⟩
  | cons x r ih =>
    have h1 : wire p (writeByte c x) = [.dataOut x] := by
      simp only [writeByte, plainStep, wire, pinsAfter, busCycle, muxLines_getLsbD, hd]
      simp [-BitVec.getLsbD_eq_getElem, h10, h11, h12]
      rw [muxLines_data_keep _ _ (by decide), muxLines_data_write _ _ (by decide), setWidth_setWidth_byte]
    obtain ⟨h2, o, h3, h4⟩ := ih (p := pinsEnd p (writeByte c x)) hd
      (by simp [-BitVec.getLsbD_eq_getElem, writeByte, plainStep, pinsEnd_cons, pinsAfter, muxLines_getLsbD, h10])
      (by simp [-BitVec.getLsbD_eq_getElem, writeByte, plainStep, pinsEnd_cons, pinsAfter, muxLines_getLsbD, h11])
      (by simp [-BitVec.getLsbD_eq_getElem, writeByte, plainStep, pinsEnd_cons, pinsAfter, muxLines_getLsbD, h12])
    rw [List.flatMap_cons, wire_append, pinsEnd_append, h1, h2]
    refine ⟨rfl, o, h3, h4.trans ?_⟩
    simp only [writeByte, plainStep, pinsEnd_cons, pinsEnd_nil, pinsAfter]
    rw [muxLines_wp _ _ (by decide), muxLines_wp _ _ (by decide), muxLines_wp _ _ (by decide)]

theorem wire_cons (m : MicroStep) (r : List MicroStep) :
    wire p (m :: r) = (busCycle p (pinsAfter p m.op)).toList ++ wire (pinsAfter p m.op) r := rfl

/-- sendAddress shows its address cycles in order, from any lines (42_phase_engine.md R137). -/
theorem wire_sendAddress (a : List Byte) (hd : p.dir = dirOut) :
    wire p (sendAddress c a) = addressCycles a ∧ pinsEnd p (sendAddress c a) = p.rest c := by
  obtain ⟨h1, o, h2, h3⟩ := wire_addressBytes c a
    (p := { p with out := muxLines (mALE ||| mCLE ||| mCE) mALE p.out }) hd
    (by simp [-BitVec.getLsbD_eq_getElem, muxLines_getLsbD]) (by simp [-BitVec.getLsbD_eq_getElem, muxLines_getLsbD]) (by simp [-BitVec.getLsbD_eq_getElem, muxLines_getLsbD])
  simp only [sendAddress, List.cons_append, List.nil_append, phaseStep, plainStep, restoreIdle, wire_cons, pinsEnd_cons,
    wire_append, pinsEnd_append, pinsAfter, h1, h2, pinsEnd_nil, muxLines_restore]
  constructor
  · simp [-BitVec.getLsbD_eq_getElem, busCycle, muxLines_getLsbD, hd, wire, addressCycles, idleLines]
  · rw [idleLines_mux _ _ _ (by decide), idleLines_congr c (h3.trans (muxLines_wp _ _ (by decide)))]; rfl

/-- sendData shows its data-out cycles in order, from any lines (42_phase_engine.md R138). -/
theorem wire_sendData (a : List Byte) (hd : p.dir = dirOut) :
    wire p (sendData c a) = dataOutCycles a ∧ pinsEnd p (sendData c a) = p.rest c := by
  obtain ⟨h1, o, h2, h3⟩ := wire_dataBytes c a
    (p := { p with out := muxLines (mCLE ||| mALE ||| mCE) 0#14 p.out }) hd
    (by simp [-BitVec.getLsbD_eq_getElem, muxLines_getLsbD]) (by simp [-BitVec.getLsbD_eq_getElem, muxLines_getLsbD]) (by simp [-BitVec.getLsbD_eq_getElem, muxLines_getLsbD])
  simp only [sendData, List.cons_append, List.nil_append, phaseStep, restoreIdle, wire_cons, pinsEnd_cons, wire_append,
    pinsEnd_append, pinsAfter, h1, h2, pinsEnd_nil, muxLines_restore]
  constructor
  · simp [-BitVec.getLsbD_eq_getElem, busCycle, muxLines_getLsbD, hd, wire, dataOutCycles, idleLines]
  · rw [idleLines_congr c (h3.trans (muxLines_wp _ _ (by decide)))]; rfl

/-- The bytes of a data-in phase: the data field released, CE low, RE high. -/
theorem wire_readBytes (n : Nat) (hd : p.dir = dirIn) (h12 : p.out.getLsbD 12 = false)
    (h13 : p.out.getLsbD 13 = true) :
    wire p (List.replicate n (readByte c)).flatten = dataInCycles n ∧
      ∃ o, pinsEnd p (List.replicate n (readByte c)).flatten = { p with out := o } ∧ o.getLsbD 8 = p.out.getLsbD 8 ∧
        o.getLsbD 12 = false := by
  induction n generalizing p with
  | zero => exact ⟨rfl, p.out, rfl, rfl, h12⟩
  | succ n ih =>
    have hne : dirIn ≠ dirOut := by decide
    have h1 : wire p (readByte c) = [.dataIn] := by
      simp only [readByte, plainStep, wire, pinsAfter, busCycle, muxLines_getLsbD, hd, hne]
      simp [-BitVec.getLsbD_eq_getElem, h12, h13]
    obtain ⟨h2, o, h3, h4, h5⟩ := ih (p := pinsEnd p (readByte c)) hd
      (by simp [-BitVec.getLsbD_eq_getElem, readByte, plainStep, pinsEnd_cons, pinsAfter, muxLines_getLsbD, h12])
      (by simp [-BitVec.getLsbD_eq_getElem, readByte, plainStep, pinsEnd_cons, pinsAfter, muxLines_getLsbD])
    rw [List.replicate_succ, List.flatten_cons, wire_append, pinsEnd_append, h1, h2]
    refine ⟨rfl, o, h3, h4.trans ?_, h5⟩
    simp only [readByte, plainStep, pinsEnd_cons, pinsEnd_nil, pinsAfter]
    rw [muxLines_wp _ _ (by decide), muxLines_wp _ _ (by decide)]

/-- receiveData shows its data-in cycles, from any lines with RE high (42_phase_engine.md R139). -/
theorem wire_receiveData (n : Nat) (hd : p.dir = dirOut) (h13 : p.out.getLsbD 13 = true) :
    wire p (receiveData c n) = dataInCycles n ∧ pinsEnd p (receiveData c n) = p.rest c := by
  have hdi : dirWithData .input dirOut = dirIn := by decide
  have hdo : dirWithData .output dirIn = dirOut := by decide
  have hne : dirIn ≠ dirOut := by decide
  obtain ⟨h1, o, h2, h3, h4⟩ := wire_readBytes c n
    (p := { out := muxLines (mCLE ||| mALE ||| mCE) 0#14 p.out, dir := dirIn }) rfl
    (by simp [-BitVec.getLsbD_eq_getElem, muxLines_getLsbD]) (by simp [-BitVec.getLsbD_eq_getElem, muxLines_getLsbD, h13])
  simp only [receiveData, List.cons_append, List.nil_append, phaseStep, plainStep, restoreIdle, wire_cons, pinsEnd_cons,
    wire_append, pinsEnd_append, pinsAfter, hd, hdi, h1, h2, hdo, pinsEnd_nil, muxLines_restore]
  constructor
  · simp [-BitVec.getLsbD_eq_getElem, busCycle, muxLines_getLsbD, wire, idleLines, hne, h13]
  · rw [idleLines_congr c (h3.trans (muxLines_wp _ _ (by decide)))]; simp [Pins.rest, hd]

@[simp] theorem wire_wait (e : Delay) : wire p (wait c e) = [] ∧ pinsEnd p (wait c e) = p := by
  simp [wait, plainStep, wire, pinsAfter, pinsEnd_cons]

@[simp] theorem wire_waitReady : wire p waitReady = [] ∧ pinsEnd p waitReady = p := by
  simp [waitReady, plainStep, wire, pinsAfter, pinsEnd_cons]


/-! ### The bus cycles of the operations -/

@[simp] theorem Pins.rest_dir : (p.rest c).dir = p.dir := rfl

theorem wire_deviceReset (hd : p.dir = dirOut) :
    wire p (deviceReset c) = [.command 0xFF#8] ∧ pinsEnd p (deviceReset c) = p.rest c := by
  simp [deviceReset, wire_append, pinsEnd_append, wire_sendCommand, pinsEnd_sendCommand, hd]

theorem wire_readStatus (hd : p.dir = dirOut) :
    wire p (readStatus c) = [.command 0x70#8, .dataIn] ∧ pinsEnd p (readStatus c) = p.rest c := by
  simp [readStatus, wire_append, pinsEnd_append, wire_sendCommand, pinsEnd_sendCommand, hd, wire_receiveData,
    Pins.rest_re, dataInCycles]

theorem wire_readId (col : Byte) (n : Nat) (hd : p.dir = dirOut) :
    wire p (readId c col n) = [.command 0x90#8, .address col] ++ dataInCycles n := by
  simp [readId, wire_append, wire_sendCommand, pinsEnd_sendCommand, hd, wire_sendAddress,
    wire_receiveData, Pins.rest_re, addressCycles]

theorem wire_readPage (a : List Byte) (hd : p.dir = dirOut) :
    wire p (readPage c a) = [.command 0x00#8] ++ addressCycles a ++ [.command 0x30#8] ∧
      pinsEnd p (readPage c a) = p.rest c := by
  simp [readPage, wire_append, pinsEnd_append, wire_sendCommand, pinsEnd_sendCommand, hd, wire_sendAddress]

theorem wire_programBody (a d : List Byte) (b : Byte) (hd : p.dir = dirOut) :
    wire p (programBody c a d b) =
      [.command 0x80#8] ++ addressCycles a ++ dataOutCycles d ++ [.command b] ∧
      pinsEnd p (programBody c a d b) = p.rest c := by
  simp [programBody, wire_append, pinsEnd_append, wire_sendCommand, pinsEnd_sendCommand, hd, wire_sendAddress,
    wire_sendData]

theorem wire_eraseOpening (a : List Byte) (hd : p.dir = dirOut) :
    wire p (eraseOpening c a) = [.command 0x60#8] ++ addressCycles a ++ [.command 0xD0#8] ∧
      pinsEnd p (eraseOpening c a) = p.rest c := by
  simp [eraseOpening, wire_append, pinsEnd_append, wire_sendCommand, pinsEnd_sendCommand, hd, wire_sendAddress]

theorem wire_cacheNext (hd : p.dir = dirOut) :
    wire p (cacheNext c) = [.command 0x31#8] ++ dataInCycles c.pageSize ∧ pinsEnd p (cacheNext c) = p.rest c := by
  simp [cacheNext, wire_append, pinsEnd_append, wire_sendCommand, pinsEnd_sendCommand, hd, wire_receiveData,
    Pins.rest_re]

theorem wire_programPages (a : Nat → List Byte) (d : List Byte) (b : Byte) (l : List Nat) (hd : p.dir = dirOut) :
    wire p (l.flatMap fun k => programBody c (a k) d b) =
      (l.flatMap fun k => [.command 0x80#8] ++ addressCycles (a k) ++ dataOutCycles d ++ [.command b]) ∧
      (pinsEnd p (l.flatMap fun k => programBody c (a k) d b)).dir = dirOut := by
  induction l generalizing p with
  | nil => exact ⟨rfl, hd⟩
  | cons k r ih =>
    obtain ⟨h1, h2⟩ := wire_programBody c (a k) d b hd
    obtain ⟨h3, h4⟩ := ih (p := p.rest c) hd
    simp only [List.flatMap_cons, wire_append, pinsEnd_append, h1, h2, h3, h4, and_self]

theorem wire_cachePages (n : Nat) (hd : p.dir = dirOut) :
    wire p (List.replicate n (cacheNext c)).flatten =
      (List.replicate n ([.command 0x31#8] ++ dataInCycles c.pageSize)).flatten ∧
      (pinsEnd p (List.replicate n (cacheNext c)).flatten).dir = dirOut := by
  induction n generalizing p with
  | zero => exact ⟨rfl, hd⟩
  | succ n ih =>
    obtain ⟨h1, h2⟩ := wire_cacheNext c hd
    obtain ⟨h3, h4⟩ := ih (p := p.rest c) hd
    simp only [List.replicate_succ, List.flatten_cons, wire_append, pinsEnd_append, h1, h2, h3, h4, and_self]

/-- initialize() shows the device reset command alone, from any pins (44_lifecycle.md R165). -/
theorem wire_initSeq : wire p (initSeq c) = [.command 0xFF#8] := by
  have h : (pinsAfter (pinsAfter p (.lines 0x3FFF#14 (idleWord c))) (.dirAll 0x3FFF#14)).dir = dirOut := by
    simp [pinsAfter, dirWithAll, dirOut]
  have h1 : busCycle p (pinsAfter p (.lines 0x3FFF#14 (idleWord c))) = none := by
    simp [-BitVec.getLsbD_eq_getElem, busCycle, pinsAfter, muxLines_getLsbD, idleWord]
  have h2 : busCycle (pinsAfter p (.lines 0x3FFF#14 (idleWord c)))
      (pinsAfter (pinsAfter p (.lines 0x3FFF#14 (idleWord c))) (.dirAll 0x3FFF#14)) = none := by
    simp [-BitVec.getLsbD_eq_getElem, busCycle, pinsAfter, muxLines_getLsbD, idleWord]
  simp only [initSeq, List.cons_append, List.nil_append, plainStep, wire_cons, h1, h2, wire_append]
  simp [pinsEnd_append, (wire_deviceReset c h).1]

end

end Sys2Proof.Machine
end

