-- ==== Sys2Proof/Laws/Lines.lean ====
section
/-! SUPPORT. The pins cycle by cycle: a running operation shows the pins of the rest of its sequence, one entry a cycle,
and what the sequence of each phase shows from idle lines. -/

namespace Sys2Proof.Machine

/-- The pins after each cycle of a sequence, every POLL one cycle, from some pins on. -/
def pinsRun : Pins → List MicroStep → List Pins
  | _, [] => []
  | p, m :: rest =>
    match m.op with
    | .dly k => List.replicate k p ++ pinsRun p rest
    | op => pinsAfter p op :: pinsRun (pinsAfter p op) rest

/-- The same where the first micro-operation, if it is a delay, has `d` cycles left. -/
def pinsLeft (d : Nat) (p : Pins) : List MicroStep → List Pins
  | [] => [p]
  | m :: rest =>
    match m.op with
    | .dly _ => List.replicate (max 1 d) p ++ pinsRun p rest
    | op => pinsAfter p op :: pinsRun (pinsAfter p op) rest

/-- What a running operation still shows. -/
def State.toDraw (s : State) (c : CurOp) : List Pins :=
  pinsLeft (s.settle c).dlyCnt s.pins (c.seq.drop (s.settle c).seqPc)

theorem pinsRun_append (p : Pins) (a b : List MicroStep) : pinsRun p (a ++ b) = pinsRun p a ++ pinsRun (pinsEnd p a) b := by
  induction a generalizing p with
  | nil => rfl
  | cons m r ih =>
    cases m with
    | mk op ph =>
      have h : pinsEnd p (⟨op, ph⟩ :: r) = pinsEnd (pinsAfter p op) r := rfl
      cases op <;> simp only [List.cons_append, pinsRun, ih, h, pinsAfter, List.append_assoc]

theorem pinsRun_zeroRun (p : Pins) (seq : List MicroStep) : pinsRun p (seq.drop (zeroRun seq)) = pinsRun p seq := by
  induction seq with
  | nil => rfl
  | cons m r ih =>
    by_cases h : m.op = .dly 0
    · simp only [zeroRun, h, if_true, List.drop_succ_cons, ih, pinsRun, List.replicate_zero, List.nil_append]
    · simp [zeroRun, h]

theorem pinsRun_skipZero (p : Pins) (seq : List MicroStep) (n : Nat) :
    pinsRun p (seq.drop (skipZero seq n)) = pinsRun p (seq.drop n) := by
  rw [skipZero, ← List.drop_drop, pinsRun_zeroRun]

theorem capCount_skipZero (seq : List MicroStep) (n : Nat) : capCount (seq.drop (skipZero seq n)) = capCount (seq.drop n) := by
  have h : ∀ l : List MicroStep, capCount (l.drop (zeroRun l)) = capCount l := by
    intro l
    induction l with
    | nil => rfl
    | cons m r ih =>
      by_cases h : m.op = .dly 0
      · simp only [zeroRun, h, if_true, List.drop_succ_cons, ih, capCount_cons]; simp
      · simp [zeroRun, h]
  rw [skipZero, ← List.drop_drop, h]

theorem zeroRun_skipZero (seq : List MicroStep) (n : Nat) : zeroRun (seq.drop (skipZero seq n)) = 0 := by
  rw [skipZero, ← List.drop_drop]; exact zeroRun_drop _

/-- From the micro-operation where a delay begins, nothing is left out. -/
theorem pinsLeft_load (p : Pins) (m : MicroStep) (r : List MicroStep) (h : m.op ≠ .dly 0) :
    pinsLeft (loadDly (some m)) p (m :: r) = pinsRun p (m :: r) := by
  cases m with
  | mk op ph =>
    cases op with
    | dly k =>
      have : k ≠ 0 := fun hk => h (by rw [hk])
      have hmax : max 1 k = k := by omega
      simp only [pinsLeft, pinsRun, loadDly, hmax]
    | _ => rfl

/-- A step of a running operation in which a POLL finds the device ready shows the first of what was to show. -/
theorem step_draws {s t : State} {c : CurOp} (hc : s.cur = some c) (hr : s.input.rst = false)
    (hp : (∀ m ∈ c.seq, m.op ≠ .poll) ∨ s.rbS = true) (h : step s = .next t) :
    (t.cur = none ∧ s.toDraw c = [t.pins]) ∨
      (t.cur = some c ∧ s.toDraw c = t.pins :: t.toDraw c ∧
        (s.rxLen + capCount (c.seq.drop s.seqPc) ≤ s.cfg.rxDepth → t.rxLen + capCount (c.seq.drop t.seqPc) ≤ t.cfg.rxDepth)) := by
  obtain ⟨s1, u, _, ⟨o, r, hs1⟩, h3, rfl⟩ := step_busy_inv hc hr h
  have hc1 : s1.cur = some c := by rw [hs1]; exact hc
  have hsd : s.toDraw c = s1.toDraw c := by rw [hs1]; simp only [State.toDraw, State.settle]; split <;> rfl
  have hcap1 : s1.rxLen = s.rxLen ∧ s1.seqPc = s.seqPc ∧ s1.cfg = s.cfg ∧ s1.rbS = s.rbS := by
    rw [hs1]; exact ⟨rfl, rfl, rfl, rfl⟩
  obtain ⟨p1, p2, p3⟩ := settle_pins s1 c
  have hx4 : (s1.settle c).rxLen = s1.rxLen ∧ (s1.settle c).cfg = s1.cfg ∧ (s1.settle c).rbS = s1.rbS := by
    simp only [State.settle]; split <;> exact ⟨rfl, rfl, rfl⟩
  have hz : zeroRun (c.seq.drop (s1.settle c).seqPc) = 0 := by rw [p3]; exact zeroRun_skipZero ..
  have hcapx : capCount (c.seq.drop (s1.settle c).seqPc) = capCount (c.seq.drop s1.seqPc) := by
    rw [p3]; exact capCount_skipZero ..
  rw [hsd]
  simp only [State.toDraw]
  rw [← p1]
  rcases seqCycle_cases hc1 h3 with ⟨hn, rfl⟩ | ⟨m, hm, _, ⟨he, rfl⟩ | ⟨he, rfl⟩⟩
  · left
    refine ⟨rfl, ?_⟩
    rw [List.drop_eq_nil_iff.2 (List.getElem?_eq_none_iff.1 hn)]
    have : ((s1.complete c.completion).tick s.input).pins = (s1.settle c).pins := (complete_pins ..).1.trans p1.symm
    rw [this]; rfl
  · right
    have hxc := p2.trans hc1
    obtain ⟨e1, e2, e3⟩ := hx4
    obtain ⟨f1, f2, f3, f4⟩ := hcap1
    generalize s1.settle c = x at *
    have hd := drop_eq_cons hm
    refine ⟨hxc, ?_, fun hroom => ?_⟩
    · have hset : ((({ x with dlyCnt := x.dlyCnt - 1 } : State).tick s.input).settle c).dlyCnt = x.dlyCnt - 1 ∧
          ((({ x with dlyCnt := x.dlyCnt - 1 } : State).tick s.input).settle c).seqPc = x.seqPc := by
        rw [settle_of_zeroRun (s := ({ x with dlyCnt := x.dlyCnt - 1 } : State).tick s.input) hz]; exact ⟨rfl, rfl⟩
      have hpins : (({ x with dlyCnt := x.dlyCnt - 1 } : State).tick s.input).pins = x.pins := rfl
      rw [hset.1, hset.2, hpins, hd]
      cases m with
      | mk op q =>
        cases op with
        | dly k =>
          simp only [State.microEnds, decide_eq_false_iff_not] at he
          obtain ⟨d, hdd⟩ : ∃ d, x.dlyCnt = d + 2 := ⟨x.dlyCnt - 2, by omega⟩
          simp only [pinsLeft, hdd, show max 1 (d + 2) = d + 1 + 1 by omega, show max 1 (d + 2 - 1) = d + 1 by omega,
            List.replicate_succ (n := d + 1), List.cons_append]
        | poll =>
          exfalso
          simp only [State.microEnds] at he
          rcases hp with hp | hp
          · exact hp _ (List.mem_of_getElem? hm) rfl
          · rw [e3, f4, hp] at he; cases he
        | _ => simp [State.microEnds] at he
    · show x.rxLen + capCount (c.seq.drop x.seqPc) ≤ x.cfg.rxDepth
      rw [hcapx, e1, e2, f1, f2, f3]; exact hroom
  · have hxc := p2.trans hc1
    obtain ⟨e1, e2, e3⟩ := hx4
    obtain ⟨f1, f2, f3, f4⟩ := hcap1
    generalize s1.settle c = x at *
    have hd := drop_eq_cons hm
    have hz' : m.op ≠ .dly 0 := by rw [hd] at hz; exact zeroRun_cons_eq_zero.1 hz
    obtain ⟨y, hy⟩ : ∃ y, y = effectOf m s.input.levels x := ⟨_, rfl⟩
    have hyp : y.pins = pinsAfter x.pins m.op := by rw [hy]; exact effectOf_pins ..
    have hyc : y.cur = some c := by rw [hy, effectOf_cur]; exact hxc
    have hyl : y.rxLen = x.rxLen + (if m.op = .cap then 1 else 0) := by rw [hy]; exact effectOf_rxLen ..
    have hyg : y.cfg = x.cfg := by rw [hy]; exact effectOf_cfg ..
    have hfirst : pinsLeft x.dlyCnt x.pins (c.seq.drop x.seqPc) =
        y.pins :: pinsRun y.pins (c.seq.drop (skipZero c.seq (x.seqPc + 1))) := by
      rw [hd, hyp, pinsRun_skipZero]
      cases m with
      | mk op q =>
        cases op with
        | dly k =>
          simp only [State.microEnds, decide_eq_true_eq] at he
          simp only [pinsLeft, show max 1 x.dlyCnt = 1 by omega, List.replicate_one, pinsAfter, List.singleton_append]
        | _ => rfl
    rw [hfirst, ← hy]
    simp only [State.advance]
    split
    · right
      rename_i hlt
      have hn := List.getElem?_eq_getElem hlt
      have hdn := drop_eq_cons hn
      have hzn := zeroRun_skipZero c.seq (x.seqPc + 1)
      have hzm : (c.seq[skipZero c.seq (x.seqPc + 1)]).op ≠ .dly 0 := by rw [hdn] at hzn; exact zeroRun_cons_eq_zero.1 hzn
      refine ⟨hyc, ?_, fun hroom => ?_⟩
      · rw [settle_of_zeroRun (s := (y.beginAt c.seq (skipZero c.seq (x.seqPc + 1))).tick s.input) hzn]
        show _ = y.pins :: pinsLeft (loadDly c.seq[skipZero c.seq (x.seqPc + 1)]?) y.pins
          (c.seq.drop (skipZero c.seq (x.seqPc + 1)))
        rw [hn, hdn, pinsLeft_load _ _ _ hzm]
      · show y.rxLen + capCount (c.seq.drop (skipZero c.seq (x.seqPc + 1))) ≤ y.cfg.rxDepth
        rw [capCount_skipZero, hyl, hyg, e1, e2, f1, f3]
        rw [← f2, ← hcapx, hd, capCount_cons] at hroom
        omega
    · left
      rename_i hlen
      refine ⟨rfl, ?_⟩
      rw [List.drop_eq_nil_iff.2 (by omega)]
      have : ((y.complete c.completion).tick s.input).pins = y.pins := (complete_pins ..).1
      rw [this]; rfl

/-- A step of a running operation uses one input and shifts it into the synchroniser. -/
theorem step_clock {s t : State} {c : CurOp} (hc : s.cur = some c) (hr : s.input.rst = false) (h : step s = .next t) :
    t.inputs = s.inputs.tail ∧ t.rbSync = (s.input.rb :: s.rbSync).dropLast := by
  obtain ⟨s1, u, _, ⟨o, r, hs1⟩, h3, rfl⟩ := step_busy_inv hc hr h
  obtain ⟨_, _, h5, h6, _, _⟩ := seqCycle_sameHost h3
  simp only [State.tick, h5, h6, hs1, and_self]

/-- A running operation on a ready device, or without a POLL, shows its pins and ends. -/
theorem run_draws {c : CurOp} (tr : List Pins) (s : State) (hc : s.cur = some c) (htr : s.toDraw c = tr)
    (hin : s.NoResetFor tr.length) (hroom : s.rxLen + capCount (c.seq.drop s.seqPc) ≤ s.cfg.rxDepth)
    (hp : (∀ m ∈ c.seq, m.op ≠ .poll) ∨ s.DeviceReady tr.length) :
    pinTrace tr.length s = tr ∧ ∃ u, runSteps tr.length s = .next u ∧ u.busy = false := by
  induction tr generalizing s with
  | nil =>
    exfalso
    simp only [State.toDraw] at htr
    cases hl : c.seq.drop (s.settle c).seqPc with
    | nil => rw [hl] at htr; simp [pinsLeft] at htr
    | cons m r =>
      rw [hl] at htr
      cases m with
      | mk op q => cases op <;> simp [pinsLeft, Nat.max_def] at htr; split at htr <;> omega
  | cons p tr ih =>
    obtain ⟨hl, hq⟩ := hin
    simp only [List.length_cons] at hl hq hp ⊢
    obtain ⟨i, rest, hi⟩ : ∃ i rest, s.inputs = i :: rest := by
      cases h : s.inputs with
      | nil => simp [h] at hl
      | cons i rest => exact ⟨i, rest, rfl⟩
    have hii : s.input = i := by simp [State.input, hi]
    have hr : s.input.rst = false := by rw [hii]; exact hq i (by simp [hi])
    have hpoll : (∀ m ∈ c.seq, m.op ≠ .poll) ∨ s.rbS = true := hp.imp id fun h => rbSync_ready h.1 h.2.1
    obtain ⟨o, rd, hst⟩ := step_busy hc hr
    obtain ⟨v, hv⟩ : ∃ v, ({ s with overrun := o, rData := rd } : State).seqCycle s.input.levels = .next v := by
      refine seqCycle_next (s := { s with overrun := o, rData := rd }) hc fun m hm hcap => ?_
      rw [(settle_pins _ c).2.2] at hm
      have h1 := capCount_skipZero c.seq s.seqPc
      have h2 := drop_eq_cons hm
      have h3 : ({ s with overrun := o, rData := rd } : State).seqPc = s.seqPc := rfl
      rw [h3] at h2
      rw [h2, capCount_cons, if_pos hcap] at h1
      show s.rxLen < s.cfg.rxDepth
      omega
    have hs : step s = .next (v.tick s.input) := by rw [hst, hv]; rfl
    generalize v.tick s.input = t at hs
    obtain ⟨e1, e2⟩ := step_clock hc hr hs
    simp only [pinTrace, hs]
    rcases step_draws hc hr hpoll hs with ⟨h1, h2⟩ | ⟨h1, h2, h3⟩
    · rw [htr, List.cons.injEq] at h2
      obtain ⟨rfl, rfl⟩ := h2
      exact ⟨rfl, t, by simp [runSteps, hs, andThen], by simp [State.busy, h1]⟩
    · rw [htr, List.cons.injEq] at h2
      obtain ⟨rfl, h2⟩ := h2
      rw [hi, List.tail_cons] at e1
      obtain ⟨a1, u, a2, a3⟩ := ih t h1 h2.symm ⟨by rw [e1]; simp [hi] at hl; exact hl, fun x hx => hq x (by
          rw [e1] at hx; simp [hi, hx])⟩ (h3 hroom) (hp.imp id fun h => ⟨by
            rw [e2]; intro hne; have := congrArg List.length hne; simp at this; exact h.1 this, by
            rw [e2, hii, h.2.2 i (by simp [hi]), rbSync_shift h.2.1]; exact h.2.1, fun x hx => h.2.2 x (by
            rw [e1] at hx; simp [hi, hx])⟩)
      exact ⟨by rw [a1], u, by rw [runSteps_succ _ hs]; exact a2, a3⟩

/-- What an accepted operation shows is its sequence, if that takes a cycle. -/
theorem toDraw_accept (s : State) (op : Instr) (seq : List MicroStep) (k : Completion) (c : CurOp) (hc : c.seq = seq)
    (hne : pinsRun s.pins seq ≠ []) : (s.accept op seq k).toDraw c = pinsRun s.pins seq := by
  have hpins : (s.accept op seq k).pins = s.pins := rfl
  obtain ⟨p1, p2, p3⟩ := settle_pins (s.accept op seq k) c
  simp only [State.toDraw, p3, hpins, hc]
  have h0 : (s.accept op seq k).seqPc = 0 := rfl
  rw [h0]
  have hrun := pinsRun_skipZero s.pins seq 0
  rw [List.drop_zero] at hrun
  have hlt : skipZero seq 0 < seq.length := by
    by_contra hge
    rw [List.drop_eq_nil_iff.2 (by omega)] at hrun
    exact hne hrun.symm
  have hn := List.getElem?_eq_getElem hlt
  have hdn := drop_eq_cons hn
  have hzn := zeroRun_skipZero seq 0
  have hzm : (seq[skipZero seq 0]).op ≠ .dly 0 := by rw [hdn] at hzn; exact zeroRun_cons_eq_zero.1 hzn
  have hd : ((s.accept op seq k).settle c).dlyCnt = loadDly seq[skipZero seq 0]? := by
    simp only [State.settle, hc, h0]
    split
    · rename_i h; rw [h]; rfl
    · rfl
  rw [hd, hn, hdn, pinsLeft_load _ _ _ hzm, ← hdn, hrun]

/-- An operation shows the pins of its sequence. -/
theorem draws_of {i : Instr} {s : State} {tr : List Pins} (h : s.busy = false) (hd : DomainOk i s)
    (hcap : capCount (expand i s) ≤ s.cfg.rxDepth) (htr : pinsRun s.pins (expand i s) = tr) (hne : tr ≠ [])
    (hp : (∀ m ∈ expand i s, m.op ≠ .poll) ∨ s.DeviceReady tr.length) : Draws i s tr := by
  intro hin
  obtain ⟨c, hc, hseq⟩ : ∃ c, (s.accept (runningOp i) (expand i s) (completionOf i)).cur = some c ∧ c.seq = expand i s :=
    ⟨_, rfl, rfl⟩
  obtain ⟨h1, u, h2, h3⟩ := run_draws (c := c) tr (s.accept (runningOp i) (expand i s) (completionOf i)) hc
    ((toDraw_accept s _ _ _ _ hseq (by rw [htr]; exact hne)).trans htr) hin
    (by show 0 + capCount (c.seq.drop 0) ≤ s.cfg.rxDepth; rw [List.drop_zero, Nat.zero_add, hseq]; exact hcap)
    (by rw [hseq]; exact hp)
  exact ⟨_, u, exec_accepts h hd, rfl, h1, h2, h3⟩

/-! ### The pins in the phases, from idle lines -/

theorem lineWord_getLsbD (wp : Bool) (w : Latch) (d : Byte) (i : Nat) :
    (lineWord wp w d).getLsbD i = ((w.getLsbD i && (wp || !decide (i = 8))) || (decide (i < 14) && d.getLsbD i)) := by
  have h : (0x3EFF#14).getLsbD i = (decide (i < 14) && !decide (i = 8)) := by
    by_cases hi : i < 14
    · interval_cases i <;> rfl
    · rw [BitVec.getLsbD_of_ge _ _ (by omega)]; simp [hi]
  have hw : i < 14 ∨ w.getLsbD i = false := by
    by_cases hi : i < 14
    · exact .inl hi
    · exact .inr (BitVec.getLsbD_of_ge _ _ (by omega))
  have hl : lineWord wp w d = (if wp then w else w &&& 0x3EFF#14) ||| d.setWidth 14 := rfl
  cases wp <;> rw [hl] <;>
    simp only [if_true, if_false, Bool.false_eq_true, BitVec.getLsbD_or, BitVec.getLsbD_setWidth, BitVec.getLsbD_and, h] <;>
    rcases hw with hw | hw <;> simp [-BitVec.getLsbD_eq_getElem, hw]

/-- A masked write of control lines other than WP. -/
theorem lineWord_control (wp : Bool) {mask val w v : Latch} (d : Byte) (hm : mask &&& 0x01FF#14 = 0#14)
    (hv : muxLines mask val w = v) : muxLines mask val (lineWord wp w d) = lineWord wp v d := by
  subst hv
  apply BitVec.eq_of_getLsbD_eq
  intro i hi
  have h9 : i < 9 → mask.getLsbD i = false := by
    intro h
    have := congrArg (fun x : Latch => x.getLsbD i) hm
    have h1 : (0x01FF#14).getLsbD i = true := by interval_cases i <;> rfl
    simpa [-BitVec.getLsbD_eq_getElem, h1] using this
  simp only [muxLines_getLsbD, lineWord_getLsbD]
  by_cases hi9 : i < 9
  · simp [h9 hi9]
  · have hd : d.getLsbD i = false := BitVec.getLsbD_of_ge _ _ (by omega)
    simp [hd, show i ≠ 8 by omega]

/-- A write of the data field. -/
theorem lineWord_data (wp : Bool) {w : Latch} (d b : Byte) (hw : w &&& 0x00FF#14 = 0#14) :
    muxLines mD (b.setWidth 14) (lineWord wp w d) = lineWord wp w b := by
  apply BitVec.eq_of_getLsbD_eq
  intro i hi
  have hm : mD.getLsbD i = decide (i < 8) := by interval_cases i <;> rfl
  have h8 : i < 8 → w.getLsbD i = false := by
    intro h
    have := congrArg (fun x : Latch => x.getLsbD i) hw
    have h1 : (0x00FF#14).getLsbD i = true := by interval_cases i <;> rfl
    simpa [-BitVec.getLsbD_eq_getElem, h1] using this
  simp only [muxLines_getLsbD, lineWord_getLsbD, hm, BitVec.getLsbD_setWidth]
  by_cases hi8 : i < 8
  · simp [-BitVec.getLsbD_eq_getElem, hi8, h8 hi8, hi]
  · have hd : d.getLsbD i = false := BitVec.getLsbD_of_ge _ _ (by omega)
    have hb : b.getLsbD i = false := BitVec.getLsbD_of_ge _ _ (by omega)
    simp [hi8, hd, hb]

/-- The idle restore (40_bus_interface.md R120). -/
theorem lineWord_idle (c : Config) (wp : Bool) {w : Latch} (d : Byte) (hw : w.getLsbD 8 = true) :
    idleLines c (lineWord wp w d) = lineWord wp 0x3300#14 c.dataIdle := by
  have h8 : (lineWord wp w d).getLsbD 8 = wp := by
    rw [lineWord_getLsbD, hw, BitVec.getLsbD_of_ge d 8 (by omega)]; simp
  have h8' : (lineWord wp 0x3300#14 c.dataIdle).getLsbD 8 = wp := by
    rw [lineWord_getLsbD, BitVec.getLsbD_of_ge c.dataIdle 8 (by omega)]; simp
  rw [idleLines_congr c (h8.trans h8'.symm)]
  apply BitVec.eq_of_getLsbD_eq
  intro i hi
  simp only [idleLines, BitVec.getLsbD_or, BitVec.getLsbD_and, BitVec.getLsbD_setWidth, lineWord_getLsbD, lit_getLsbD_100]
  by_cases h : i = 8
  · subst h; cases wp <;> simp
  · simp only [h, decide_false, Bool.and_false, Bool.or_false, Bool.not_false, Bool.or_true, Bool.and_true]
    congr 1
    interval_cases i <;> first | rfl | omega

section
variable (c : Config) (wp : Bool)

theorem draw_sendCommand (b : Byte) :
    pinsRun (driving wp 0x3300#14 c.dataIdle) (sendCommand c b) = commandTrace c wp b ∧
      pinsEnd (driving wp 0x3300#14 c.dataIdle) (sendCommand c b) = driving wp 0x3300#14 c.dataIdle := by
  simp only [sendCommand, plainStep, phaseStep, restoreIdle, pinsRun, pinsEnd_cons, pinsEnd_nil, pinsAfter, driving,
    lineWord_control wp (w := 0x3300#14) (v := 0x2900#14) c.dataIdle (mask := mCLE ||| mCE ||| mALE ||| mWE) (val := mCLE) (by decide) (by decide),
    lineWord_data wp (w := 0x2900#14) c.dataIdle b (by decide),
    lineWord_control wp (w := 0x2900#14) (v := 0x2B00#14) b (mask := mWE) (val := mWE) (by decide) (by decide),
    lineWord_control wp (w := 0x2B00#14) (v := 0x2300#14) b (mask := mCLE) (val := 0#14) (by decide) (by decide),
    muxLines_restore, lineWord_idle c wp (w := 0x2300#14) b (by decide)]
  simp only [commandTrace, driving, Nat.add_comm 1, List.replicate_succ, List.cons_append, List.nil_append,
    List.append_assoc, and_true]

/-- The bytes of an address or data-out phase. -/
theorem draw_bytes {high low : Latch} (hl : muxLines mWE 0#14 high = low) (hh : muxLines mWE mWE low = high)
    (hd : low &&& 0x00FF#14 = 0#14) (p : Byte) (a : List Byte) :
    pinsRun (driving wp high p) (a.flatMap (writeByte c)) = bytesTrace c wp high low p a ∧
      pinsEnd (driving wp high p) (a.flatMap (writeByte c)) = driving wp high (a.getLastD p) := by
  induction a generalizing p with
  | nil => exact ⟨rfl, rfl⟩
  | cons b r ih =>
    have h1 : pinsRun (driving wp high p) (writeByte c b) = List.replicate c.tHold (driving wp high p) ++
        [driving wp low p] ++ List.replicate (1 + c.tSetup) (driving wp low b) ++ [driving wp high b] ∧
        pinsEnd (driving wp high p) (writeByte c b) = driving wp high b := by
      simp only [writeByte, plainStep, pinsRun, pinsEnd_cons, pinsEnd_nil, pinsAfter, driving,
        lineWord_control wp p (mask := mWE) (val := 0#14) (by decide) hl, lineWord_data wp p b hd,
        lineWord_control wp b (mask := mWE) (val := mWE) (by decide) hh]
      simp only [Nat.add_comm 1, List.replicate_succ, List.cons_append, List.nil_append, List.append_assoc, and_true]
    obtain ⟨h2, h3⟩ := ih b
    have h4 : (b :: r).getLastD p = r.getLastD b := by cases r <;> rfl
    simp only [List.flatMap_cons, pinsRun_append, pinsEnd_append, h1.1, h1.2, h2, h3, bytesTrace, h4, and_self]

theorem draw_sendAddress (a : List Byte) :
    pinsRun (driving wp 0x3300#14 c.dataIdle) (sendAddress c a) = addressTrace c wp a ∧
      pinsEnd (driving wp 0x3300#14 c.dataIdle) (sendAddress c a) = driving wp 0x3300#14 c.dataIdle := by
  obtain ⟨h1, h2⟩ := draw_bytes c wp (high := 0x2700#14) (low := 0x2500#14) (by decide) (by decide) (by decide) c.dataIdle a
  have h3 : pinsAfter (driving wp 0x3300#14 c.dataIdle) (.lines (mALE ||| mCLE ||| mCE) mALE) =
      driving wp 0x2700#14 c.dataIdle := by
    simp only [pinsAfter, driving, lineWord_control wp (w := 0x3300#14) (v := 0x2700#14) c.dataIdle
      (mask := mALE ||| mCLE ||| mCE) (val := mALE) (by decide) (by decide)]
  simp only [sendAddress, plainStep, phaseStep, restoreIdle, List.cons_append, List.nil_append, pinsRun, pinsEnd_cons,
    pinsEnd_nil, h3, pinsRun_append, pinsEnd_append, h1, h2, addressTrace]
  simp only [pinsAfter, driving, muxLines_restore,
    lineWord_control wp (w := 0x2700#14) (v := 0x2300#14) _ (mask := mALE) (val := 0#14) (by decide) (by decide),
    lineWord_idle c wp (w := 0x2300#14) _ (by decide), and_self]

theorem draw_sendData (a : List Byte) :
    pinsRun (driving wp 0x3300#14 c.dataIdle) (sendData c a) = dataTrace c wp a ∧
      pinsEnd (driving wp 0x3300#14 c.dataIdle) (sendData c a) = driving wp 0x3300#14 c.dataIdle := by
  obtain ⟨h1, h2⟩ := draw_bytes c wp (high := 0x2300#14) (low := 0x2100#14) (by decide) (by decide) (by decide) c.dataIdle a
  have h3 : pinsAfter (driving wp 0x3300#14 c.dataIdle) (.lines (mCLE ||| mALE ||| mCE) 0#14) =
      driving wp 0x2300#14 c.dataIdle := by
    simp only [pinsAfter, driving, lineWord_control wp (w := 0x3300#14) (v := 0x2300#14) c.dataIdle
      (mask := mCLE ||| mALE ||| mCE) (val := 0#14) (by decide) (by decide)]
  simp only [sendData, phaseStep, restoreIdle, List.cons_append, List.nil_append, pinsRun, pinsEnd_cons,
    pinsEnd_nil, h3, pinsRun_append, pinsEnd_append, h1, h2, dataTrace]
  simp only [pinsAfter, driving, muxLines_restore, lineWord_idle c wp (w := 0x2300#14) _ (by decide), and_self]

theorem draw_readBytes (n : Nat) :
    pinsRun (released wp 0x2300#14 c.dataIdle) (List.replicate n (readByte c)).flatten =
        (List.replicate n (List.replicate (2 + c.tSample) (released wp 0x0300#14 c.dataIdle) ++
          List.replicate (1 + c.tHold) (released wp 0x2300#14 c.dataIdle))).flatten ∧
      pinsEnd (released wp 0x2300#14 c.dataIdle) (List.replicate n (readByte c)).flatten =
        released wp 0x2300#14 c.dataIdle := by
  have h1 : pinsRun (released wp 0x2300#14 c.dataIdle) (readByte c) =
      List.replicate (2 + c.tSample) (released wp 0x0300#14 c.dataIdle) ++
        List.replicate (1 + c.tHold) (released wp 0x2300#14 c.dataIdle) ∧
      pinsEnd (released wp 0x2300#14 c.dataIdle) (readByte c) = released wp 0x2300#14 c.dataIdle := by
    simp only [readByte, plainStep, pinsRun, pinsEnd_cons, pinsEnd_nil, pinsAfter, released,
      lineWord_control wp (w := 0x2300#14) (v := 0x0300#14) c.dataIdle (mask := mRE) (val := 0#14) (by decide) (by decide),
      lineWord_control wp (w := 0x0300#14) (v := 0x2300#14) c.dataIdle (mask := mRE) (val := mRE) (by decide) (by decide)]
    rw [show 2 + c.tSample = 1 + (c.tSample + 1) by omega, Nat.add_comm 1 c.tHold, List.replicate_add,
      List.replicate_add (m := c.tSample), List.replicate_succ (n := c.tHold)]
    simp
  induction n with
  | zero => exact ⟨rfl, rfl⟩
  | succ n ih =>
    simp only [List.replicate_succ (n := n), List.flatten_cons, pinsRun_append, pinsEnd_append, h1.1, h1.2, ih.1, ih.2,
      and_self]

theorem draw_receiveData (n : Nat) :
    pinsRun (driving wp 0x3300#14 c.dataIdle) (receiveData c n) = receiveTrace c wp n ∧
      pinsEnd (driving wp 0x3300#14 c.dataIdle) (receiveData c n) = driving wp 0x3300#14 c.dataIdle := by
  obtain ⟨h1, h2⟩ := draw_readBytes c wp n
  have hi : dirWithData .input 0x3FFF#15 = 0x3F00#15 := by decide
  have ho : dirWithData .output 0x3F00#15 = 0x3FFF#15 := by decide
  simp only [released] at h1 h2
  simp only [receiveData, plainStep, phaseStep, restoreIdle, List.cons_append, List.nil_append, pinsRun, pinsEnd_cons,
    pinsEnd_nil, pinsAfter, driving, hi, pinsRun_append, pinsEnd_append, muxLines_restore,
    lineWord_control wp (w := 0x3300#14) (v := 0x2300#14) c.dataIdle (mask := mCLE ||| mALE ||| mCE) (val := 0#14)
      (by decide) (by decide), h1, h2, ho, lineWord_idle c wp (w := 0x2300#14) _ (by decide), receiveTrace, released,
    and_self]

theorem draw_wait (e : Delay) :
    pinsRun (driving wp 0x3300#14 c.dataIdle) (wait c e) = holdTrace c wp (delayOf c e) ∧
      pinsEnd (driving wp 0x3300#14 c.dataIdle) (wait c e) = driving wp 0x3300#14 c.dataIdle := by
  simp [wait, plainStep, pinsRun, pinsEnd_cons, pinsAfter, holdTrace]

theorem draw_waitReady :
    pinsRun (driving wp 0x3300#14 c.dataIdle) waitReady = holdTrace c wp 1 ∧
      pinsEnd (driving wp 0x3300#14 c.dataIdle) waitReady = driving wp 0x3300#14 c.dataIdle := by
  simp [waitReady, plainStep, pinsRun, pinsEnd_cons, pinsAfter, holdTrace]

end

/-! ### Sequences that start and end at idle lines -/

/-- From idle lines the sequence shows these pins and leaves the lines at idle. -/
def DrawsAs (c : Config) (wp : Bool) (q : List MicroStep) (tr : List Pins) : Prop :=
  pinsRun (driving wp 0x3300#14 c.dataIdle) q = tr ∧
    pinsEnd (driving wp 0x3300#14 c.dataIdle) q = driving wp 0x3300#14 c.dataIdle

theorem holdTrace_add (c : Config) (wp : Bool) (a b : Nat) :
    holdTrace c wp (a + b) = holdTrace c wp a ++ holdTrace c wp b := List.replicate_add ..

section
variable {c : Config} {wp : Bool}

theorem DrawsAs.append {q r : List MicroStep} {a b : List Pins} (h1 : DrawsAs c wp q a) (h2 : DrawsAs c wp r b) :
    DrawsAs c wp (q ++ r) (a ++ b) := by
  obtain ⟨h1, h3⟩ := h1
  obtain ⟨h2, h4⟩ := h2
  exact ⟨by rw [pinsRun_append, h1, h3, h2], by rw [pinsEnd_append, h3, h4]⟩

theorem DrawsAs.flatMap {α : Type} (l : List α) {f : α → List MicroStep} {g : α → List Pins}
    (h : ∀ x, DrawsAs c wp (f x) (g x)) : DrawsAs c wp (l.flatMap f) (l.flatMap g) := by
  induction l with
  | nil => exact ⟨rfl, rfl⟩
  | cons x r ih => exact (h x).append ih

theorem DrawsAs.replicate (n : Nat) {q : List MicroStep} {a : List Pins} (h : DrawsAs c wp q a) :
    DrawsAs c wp (List.replicate n q).flatten (List.replicate n a).flatten := by
  induction n with
  | zero => exact ⟨rfl, rfl⟩
  | succ n ih => exact h.append ih

variable (c wp)

theorem draws_dly (k : Nat) : DrawsAs c wp [plainStep (.dly k)] (holdTrace c wp k) := by
  simp [DrawsAs, plainStep, pinsRun, pinsEnd_cons, pinsAfter, holdTrace]

/-- A delay with the POLL after it. -/
theorem draws_wait_ready (e : Delay) : DrawsAs c wp (wait c e ++ waitReady) (holdTrace c wp (delayOf c e + 1)) := by
  rw [holdTrace_add]; exact DrawsAs.append (draw_wait c wp e) (draw_waitReady c wp)

theorem draws_deviceReset : DrawsAs c wp (deviceReset c) (resetTrace c wp) := by
  rw [deviceReset, List.append_assoc]; exact DrawsAs.append (draw_sendCommand ..) (draws_wait_ready c wp .wb)

theorem draws_readStatus : DrawsAs c wp (readStatus c) (statusTrace c wp) :=
  (DrawsAs.append (draw_sendCommand ..) (draw_wait c wp .whr)).append (draw_receiveData ..)

theorem draws_readId (column : Byte) (n : Nat) : DrawsAs c wp (readId c column n) (idTrace c wp column n) :=
  (((DrawsAs.append (draw_waitReady ..) (draw_sendCommand ..)).append (draw_sendAddress ..)).append
    (draw_wait c wp .adl)).append (draw_receiveData ..)

theorem draws_readPage (a : List Byte) : DrawsAs c wp (readPage c a) (readPageTrace c wp a) := by
  rw [readPage, List.append_assoc _ (wait c .wb)]
  exact (((DrawsAs.append (draw_waitReady ..) (draw_sendCommand ..)).append (draw_sendAddress ..)).append
    (draw_sendCommand ..)).append (draws_wait_ready c wp .wb)

theorem draws_programBody (a d : List Byte) (b : Byte) :
    DrawsAs c wp (programBody c a d b) (programTrace c wp a d b) := by
  rw [programBody, List.append_assoc _ (wait c .wb)]
  exact ((((DrawsAs.append (draw_sendCommand ..) (draw_sendAddress ..)).append (draw_wait c wp .adl)).append
    (draw_sendData ..)).append (draw_sendCommand ..)).append (draws_wait_ready c wp .wb)

theorem draws_eraseOpening (a : List Byte) : DrawsAs c wp (eraseOpening c a) (eraseTrace c wp a) :=
  ((DrawsAs.append (draw_waitReady ..) (draw_sendCommand ..)).append (draw_sendAddress ..)).append (draw_sendCommand ..)

end

end Sys2Proof.Machine
end

