-- ==== Sys2Proof/Laws/PerInstr.lean ====
section
/-! SUPPORT. Statements about every instruction as syntax, one lemma per constructor: the encoder writes 0 in every bit
that the operation ignores (30_encoding.md R81, R83), so the encoding of an instruction is the canonical one. -/

namespace Sys2Proof.Laws

open Sys2Proof.Machine (usedBits)

/-- The encoding of `i` has no ignored bit set. -/
def FixedBits.Statement (i : Instr) : Prop := usedBits (encode i) = encode i

theorem FixedBits.setline (line : BitVec 4) (value : Bool) : FixedBits.Statement (.setline line value) := by unfold FixedBits.Statement; revert line value; decide

theorem FixedBits.readline (line : BitVec 4) : FixedBits.Statement (.readline line) := by unfold FixedBits.Statement; revert line; decide

theorem FixedBits.wrdata (byte : Byte) : FixedBits.Statement (.wrdata byte) := by unfold FixedBits.Statement; revert byte; decide

theorem FixedBits.rddata : FixedBits.Statement .rddata := rfl

theorem FixedBits.setdir (dir : Direction) : FixedBits.Statement (.setdir dir) := by unfold FixedBits.Statement; cases dir <;> rfl

theorem FixedBits.wait (sel : BitVec 4) : FixedBits.Statement (.wait sel) := by unfold FixedBits.Statement; revert sel; decide

theorem FixedBits.sendcmd (cmd : Byte) : FixedBits.Statement (.sendcmd cmd) := by unfold FixedBits.Statement; revert cmd; decide

theorem FixedBits.sendaddr (n : BitVec 3) : FixedBits.Statement (.sendaddr n) := by unfold FixedBits.Statement; revert n; decide

theorem FixedBits.senddata : FixedBits.Statement .senddata := rfl

theorem FixedBits.recvdata : FixedBits.Statement .recvdata := rfl

theorem FixedBits.waitrdy : FixedBits.Statement .waitrdy := rfl

theorem FixedBits.init : FixedBits.Statement .init := rfl

theorem FixedBits.reset : FixedBits.Statement .reset := rfl

theorem FixedBits.resetlun : FixedBits.Statement .resetlun := rfl

theorem FixedBits.rdmfid : FixedBits.Statement .rdmfid := rfl

theorem FixedBits.rdonfiid : FixedBits.Statement .rdonfiid := rfl

theorem FixedBits.rdjedecid : FixedBits.Statement .rdjedecid := rfl

theorem FixedBits.rduid : FixedBits.Statement .rduid := rfl

theorem FixedBits.rdstatus : FixedBits.Statement .rdstatus := rfl

theorem FixedBits.rdstatuse : FixedBits.Statement .rdstatuse := rfl

theorem FixedBits.rdpage : FixedBits.Statement .rdpage := rfl

theorem FixedBits.chgrdcol : FixedBits.Statement .chgrdcol := rfl

theorem FixedBits.chgwrcol : FixedBits.Statement .chgwrcol := rfl

theorem FixedBits.chgrow : FixedBits.Statement .chgrow := rfl

theorem FixedBits.progpage : FixedBits.Statement .progpage := rfl

theorem FixedBits.progcache : FixedBits.Statement .progcache := rfl

theorem FixedBits.erase : FixedBits.Statement .erase := rfl

theorem FixedBits.perase : FixedBits.Statement .perase := rfl

theorem FixedBits.rdcacheseq : FixedBits.Statement .rdcacheseq := rfl

theorem FixedBits.nandReset : FixedBits.Statement .nandReset := rfl

theorem FixedBits.nandResetLun : FixedBits.Statement .nandResetLun := rfl

theorem FixedBits.nandReadId : FixedBits.Statement .nandReadId := rfl

theorem FixedBits.nandReadUniqueId : FixedBits.Statement .nandReadUniqueId := rfl

theorem FixedBits.nandReadStatus : FixedBits.Statement .nandReadStatus := rfl

theorem FixedBits.nandReadStatusEnh : FixedBits.Statement .nandReadStatusEnh := rfl

theorem FixedBits.nandRead1 : FixedBits.Statement .nandRead1 := rfl

theorem FixedBits.nandRead2 : FixedBits.Statement .nandRead2 := rfl

theorem FixedBits.nandReadCacheNext : FixedBits.Statement .nandReadCacheNext := rfl

theorem FixedBits.nandReadCacheLast : FixedBits.Statement .nandReadCacheLast := rfl

theorem FixedBits.nandChgRdCol1 : FixedBits.Statement .nandChgRdCol1 := rfl

theorem FixedBits.nandChgRdCol2 : FixedBits.Statement .nandChgRdCol2 := rfl

theorem FixedBits.nandProgram1 : FixedBits.Statement .nandProgram1 := rfl

theorem FixedBits.nandProgram2 : FixedBits.Statement .nandProgram2 := rfl

theorem FixedBits.nandProgramCache : FixedBits.Statement .nandProgramCache := rfl

theorem FixedBits.nandChgWrColRow : FixedBits.Statement .nandChgWrColRow := rfl

theorem FixedBits.nandErase1 : FixedBits.Statement .nandErase1 := rfl

theorem FixedBits.nandErase2 : FixedBits.Statement .nandErase2 := rfl

end Sys2Proof.Laws
end

