-- ==== Sys2Proof/Laws/Static.lean ====
section
/-! SUPPORT. What holds of the sequence of every operation before it runs: PHASE leaves Idle for one phase at a time and
returns to it (42_phase_engine.md R135), the captures fit RXBUF (42_phase_engine.md R140, 30_encoding.md R96), and every
delay fits the counter (41_timing.md R126). -/

namespace Sys2Proof.Machine

theorem phases_append {p : Phase} {a b : List MicroStep} (ha : PhasesOk p a) (hb : PhasesOk .idle b) : PhasesOk p (a ++ b) := by
  induction a generalizing p with
  | nil =>
    have : p = .idle := ha
    subst this; exact hb
  | cons m r ih =>
    simp only [List.cons_append, PhasesOk] at ha ⊢
    cases hm : m.phase with
    | none => rw [hm] at ha; exact ih ha
    | some q => rw [hm] at ha; exact ⟨ha.1, ih ha.2⟩

theorem phases_none {p : Phase} {a b : List MicroStep} (ha : ∀ m ∈ a, m.phase = none) (hb : PhasesOk p b) : PhasesOk p (a ++ b) := by
  induction a with
  | nil => exact hb
  | cons m r ih =>
    simp only [List.cons_append, PhasesOk, ha m (by simp)]
    exact ih fun x hx => ha x (by simp [hx])

section
variable (c : Config)

theorem phases_cmd (b : Byte) : PhasesOk .idle (sendCommand c b) := by
  simp [sendCommand, PhasesOk, phaseStep, plainStep, restoreIdle]

theorem none_writeBytes (a : List Byte) : ∀ m ∈ a.flatMap (writeByte c), m.phase = none := by
  intro m hm
  obtain ⟨x, _, hx⟩ := List.mem_flatMap.1 hm
  revert hx; simp only [writeByte, plainStep, List.mem_cons, List.not_mem_nil, or_false]
  rintro (rfl | rfl | rfl | rfl | rfl) <;> rfl

theorem phases_adr (a : List Byte) : PhasesOk .idle (sendAddress c a) := by
  rw [sendAddress, List.append_assoc]
  refine ⟨.inl rfl, phases_none (a := a.flatMap (writeByte c)) (none_writeBytes c a) ?_⟩
  simp [PhasesOk, phaseStep, plainStep, restoreIdle]

theorem phases_data (a : List Byte) : PhasesOk .idle (sendData c a) := by
  rw [sendData, List.append_assoc]
  refine ⟨.inl rfl, phases_none (a := a.flatMap (writeByte c)) (none_writeBytes c a) ?_⟩
  simp [PhasesOk, phaseStep, plainStep, restoreIdle]

theorem phases_recv (n : Nat) : PhasesOk .idle (receiveData c n) := by
  rw [receiveData, List.append_assoc]
  refine ⟨.inl rfl, phases_none (a := (List.replicate n (readByte c)).flatten) ?_ ?_⟩
  · intro m hm
    simp only [List.mem_flatten, List.mem_replicate] at hm
    obtain ⟨l, ⟨_, rfl⟩, hm⟩ := hm
    revert m; simp [readByte, plainStep]
  · simp [PhasesOk, phaseStep, plainStep, restoreIdle]

theorem phases_wait (d : Delay) : PhasesOk .idle (wait c d) := by simp [wait, PhasesOk, plainStep]
theorem phases_ready : PhasesOk .idle waitReady := by simp [waitReady, PhasesOk, plainStep]
theorem phases_one (op : MicroOp) : PhasesOk .idle [plainStep op] := by simp [PhasesOk, plainStep]

theorem phases_flatten (l : List (List MicroStep)) (h : ∀ x ∈ l, PhasesOk .idle x) : PhasesOk .idle l.flatten := by
  induction l with
  | nil => rfl
  | cons a r ih => exact phases_append (h a (by simp)) (ih fun x hx => h x (by simp [hx]))

theorem phases_status : PhasesOk .idle (readStatus c) :=
  phases_append (phases_append (phases_cmd c _) (phases_wait c _)) (phases_recv c _)
theorem phases_reset : PhasesOk .idle (deviceReset c) :=
  phases_append (phases_append (phases_cmd c _) (phases_wait c _)) phases_ready
theorem phases_id (a : Byte) (n : Nat) : PhasesOk .idle (readId c a n) :=
  phases_append (phases_append (phases_append (phases_append phases_ready (phases_cmd c _)) (phases_adr c _)) (phases_wait c _)) (phases_recv c _)
theorem phases_page (a : List Byte) : PhasesOk .idle (readPage c a) :=
  phases_append (phases_append (phases_append (phases_append (phases_append phases_ready (phases_cmd c _)) (phases_adr c _)) (phases_cmd c _)) (phases_wait c _)) phases_ready
theorem phases_prog (a d : List Byte) (b : Byte) : PhasesOk .idle (programBody c a d b) :=
  phases_append (phases_append (phases_append (phases_append (phases_append (phases_append (phases_cmd c _) (phases_adr c _)) (phases_wait c _)) (phases_data c _)) (phases_cmd c _)) (phases_wait c _)) phases_ready
theorem phases_open (a : List Byte) : PhasesOk .idle (eraseOpening c a) :=
  phases_append (phases_append (phases_append phases_ready (phases_cmd c _)) (phases_adr c _)) (phases_cmd c _)
theorem phases_next : PhasesOk .idle (cacheNext c) :=
  phases_append (phases_append (phases_append (phases_cmd c _) (phases_wait c _)) phases_ready) (phases_recv c _)
end

/-- The sequence of every operation goes from Idle through one phase at a time back to Idle (R135). -/
theorem phases_expand (i : Instr) (s : State) : PhasesOk .idle (expand i s) := by
  have hcmd := phases_cmd s.cfg
  cases i with
  | setline l v => exact phases_one _
  | readline l => exact phases_one _
  | wrdata b => exact phases_one _
  | rddata => exact phases_one _
  | setdir d => exact phases_one _
  | wait sel =>
    show PhasesOk .idle (waitSeq s.cfg sel)
    simp only [waitSeq]; split
    · exact phases_wait ..
    · rfl
  | sendcmd b => exact hcmd _
  | sendaddr n => exact phases_adr ..
  | senddata => exact phases_data ..
  | recvdata => exact phases_recv ..
  | waitrdy => exact phases_ready
  | init => exact phases_append (phases_append (phases_append (a := [plainStep _, plainStep _]) (by simp [PhasesOk, plainStep]) (phases_wait ..)) phases_ready) (phases_reset _)
  | reset => exact phases_reset _
  | resetlun => exact phases_append (phases_append (phases_append (hcmd _) (phases_adr ..)) (phases_wait ..)) phases_ready
  | rdmfid => exact phases_id ..
  | rdonfiid => exact phases_id ..
  | rdjedecid => exact phases_id ..
  | rduid => exact phases_append (phases_append (phases_append (phases_append (phases_append (phases_append (hcmd _) (phases_adr ..)) (phases_wait ..)) (phases_wait ..)) (phases_wait ..)) phases_ready) (phases_recv ..)
  | rdstatus => exact phases_status _
  | rdstatuse => exact phases_append (phases_append (phases_append (hcmd _) (phases_adr ..)) (phases_wait ..)) (phases_recv ..)
  | rdpage => exact phases_page ..
  | chgrdcol => exact phases_append (phases_append (phases_append (phases_append (phases_wait ..) (hcmd _)) (phases_adr ..)) (hcmd _)) (phases_wait ..)
  | chgwrcol => exact phases_append (phases_append (phases_append (phases_wait ..) (hcmd _)) (phases_adr ..)) (phases_wait ..)
  | chgrow => exact phases_append (phases_append (phases_append (phases_wait ..) (hcmd _)) (phases_adr ..)) (phases_wait ..)
  | progpage => exact phases_append (phases_prog ..) (phases_status _)
  | progcache =>
    refine phases_append (phases_append ?_ (phases_prog ..)) (phases_status _)
    rw [List.flatMap_def]
    refine phases_flatten _ fun x hx => ?_
    obtain ⟨p, _, rfl⟩ := List.mem_map.1 hx
    exact phases_prog ..
  | erase => exact phases_append (phases_append (phases_append (phases_open ..) (phases_wait ..)) phases_ready) (phases_status _)
  | perase => exact phases_append (phases_append (phases_open ..) (phases_one _)) (phases_reset _)
  | rdcacheseq =>
    refine phases_append (phases_append (phases_append (phases_page ..) ?_) (hcmd _)) (phases_recv ..)
    exact phases_flatten _ fun x hx => by rw [(List.mem_replicate.1 hx).2]; exact phases_next _
  | _ => exact hcmd _

theorem capCount_readPage (c : Config) (a : List Byte) : capCount (readPage c a) = 0 := by simp [readPage]
theorem capCount_prog (c : Config) (a d : List Byte) (b : Byte) : capCount (programBody c a d b) = 0 := by simp [programBody]
theorem capCount_flat {α : Type} (l : List α) (f : α → List MicroStep) (h : ∀ x, capCount (f x) = 0) : capCount (l.flatMap f) = 0 := by
  induction l with
  | nil => rfl
  | cons a r ih => rw [List.flatMap_cons, capCount_append, h, ih]

/-- An accepted operation's captures fit RXBUF (R140). -/
theorem caps_fit {i : Instr} {s : State} (hv : s.cfg.Valid) (hd : DomainOk i s) : capCount (expand i s) ≤ s.cfg.rxDepth := by
  have h32 : 32 ≤ s.cfg.rxDepth := hv.2.1
  cases i with
  | recvdata => simpa [expand, runningOp, DomainOk] using hd
  | wait sel =>
    show capCount (waitSeq s.cfg sel) ≤ _
    simp only [waitSeq]; split <;> simp
  | init => simp [expand, runningOp, initSeq, deviceReset, plainStep]
  | reset => simp [expand, runningOp, deviceReset]
  | resetlun => simp [expand, runningOp, resetLunSeq]
  | rdmfid => simp [expand, runningOp, readId]; omega
  | rdonfiid => simp [expand, runningOp, readId]; omega
  | rdjedecid => simp [expand, runningOp, readId]; omega
  | rduid => simp [expand, runningOp, readUniqueIdSeq]; omega
  | rdstatus => simp [expand, runningOp, readStatus]; omega
  | rdstatuse => simp [expand, runningOp, readStatusEnhancedSeq]; omega
  | rdpage => simp [expand, runningOp, capCount_readPage]
  | chgrdcol => simp [expand, runningOp, changeReadColumnSeq]
  | chgwrcol => simp [expand, runningOp, changeWriteColumnSeq]
  | chgrow => simp [expand, runningOp, changeRowAddressSeq]
  | progpage => simp [expand, runningOp, programPageSeq, capCount_prog, readStatus]; omega
  | progcache =>
    have : ∀ l : List Nat, capCount (l.flatMap fun p => programBody s.cfg (pageAddress s p) s.txbuf 0x15#8) = 0 :=
      fun l => capCount_flat l _ fun p => capCount_prog ..
    simp [expand, runningOp, programCacheSeq, capCount_prog, readStatus, this]; omega
  | erase => simp [expand, runningOp, eraseSeq, eraseOpening, readStatus]; omega
  | perase => simp [expand, runningOp, partialEraseSeq, eraseOpening, deviceReset, plainStep]
  | rdcacheseq =>
    obtain ⟨_, h1, _, h2⟩ := hd
    have : (s.pages.toNat - 1) * s.cfg.pageSize + s.cfg.pageSize = s.pages.toNat * s.cfg.pageSize := by
      obtain ⟨k, hk⟩ : ∃ k, s.pages.toNat = k + 1 := ⟨s.pages.toNat - 1, by omega⟩
      rw [hk]; simp [Nat.succ_mul]
    simp [expand, runningOp, readCacheSeq, capCount_readPage, capCount_replicate, cacheNext]; omega
  | _ => simp [expand, runningOp, plainStep]

/-- A named delay is below 2^DLY_W (00_scope.md R6). -/
theorem delay_fits {c : Config} (hv : c.Valid) (e : Delay) : delayOf c e < 2 ^ c.dlyW := by
  obtain ⟨⟨h1, h2, h3, h4, h5, h6, h7, h8, h9, h10, h11, h12⟩, _⟩ := hv
  cases e <;> assumption

/-- An accepted operation's delays fit the counter, and its DIRALL writes DIR_OUT (R126, R114). -/
theorem micros_ok {i : Instr} {s : State} (hv : s.cfg.Valid) (hd : DomainOk i s) : ∀ m ∈ expand i s, MicroOk s.cfg m := by
  refine all_expand _ i s (fun _ _ _ => trivial) (fun _ => ⟨trivial, rfl⟩) (fun _ _ => trivial) (fun _ _ => trivial) ?_
    (fun e => ⟨delay_fits hv e, rfl⟩) (fun _ => trivial) trivial trivial trivial ⟨trivial, trivial, trivial⟩ ⟨trivial, trivial⟩
    ⟨trivial, trivial⟩ ⟨trivial, trivial⟩ trivial trivial trivial trivial
  rintro rfl
  exact ⟨hd.2, rfl⟩

end Sys2Proof.Machine
end

