-- ==== Sys2Proof/Tests/Slice0.lean ====
section
/-! SUPPORT. Tests of the model against the spec's own encodings and vectors (95_test_vectors.md, configuration TV), and
for every statement that has hypotheses a concrete state that meets them. -/

namespace Sys2Proof.Machine

/-! ### WellFormed refuses an ill-formed term of each check -/

theorem test_wf_setline_ready_busy : (Instr.setline 14#4 true).wellFormed = false := rfl
theorem test_wf_setline_data_bit : (Instr.setline 7#4 true).wellFormed = false := rfl
theorem test_wf_readline_15 : (Instr.readline 15#4).wellFormed = false := rfl
theorem test_wf_readline_data_bit : (Instr.readline 7#4).wellFormed = false := rfl
theorem test_wf_wait_reserved : (Instr.wait 12#4).wellFormed = false := rfl
theorem test_wf_sendaddr_six : (Instr.sendaddr 6#3).wellFormed = false := rfl
theorem test_wf_accepts : (Instr.setline 13#4 true).wellFormed = true ∧ (Instr.readline 14#4).wellFormed = true ∧
    (Instr.wait 11#4).wellFormed = true ∧ (Instr.sendaddr 5#3).wellFormed = true := ⟨rfl, rfl, rfl, rfl⟩

/-! ### Every constructor from a word written out from 30_encoding.md R82, R83, R88 -/

theorem test_decode_setline : decode (.opw 0x00001801#32) = .ok (.setline 8#4 true) := rfl
theorem test_decode_readline : decode (.opw 0x00000E02#32) = .ok (.readline 14#4) := rfl
theorem test_decode_wrdata : decode (.opw 0x0000A503#32) = .ok (.wrdata 0xA5#8) := rfl
theorem test_decode_rddata : decode (.opw 0x00000004#32) = .ok .rddata := rfl
theorem test_decode_setdir : decode (.opw 0x00000105#32) = .ok (.setdir .output) := rfl
theorem test_decode_wait : decode (.opw 0x00000B08#32) = .ok (.wait 11#4) := rfl
theorem test_decode_sendcmd : decode (.opw 0x0000FF10#32) = .ok (.sendcmd 0xFF#8) := rfl
theorem test_decode_sendaddr : decode (.opw 0x00000511#32) = .ok (.sendaddr 5#3) := rfl
theorem test_decode_senddata : decode (.opw 0x00000012#32) = .ok .senddata := rfl
theorem test_decode_recvdata : decode (.opw 0x00000013#32) = .ok .recvdata := rfl
theorem test_decode_waitrdy : decode (.opw 0x00000018#32) = .ok .waitrdy := rfl
theorem test_decode_init : decode (.opw 0x00000020#32) = .ok .init := rfl
theorem test_decode_reset : decode (.opw 0xABCD00E1#32) = .ok .reset := rfl
theorem test_decode_resetlun : decode (.opw 0x00000022#32) = .ok .resetlun := rfl
theorem test_decode_rdmfid : decode (.opw 0x00000028#32) = .ok .rdmfid := rfl
theorem test_decode_rdonfiid : decode (.opw 0x00000029#32) = .ok .rdonfiid := rfl
theorem test_decode_rdjedecid : decode (.opw 0x0000002A#32) = .ok .rdjedecid := rfl
theorem test_decode_rduid : decode (.opw 0x0000002B#32) = .ok .rduid := rfl
theorem test_decode_rdstatus : decode (.opw 0x0000002C#32) = .ok .rdstatus := rfl
theorem test_decode_rdstatuse : decode (.opw 0x0000002D#32) = .ok .rdstatuse := rfl
theorem test_decode_rdpage : decode (.opw 0x00000030#32) = .ok .rdpage := rfl
theorem test_decode_chgrdcol : decode (.opw 0x00000031#32) = .ok .chgrdcol := rfl
theorem test_decode_chgwrcol : decode (.opw 0x00000032#32) = .ok .chgwrcol := rfl
theorem test_decode_chgrow : decode (.opw 0x00000033#32) = .ok .chgrow := rfl
theorem test_decode_progpage : decode (.opw 0x00000034#32) = .ok .progpage := rfl
theorem test_decode_progcache : decode (.opw 0x00000035#32) = .ok .progcache := rfl
theorem test_decode_erase : decode (.opw 0x00000036#32) = .ok .erase := rfl
theorem test_decode_perase : decode (.opw 0x00000037#32) = .ok .perase := rfl
theorem test_decode_rdcacheseq : decode (.opw 0x00000038#32) = .ok .rdcacheseq := rfl
theorem test_decode_nandReset : decode (.wire 0xFF#8) = .ok .nandReset := rfl
theorem test_decode_nandResetLun : decode (.wire 0xFA#8) = .ok .nandResetLun := rfl
theorem test_decode_nandReadId : decode (.wire 0x90#8) = .ok .nandReadId := rfl
theorem test_decode_nandReadUniqueId : decode (.wire 0xED#8) = .ok .nandReadUniqueId := rfl
theorem test_decode_nandReadStatus : decode (.wire 0x70#8) = .ok .nandReadStatus := rfl
theorem test_decode_nandReadStatusEnh : decode (.wire 0x78#8) = .ok .nandReadStatusEnh := rfl
theorem test_decode_nandRead1 : decode (.wire 0x00#8) = .ok .nandRead1 := rfl
theorem test_decode_nandRead2 : decode (.wire 0x30#8) = .ok .nandRead2 := rfl
theorem test_decode_nandReadCacheNext : decode (.wire 0x31#8) = .ok .nandReadCacheNext := rfl
theorem test_decode_nandReadCacheLast : decode (.wire 0x3F#8) = .ok .nandReadCacheLast := rfl
theorem test_decode_nandChgRdCol1 : decode (.wire 0x05#8) = .ok .nandChgRdCol1 := rfl
theorem test_decode_nandChgRdCol2 : decode (.wire 0xE0#8) = .ok .nandChgRdCol2 := rfl
theorem test_decode_nandProgram1 : decode (.wire 0x80#8) = .ok .nandProgram1 := rfl
theorem test_decode_nandProgram2 : decode (.wire 0x10#8) = .ok .nandProgram2 := rfl
theorem test_decode_nandProgramCache : decode (.wire 0x15#8) = .ok .nandProgramCache := rfl
theorem test_decode_nandChgWrColRow : decode (.wire 0x85#8) = .ok .nandChgWrColRow := rfl
theorem test_decode_nandErase1 : decode (.wire 0x60#8) = .ok .nandErase1 := rfl
theorem test_decode_nandErase2 : decode (.wire 0xD0#8) = .ok .nandErase2 := rfl
theorem test_decode_reserved : decode (.opw 0x0000003F#32) = .error (.reservedOpcode 0x3F#6) := rfl
theorem test_table_word : decodeTableWord 32 0x31 = some .chgrdcol := rfl
theorem test_table_byte : decodeTableWord 8 0x31 = some .nandReadCacheNext := rfl

/-! ### Vectors of 95_test_vectors.md -/

/-- Configuration TV, with the small buffers of TV4 for a small state. -/
def tv : Config where
  tSetup := 2
  tHold := 1
  tSample := 2
  tWb := 4
  tWhr := 3
  tAdl := 5
  tCcs := 6
  tRow := 2
  tWw := 3
  tRtc := 2
  tAr := 7
  tPor := 10
  pageSize := 4
  maxPages := 2
  abufDepth := 10
  txDepth := 4
  rxDepth := 32
  rbSyncStages := 2
  dlyW := 32
  peIterCycles := 1
  wpIdle := true
  dataIdle := 0x00#8

/-- A cycle in which the device is ready and holds the other pins low, and the host does `h`. -/
def cycleOf (h : HostAccess) : Input := { rst := false, host := h, rb := true, levels := 0#14 }

/-- The start state of the vectors: lines at idle, driven, the device ready, with `a` in ABUF and `d` in TXBUF. -/
def idleWith (a d : List Byte) (len : Word) (pages : BitVec 16) : State :=
  { State.reset with
    cfg := tv, busOut := 0x3300#14, dir := 0x3FFF#15, rbSync := [true, true], abuf := a, txbuf := d, len := len,
    pages := pages, inputs := List.replicate 300 (cycleOf .idle) }

def idle0 : State := idleWith [] [] 0#32 0#16

/-- The row [0x40, 0, 0] and the address a5 of the vectors, two pages of it. -/
def row40 : List Byte := [0x40#8, 0x00#8, 0x00#8]
def a5 : List Byte := [0x00#8, 0x00#8, 0x40#8, 0x00#8, 0x00#8]
def a5b : List Byte := [0x00#8, 0x00#8, 0x41#8, 0x00#8, 0x00#8]

/-- What a next state shows; false for a stop. -/
def Nexts (o : Host.Outcome State Fault Refusal) (f : State → Bool) : Bool :=
  match o with
  | .next t => f t
  | .fault _ => false
  | .refused _ => false

/-- What one cycle after the start of `i` shows. -/
def oneCycle (i : Instr) (s : State) (f : State → Bool) : Bool := Nexts (exec i s) fun t => Nexts (step t) f

/-- The micro-operations of the operation that `i` starts. -/
def startedSeq (i : Instr) (s : State) : List MicroStep :=
  match exec i s with
  | .next t => match t.cur with
    | some c => c.seq
    | none => []
  | .fault _ => []
  | .refused _ => []

/-- The words of a trace (95_test_vectors.md, conventions): BUS_OUT after each LINES. -/
def busWords : Latch → List MicroStep → List Nat
  | _, [] => []
  | b, m :: rest =>
    match m.op with
    | .lines mask val => (muxLines mask val b).toNat :: busWords (muxLines mask val b) rest
    | .dirD _ | .dirAll _ | .dly _ | .poll | .cap | .rdl _ | .rdd => busWords b rest

/-- `i` started in `s` performs exactly the words of a trace in exactly its cycles on a ready device. -/
def Traces (i : Instr) (s : State) (cycles : Nat) (ws : List Nat) : Bool :=
  seqCost (startedSeq i s) == cycles && busWords s.busOut (startedSeq i s) == ws

/-- `i` is refused with BADARG, nothing started. -/
def refusedArg (i : Instr) (s : State) : Bool := Nexts (exec i s) fun t => t.badArg && !t.busy && t.busOut == s.busOut

/-- V1. -/
theorem test_setline :
    oneCycle (.setline 8#4 false) idle0 (fun t => t.busOut == 0x3200#14 && t.stat == 0x1002#32) = true := by
  decide

/-- V4. -/
theorem test_setline_both_latches :
    oneCycle (.setline 10#4 true) { idle0 with busOut := 0x3B00#14 } (fun t => t.busOut == 0x3F00#14) = true := by
  decide

/-- V7. -/
theorem test_readline :
    oneCycle (.readline 14#4) idle0 (fun t => t.res == 0x0001#16) = true := by
  decide

/-- V9. -/
theorem test_readline_lines :
    oneCycle (.readline 12#4) idle0 (fun t => t.res == 0x0001#16) = true ∧ oneCycle (.readline 11#4) idle0 (fun t =>
    t.res == 0x0000#16) = true := by
  decide

/-- V11. -/
theorem test_wrdata :
    oneCycle (.wrdata 0xA5#8) idle0 (fun t => t.busOut == 0x33A5#14) = true := by
  decide

/-- V12. -/
theorem test_rddata :
    oneCycle .rddata { idle0 with busOut := 0x33A5#14 } (fun t => t.res == 0x00A5#16) = true := by
  decide

/-- V13. -/
theorem test_setdir :
    oneCycle (.setdir .input) idle0 (fun t => t.dir == 0x3F00#15 && t.busOut == 0x3300#14) = true ∧ oneCycle (.setdir
    .output) { idle0 with dir := 0x3F00#15 } (fun t => t.dir == 0x3FFF#15) = true := by
  decide

/-- V20a, V20b. -/
theorem test_wait :
    Traces (.wait 3#4) idle0 4 [] = true ∧ Traces (.wait 11#4) idle0 10 [] = true := by
  decide

/-- V20d: a delay of 0 shows BUSY for one cycle. -/
theorem test_wait_zero :
    oneCycle (.wait 3#4) { idle0 with cfg := { tv with tWb := 0 } } (fun t => t.done && !t.busy) = true := by
  decide

/-- V39. -/
theorem test_waitrdy :
    oneCycle .waitrdy idle0 (fun t => t.stat == 0x1002#32) = true := by
  decide

/-- V42: BUSY, POLLING, RB_S = 0. -/
theorem test_waitrdy_busy_device :
    oneCycle .waitrdy { idle0 with rbSync := [false, false] } (fun t => t.stat == 0x0801#32) = true := by
  decide

/-- V17. -/
theorem test_sendcmd :
    Traces (.sendcmd 0xFF#8) idle0 8
      [0x2900, 0x29FF, 0x2BFF, 0x23FF, 0x3300] = true := by
  decide

/-- V19c. -/
theorem test_sendcmd_from_3A55 :
    Traces (.sendcmd 0xAB#8) ({ idle0 with busOut := 0x3A55#14 }) 8
      [0x2855, 0x28AB, 0x2AAB, 0x22AB, 0x3200] = true := by
  decide

/-- V21. -/
theorem test_sendaddr :
    Traces (.sendaddr 5#3) (idleWith [0x34#8, 0x12#8, 0x56#8, 0x00#8, 0x01#8] [] 0#32 0#16) 33
      [0x2700, 0x2500, 0x2534, 0x2734, 0x2534, 0x2512, 0x2712, 0x2512, 0x2556, 0x2756, 0x2556, 0x2500, 0x2700, 0x2500,
      0x2501, 0x2701, 0x2301, 0x3300] = true := by
  decide

/-- V23a, V23b. -/
theorem test_sendaddr_refused :
    refusedArg (.sendaddr 3#3) (idleWith [0x00#8, 0x00#8] [] 0#32 0#16) = true ∧ refusedArg (.sendaddr 6#3) (idleWith
    a5 [] 0#32 0#16) = true := by
  decide

/-- V24. -/
theorem test_senddata :
    Traces .senddata (idleWith [] [0xAB#8, 0xCD#8] 0#32 0#16) 14
      [0x2300, 0x2100, 0x21AB, 0x23AB, 0x21AB, 0x21CD, 0x23CD, 0x3300] = true := by
  decide

/-- V26. -/
theorem test_recvdata :
    Traces .recvdata (idleWith [] [] 2#32 0#16) 17
      [0x2300, 0x0300, 0x2300, 0x0300, 0x2300, 0x3300] = true := by
  decide

/-- V28, with RX_DEPTH = 32. -/
theorem test_recvdata_refused :
    refusedArg .recvdata (idleWith [] [] 33#32 0#16) = true := by
  decide

/-- V44. -/
theorem test_init :
    Traces .init ({ idle0 with dir := 0x0000#15 }) 26
      [0x3300, 0x2900, 0x29FF, 0x2BFF, 0x23FF, 0x3300] = true := by
  decide

/-- V45. -/
theorem test_reset :
    Traces .reset idle0 13
      [0x2900, 0x29FF, 0x2BFF, 0x23FF, 0x3300] = true := by
  decide

/-- V46. -/
theorem test_resetlun :
    Traces .resetlun (idleWith [0x00#8, 0x00#8, 0x00#8] [] 0#32 0#16) 34
      [0x2900, 0x29FA, 0x2BFA, 0x23FA, 0x3300, 0x2700, 0x2500, 0x2500, 0x2700, 0x2500, 0x2500, 0x2700, 0x2500, 0x2500,
      0x2700, 0x2300, 0x3300] = true := by
  decide

/-- V47. -/
theorem test_resetlun_refused :
    refusedArg .resetlun (idleWith [0x00#8, 0x00#8] [] 0#32 0#16) = true := by
  decide

/-- Program P2. -/
theorem test_rdmfid :
    Traces .rdmfid idle0 76
      [0x2900, 0x2990, 0x2B90, 0x2390, 0x3300, 0x2700, 0x2500, 0x2500, 0x2700, 0x2300, 0x3300, 0x2300, 0x0300, 0x2300,
      0x0300, 0x2300, 0x0300, 0x2300, 0x0300, 0x2300, 0x0300, 0x2300, 0x0300, 0x2300, 0x0300, 0x2300, 0x0300, 0x2300,
      0x3300] = true := by
  decide

/-- V37. -/
theorem test_rdonfiid :
    Traces .rdonfiid idle0 52
      [0x2900, 0x2990, 0x2B90, 0x2390, 0x3300, 0x2700, 0x2500, 0x2520, 0x2720, 0x2320, 0x3300, 0x2300, 0x0300, 0x2300,
      0x0300, 0x2300, 0x0300, 0x2300, 0x0300, 0x2300, 0x3300] = true := by
  decide

/-- V38. -/
theorem test_rdjedecid :
    Traces .rdjedecid idle0 58
      [0x2900, 0x2990, 0x2B90, 0x2390, 0x3300, 0x2700, 0x2500, 0x2540, 0x2740, 0x2340, 0x3300, 0x2300, 0x0300, 0x2300,
      0x0300, 0x2300, 0x0300, 0x2300, 0x0300, 0x2300, 0x0300, 0x2300, 0x3300] = true := by
  decide

set_option maxRecDepth 4000 in
/-- V30. -/
theorem test_rduid :
    Traces .rduid idle0 228
      [0x2900, 0x29ED, 0x2BED, 0x23ED, 0x3300, 0x2700, 0x2500, 0x2500, 0x2700, 0x2300, 0x3300, 0x2300, 0x0300, 0x2300,
      0x0300, 0x2300, 0x0300, 0x2300, 0x0300, 0x2300, 0x0300, 0x2300, 0x0300, 0x2300, 0x0300, 0x2300, 0x0300, 0x2300,
      0x0300, 0x2300, 0x0300, 0x2300, 0x0300, 0x2300, 0x0300, 0x2300, 0x0300, 0x2300, 0x0300, 0x2300, 0x0300, 0x2300,
      0x0300, 0x2300, 0x0300, 0x2300, 0x0300, 0x2300, 0x0300, 0x2300, 0x0300, 0x2300, 0x0300, 0x2300, 0x0300, 0x2300,
      0x0300, 0x2300, 0x0300, 0x2300, 0x0300, 0x2300, 0x0300, 0x2300, 0x0300, 0x2300, 0x0300, 0x2300, 0x0300, 0x2300,
      0x0300, 0x2300, 0x0300, 0x2300, 0x0300, 0x2300, 0x3300] = true := by
  decide

/-- V32: mismatches at 3 and 9, the first is reported. -/
theorem test_rduid_first_mismatch :
    (State.checkUid { idle0 with rxbuf := ((List.range 16).map fun i => BitVec.ofNat 8 (0x10 + i)) ++ ((List.range
    16).map fun i => if i = 3 ∨ i = 9 then 0x00#8 else BitVec.ofNat 8 (0xEF - i)) }).res = 0x0300#16 := by
  decide

/-- V34. -/
theorem test_rdstatus :
    Traces .rdstatus idle0 22
      [0x2900, 0x2970, 0x2B70, 0x2370, 0x3300, 0x2300, 0x0300, 0x2300, 0x3300] = true := by
  decide

/-- V36. -/
theorem test_rdstatuse :
    Traces .rdstatuse (idleWith row40 [] 0#32 0#16) 43
      [0x2900, 0x2978, 0x2B78, 0x2378, 0x3300, 0x2700, 0x2500, 0x2540, 0x2740, 0x2540, 0x2500, 0x2700, 0x2500, 0x2500,
      0x2700, 0x2300, 0x3300, 0x2300, 0x0300, 0x2300, 0x3300] = true := by
  decide

/-- V49. -/
theorem test_rdpage :
    Traces .rdpage (idleWith a5 [] 0#32 0#16) 55
      [0x2900, 0x2900, 0x2B00, 0x2300, 0x3300, 0x2700, 0x2500, 0x2500, 0x2700, 0x2500, 0x2500, 0x2700, 0x2500, 0x2540,
      0x2740, 0x2540, 0x2500, 0x2700, 0x2500, 0x2500, 0x2700, 0x2300, 0x3300, 0x2900, 0x2930, 0x2B30, 0x2330, 0x3300] = true := by
  decide

/-- V50. -/
theorem test_chgrdcol :
    Traces .chgrdcol (idleWith [0x10#8, 0x00#8] [] 0#32 0#16) 39
      [0x2900, 0x2905, 0x2B05, 0x2305, 0x3300, 0x2700, 0x2500, 0x2510, 0x2710, 0x2510, 0x2500, 0x2700, 0x2300, 0x3300,
      0x2900, 0x29E0, 0x2BE0, 0x23E0, 0x3300] = true := by
  decide

/-- V51. -/
theorem test_chgwrcol :
    Traces .chgwrcol (idleWith [0x10#8, 0x00#8] [] 0#32 0#16) 32
      [0x2900, 0x2985, 0x2B85, 0x2385, 0x3300, 0x2700, 0x2500, 0x2510, 0x2710, 0x2510, 0x2500, 0x2700, 0x2300, 0x3300] = true := by
  decide

/-- V52. -/
theorem test_chgrow :
    Traces .chgrow (idleWith a5 [] 0#32 0#16) 46
      [0x2900, 0x2985, 0x2B85, 0x2385, 0x3300, 0x2700, 0x2500, 0x2500, 0x2700, 0x2500, 0x2500, 0x2700, 0x2500, 0x2540,
      0x2740, 0x2540, 0x2500, 0x2700, 0x2500, 0x2500, 0x2700, 0x2300, 0x3300] = true := by
  decide

/-- V53. -/
theorem test_progpage :
    Traces .progpage (idleWith a5 [0xDE#8, 0xAD#8] 0#32 0#16) 95
      [0x2900, 0x2980, 0x2B80, 0x2380, 0x3300, 0x2700, 0x2500, 0x2500, 0x2700, 0x2500, 0x2500, 0x2700, 0x2500, 0x2540,
      0x2740, 0x2540, 0x2500, 0x2700, 0x2500, 0x2500, 0x2700, 0x2300, 0x3300, 0x2300, 0x2100, 0x21DE, 0x23DE, 0x21DE,
      0x21AD, 0x23AD, 0x3300, 0x2900, 0x2910, 0x2B10, 0x2310, 0x3300, 0x2900, 0x2970, 0x2B70, 0x2370, 0x3300, 0x2300,
      0x0300, 0x2300, 0x3300] = true := by
  decide

/-- Program P3: status 0xE1 sets FAIL. -/
theorem test_progpage_fail :
    (State.completionAction { idle0 with rxbuf := [0xE1#8] } .statusFail).fail = true := by
  decide

set_option maxRecDepth 4000 in
/-- V54. -/
theorem test_progcache :
    Traces .progcache (idleWith (a5 ++ a5b) [0xA5#8] 0#32 2#16) 156
      [0x2900, 0x2980, 0x2B80, 0x2380, 0x3300, 0x2700, 0x2500, 0x2500, 0x2700, 0x2500, 0x2500, 0x2700, 0x2500, 0x2540,
      0x2740, 0x2540, 0x2500, 0x2700, 0x2500, 0x2500, 0x2700, 0x2300, 0x3300, 0x2300, 0x2100, 0x21A5, 0x23A5, 0x3300,
      0x2900, 0x2915, 0x2B15, 0x2315, 0x3300, 0x2900, 0x2980, 0x2B80, 0x2380, 0x3300, 0x2700, 0x2500, 0x2500, 0x2700,
      0x2500, 0x2500, 0x2700, 0x2500, 0x2541, 0x2741, 0x2541, 0x2500, 0x2700, 0x2500, 0x2500, 0x2700, 0x2300, 0x3300,
      0x2300, 0x2100, 0x21A5, 0x23A5, 0x3300, 0x2900, 0x2910, 0x2B10, 0x2310, 0x3300, 0x2900, 0x2970, 0x2B70, 0x2370,
      0x3300, 0x2300, 0x0300, 0x2300, 0x3300] = true := by
  decide

/-- V54b. -/
theorem test_progcache_refused :
    refusedArg .progcache (idleWith (a5 ++ a5b) [0xA5#8] 0#32 0#16) = true ∧ refusedArg .progcache (idleWith (a5 ++
    a5b) [0xA5#8] 0#32 3#16) = true ∧ refusedArg .progcache (idleWith (a5 ++ a5b.take 4) [0xA5#8] 0#32 2#16) = true := by
  decide

/-- V55. -/
theorem test_erase :
    Traces .erase (idleWith row40 [] 0#32 0#16) 65
      [0x2900, 0x2960, 0x2B60, 0x2360, 0x3300, 0x2700, 0x2500, 0x2540, 0x2740, 0x2540, 0x2500, 0x2700, 0x2500, 0x2500,
      0x2700, 0x2300, 0x3300, 0x2900, 0x29D0, 0x2BD0, 0x23D0, 0x3300, 0x2900, 0x2970, 0x2B70, 0x2370, 0x3300, 0x2300,
      0x0300, 0x2300, 0x3300] = true := by
  decide

/-- V56. -/
theorem test_perase :
    Traces .perase (idleWith row40 [] 7#32 0#16) 58
      [0x2900, 0x2960, 0x2B60, 0x2360, 0x3300, 0x2700, 0x2500, 0x2540, 0x2740, 0x2540, 0x2500, 0x2700, 0x2500, 0x2500,
      0x2700, 0x2300, 0x3300, 0x2900, 0x29D0, 0x2BD0, 0x23D0, 0x3300, 0x2900, 0x29FF, 0x2BFF, 0x23FF, 0x3300] = true := by
  decide

/-- V57. -/
theorem test_rdcacheseq :
    Traces .rdcacheseq (idleWith a5 [] 0#32 2#16) 134
      [0x2900, 0x2900, 0x2B00, 0x2300, 0x3300, 0x2700, 0x2500, 0x2500, 0x2700, 0x2500, 0x2500, 0x2700, 0x2500, 0x2540,
      0x2740, 0x2540, 0x2500, 0x2700, 0x2500, 0x2500, 0x2700, 0x2300, 0x3300, 0x2900, 0x2930, 0x2B30, 0x2330, 0x3300,
      0x2900, 0x2931, 0x2B31, 0x2331, 0x3300, 0x2300, 0x0300, 0x2300, 0x0300, 0x2300, 0x0300, 0x2300, 0x0300, 0x2300,
      0x3300, 0x2900, 0x293F, 0x2B3F, 0x233F, 0x3300, 0x2300, 0x0300, 0x2300, 0x0300, 0x2300, 0x0300, 0x2300, 0x0300,
      0x2300, 0x3300] = true := by
  decide

/-- V57d. -/
theorem test_rdcacheseq_refused :
    refusedArg .rdcacheseq (idleWith a5 [] 0#32 3#16) = true := by
  decide

/-- R88, R136: each command byte on the wire is one command cycle of that byte. -/
theorem test_wire_commands :
    ∀ p ∈ ([(.nandReset, 0xFF#8), (.nandResetLun, 0xFA#8), (.nandReadId, 0x90#8), (.nandReadUniqueId, 0xED#8),
      (.nandReadStatus, 0x70#8), (.nandReadStatusEnh, 0x78#8), (.nandRead1, 0x00#8), (.nandRead2, 0x30#8),
      (.nandReadCacheNext, 0x31#8), (.nandReadCacheLast, 0x3F#8), (.nandChgRdCol1, 0x05#8), (.nandChgRdCol2, 0xE0#8),
      (.nandProgram1, 0x80#8), (.nandProgram2, 0x10#8), (.nandProgramCache, 0x15#8), (.nandChgWrColRow, 0x85#8),
      (.nandErase1, 0x60#8), (.nandErase2, 0xD0#8)] : List (Instr × Byte)),
    Traces p.1 idle0 8 [0x2900, 0x2900 + p.2.toNat, 0x2B00 + p.2.toNat, 0x2300 + p.2.toNat, 0x3300] = true := by decide

/-- V16, V16b. -/
theorem test_restore_idle :
    muxLines 0x3EFF#14 0x3200#14 0x0BAB#14 = 0x3300#14 ∧ muxLines 0x3EFF#14 0x3200#14 0x22AB#14 = 0x3200#14 := by
  decide

/-- V58a, with no DONE before it. -/
theorem test_word0_is_illop :
    Nexts (step { idle0 with inputs := [cycleOf (.write 0#4 0#32)] }) (fun t => t.stat == 0x1010#32 && t.opw == 0#32)
    = true := by
  decide

/-- V60. -/
theorem test_push_into_full_buffer :
    ((idleWith (a5 ++ a5b) [] 0#32 0#16).hostWrite .aPush 0x55#32).abuf = a5 ++ a5b := by
  decide

/-- Program P1, steps 6 and 7. -/
theorem test_busr_at_idle :
    idle0.hostValue .busr 0#14 = 0x00007300#32 ∧ idle0.hostValue .dirr 0#14 = 0x00003FFF#32 := by
  decide


/-! ### For every statement with hypotheses, states and operands that meet them, at the ends of each range -/

/-- Everything filled: two pages of address, two data bytes, LEN = 2, PAGES = 2; 300 ready cycles ahead. -/
def full : State := idleWith (a5 ++ a5b) [0xDE#8, 0xAD#8] 2#32 2#16

theorem full_quiet (n : Nat) (h : n ≤ 300) : full.QuietFor n := by
  refine ⟨by show n ≤ (List.replicate 300 _).length; rw [List.length_replicate]; exact h, fun i hi => ?_⟩
  have := List.mem_of_mem_take hi
  simp only [full, idleWith, List.mem_replicate] at this
  rw [this.2]; exact ⟨rfl, rfl⟩

theorem full_ready (n : Nat) (h : n ≤ 300) : full.ReadyFor n := by
  refine ⟨full_quiet n h, by decide, by decide, fun i hi => ?_⟩
  have := List.mem_of_mem_take hi
  simp only [full, idleWith, List.mem_replicate] at this
  rw [this.2]; rfl

theorem full_noReset (n : Nat) (h : n ≤ 300) : full.NoResetFor n :=
  ⟨(full_quiet n h).1, fun i hi => ((full_quiet n h).2 i hi).1⟩

/-- A state that the host's access `h` reaches next. -/
def withHost (s : State) (h : HostAccess) : State := { s with inputs := cycleOf h :: s.inputs }

/-- The sequencer at the first micro-operation of `seq`, DLYCNT and POLLST as at its start. -/
def inSeq (seq : List MicroStep) : State :=
  { full with
    cur := some { op := .waitrdy, aLen := 10, txLen := 2, len := 2#32, pages := 2#16, seq := seq, completion := .plain }
    dlyCnt := loadDly seq[0]?
    pollSt := loadPoll seq[0]? }

/-- A POLL on a device that has been busy. -/
def polling0 : State := { inSeq waitReady with rbSync := [false, false] }

theorem tv_valid : tv.Valid := by decide

theorem full_inv : full.Inv := by
  refine ⟨⟨tv_valid, ?_, rfl, ?_, ?_, ?_, ?_, rfl, ?_, ?_, ?_, ?_⟩, rfl, rfl, rfl, rfl⟩
  · exact .inr (.inr (.inr rfl))
  all_goals decide

theorem polling0_inv : polling0.Inv := by
  refine ⟨⟨tv_valid, ?_, rfl, ?_, ?_, ?_, ?_, rfl, ?_, ?_, ?_, ?_⟩, ⟨rfl, rfl, rfl, rfl⟩, ⟨rfl, rfl, rfl, rfl⟩, ?_, rfl, rfl,
    ?_, ?_, rfl⟩
  · exact .inr (.inr (.inr rfl))
  all_goals first | decide | skip
  intro m hm
  have : m = plainStep .poll := by simpa [waitReady] using hm
  rw [this]; trivial

/-! Encodings and acceptance. -/

theorem witness_ReservedOpcodes :
    full.busy = false ∧ (withHost full (.write 0#4 0x3F#32)).input.rst = false ∧
      (withHost full (.write 0#4 0x3F#32)).input.host = .write 0#4 0x3F#32 ∧ (0x3F#32).extractLsb' 0 6 = 0x3F#6 :=
  ⟨rfl, rfl, rfl, rfl⟩

theorem witness_StepRunsDecoded :
    decode (.opw 0x21#32) = .ok .reset ∧
      (withHost full (.write 0#4 0x21#32)).input.host = .write 0#4 0x21#32 ∧
      (withHost full (.write 0#4 0x21#32)).busy = false ∧
      (withHost polling0 (.write 0#4 0x21#32)).input.host = .write 0#4 0x21#32 ∧
      (withHost polling0 (.write 0#4 0x21#32)).input.rst = false ∧
      (withHost polling0 (.write 0#4 0x21#32)).busy = true :=
  ⟨rfl, rfl, rfl, rfl, rfl, rfl⟩

/-- The clause for any word, on a reserved op code. -/
theorem witness_StepRunsDecoded_reserved :
    decode (.opw 0x00#32) = .error (.reservedOpcode 0#6) ∧
      (withHost polling0 (.write 0#4 0x00#32)).input.host = .write 0#4 0x00#32 ∧
      (withHost polling0 (.write 0#4 0x00#32)).input.rst = false ∧
      (withHost polling0 (.write 0#4 0x00#32)).busy = true :=
  ⟨rfl, rfl, rfl, rfl⟩

theorem witness_FetchedWordRuns : full.busy = false ∧ State.reset.busy = false := ⟨rfl, rfl⟩

theorem witness_ExecDecides :
    polling0.busy = true ∧ (full.busy = false ∧ ¬DomainOk (.setline 14#4 true) full) ∧ DomainOk (.setline 13#4 true) full :=
  ⟨rfl, ⟨rfl, by unfold DomainOk; decide⟩, by unfold DomainOk; decide⟩

theorem witness_RefusalFlags :
    (withHost polling0 (.write 0#4 0x21#32)).input.rst = false ∧
      Nexts (step (withHost polling0 (.write 0#4 0x21#32))) (fun t => t.overrun) = true ∧
      Nexts (step (withHost full (.write 0#4 0#32))) (fun t => t.illOp) = true ∧
      Nexts (step (withHost full (.write 0#4 0x0C08#32))) (fun t => t.badArg) = true ∧
      Nexts (step (withHost { full with overrun := true } (.write 1#4 0x20#32))) (fun t => !t.overrun) = true ∧
      (withHost full (.read 1#4)).input.host = .read 1#4 := by
  decide

/-! The results of the operations: in each case the hypotheses, at the ends of the operand's range. -/

theorem witness_SetlineResult :
    full.busy = false ∧ full.QuietFor 1 ∧ 8 ≤ (8#4).toNat ∧ (8#4).toNat ≤ 13 ∧ 8 ≤ (13#4).toNat ∧ (13#4).toNat ≤ 13 :=
  ⟨rfl, full_quiet 1 (by decide), by decide⟩

theorem witness_ReadlineResult :
    full.busy = false ∧ full.QuietFor 1 ∧ 8 ≤ (8#4).toNat ∧ (8#4).toNat ≤ 14 ∧ 8 ≤ (14#4).toNat ∧ (14#4).toNat ≤ 14 :=
  ⟨rfl, full_quiet 1 (by decide), by decide⟩

/-- The hypotheses of WRDATA, RDDATA and SETDIR. -/
theorem witness_WrdataResult_RddataResult_SetdirResult : full.busy = false ∧ full.QuietFor 1 :=
  ⟨rfl, full_quiet 1 (by decide)⟩

/-- The first and the last selector, and a delay of 0. -/
theorem witness_WaitResult :
    full.busy = false ∧ full.QuietFor (max 1 2) ∧ full.QuietFor (max 1 10) ∧ full.QuietFor (max 1 0) ∧
      [tv.tSetup, tv.tHold, tv.tSample, tv.tWb, tv.tWhr, tv.tAdl, tv.tCcs, tv.tRow, tv.tWw, tv.tRtc, tv.tAr,
        tv.tPor][(0#4).toNat]? = some 2 ∧
      [tv.tSetup, tv.tHold, tv.tSample, tv.tWb, tv.tWhr, tv.tAdl, tv.tCcs, tv.tRow, tv.tWw, tv.tRtc, tv.tAr,
        tv.tPor][(11#4).toNat]? = some 10 ∧
      [0, tv.tHold][(0#4).toNat]? = some 0 :=
  ⟨rfl, full_quiet _ (by decide), full_quiet _ (by decide), full_quiet _ (by decide), rfl, rfl, rfl⟩

/-- Ready at once, and ready after the synchroniser has let one level through. -/
theorem witness_WaitrdyResult :
    full.busy = false ∧ full.QuietFor (0 + 1) ∧ (syncAfter full.rbSync (full.inputs.take 0)).getLastD false = true ∧
      (syncAfter [false, false] (full.inputs.take 0)).getLastD false = false ∧
      (syncAfter [false, false] (full.inputs.take 1)).getLastD false = false ∧
      (syncAfter [false, false] (full.inputs.take 2)).getLastD false = true :=
  ⟨rfl, full_quiet 1 (by decide), rfl, rfl, rfl, rfl⟩

/-- The hypotheses of SENDCMD and of each wire command. -/
theorem witness_SendcmdResult_WireCommandResult : full.busy = false ∧ full.QuietFor (cmdCycles full.cfg) :=
  ⟨rfl, full_quiet _ (by decide)⟩

theorem witness_SendaddrResult :
    full.busy = false ∧ (0#3).toNat ≤ 5 ∧ (5#3).toNat ≤ 5 ∧ (5#3).toNat ≤ full.aLen ∧
      full.QuietFor (addrCycles full.cfg 0) ∧ full.QuietFor (addrCycles full.cfg 5) :=
  ⟨rfl, by decide, by decide, by decide, full_quiet _ (by decide), full_quiet _ (by decide)⟩

theorem witness_SenddataResult : full.busy = false ∧ full.QuietFor (dataCycles full.cfg full.txLen) :=
  ⟨rfl, full_quiet _ (by decide)⟩

/-- LEN = 2, and LEN = RX_DEPTH is admitted too. -/
theorem witness_RecvdataResult :
    full.busy = false ∧ full.len.toNat ≤ full.cfg.rxDepth ∧ full.ReadyFor (recvCycles full.cfg full.len.toNat) ∧
      (32#32).toNat ≤ full.cfg.rxDepth ∧ full.ReadyFor (recvCycles full.cfg (32#32).toNat) :=
  ⟨rfl, by decide, full_ready _ (by decide), by decide, full_ready _ (by decide)⟩

theorem witness_InitResult :
    full.busy = false ∧ full.ReadyFor (2 + full.cfg.tPor + 1 + cmdCycles full.cfg + full.cfg.tWb + 1) :=
  ⟨rfl, full_ready _ (by decide)⟩

/-- Both clauses; three bytes in ABUF are enough for the second. -/
theorem witness_ResetResult :
    full.busy = false ∧ full.ReadyFor (cmdCycles full.cfg + full.cfg.tWb + 1) ∧ 3 ≤ full.aLen ∧
      3 ≤ (idleWith row40 [] 0#32 0#16).aLen ∧
      full.ReadyFor (cmdCycles full.cfg + addrCycles full.cfg 3 + full.cfg.tWb + 1) :=
  ⟨rfl, full_ready _ (by decide), by decide, by decide, full_ready _ (by decide)⟩

theorem witness_IdReadResult :
    full.busy = false ∧ 32 ≤ full.cfg.rxDepth ∧
      full.ReadyFor (1 + cmdCycles full.cfg + addrCycles full.cfg 1 + full.cfg.tAdl + recvCycles full.cfg 8) ∧
      full.ReadyFor (1 + cmdCycles full.cfg + addrCycles full.cfg 1 + full.cfg.tAdl + recvCycles full.cfg 4) ∧
      full.ReadyFor (1 + cmdCycles full.cfg + addrCycles full.cfg 1 + full.cfg.tAdl + recvCycles full.cfg 5) :=
  ⟨rfl, by decide, full_ready _ (by decide), full_ready _ (by decide), full_ready _ (by decide)⟩

/-- The cycle in which the first micro-operation of RDUID's receiveData runs. -/
def uidStart : Nat := cmdCycles tv + addrCycles tv 1 + tv.tWb + tv.tAr + tv.tRow + 1

/-- A device that presents 0x10 to 0x1F and their complements, but `wrong` as its last byte if that is given. -/
def uidDevice (wrong : Option Byte) : State :=
  { full with
    inputs := (List.range 300).map fun k =>
      let j := (k - uidStart - 4) / 6
      let b : Byte := if j < 16 then BitVec.ofNat 8 (0x10 + j) else if j = 31 then wrong.getD 0xE0#8 else
        BitVec.ofNat 8 (0xFF - j)
      { cycleOf .idle with levels := b.setWidth 14 } }

/-- The first clause: every pair is valid. The second: only the last pair, index 15, is not; and index 0 is not, on a
device that presents zeros. -/
theorem witness_RduidResult :
    (full.busy = false ∧ 32 ≤ full.cfg.rxDepth ∧ full.ReadyFor (uidStart + recvCycles tv 32)) ∧
      (∀ i, i < 16 → ((uidDevice none).samples uidStart 32).getD i 0#8 ^^^
        ((uidDevice none).samples uidStart 32).getD (16 + i) 0#8 = 0xFF#8) ∧
      (((uidDevice (some 0x00#8)).samples uidStart 32).getD 15 0#8 ^^^
        ((uidDevice (some 0x00#8)).samples uidStart 32).getD (16 + 15) 0#8 ≠ 0xFF#8) ∧
      (∀ j, j < 15 → ((uidDevice (some 0x00#8)).samples uidStart 32).getD j 0#8 ^^^
        ((uidDevice (some 0x00#8)).samples uidStart 32).getD (16 + j) 0#8 = 0xFF#8) ∧
      ((full.samples uidStart 32).getD 0 0#8 ^^^ (full.samples uidStart 32).getD (16 + 0) 0#8 ≠ 0xFF#8) :=
  ⟨⟨rfl, by decide, full_ready _ (by decide)⟩, by decide +kernel, by decide +kernel, by decide +kernel, by decide +kernel⟩

/-- Its device is ready throughout. -/
theorem witness_RduidResult_device :
    (uidDevice none).inputs.length = 300 ∧
      (∀ i ∈ (uidDevice none).inputs, i.rst = false ∧ i.host = .idle ∧ i.rb = true) := by
  refine ⟨by simp [uidDevice], fun i hi => ?_⟩
  simp only [uidDevice, List.mem_map] at hi
  obtain ⟨k, _, rfl⟩ := hi
  exact ⟨rfl, rfl, rfl⟩

theorem witness_StatusResult :
    full.busy = false ∧ 32 ≤ full.cfg.rxDepth ∧ full.ReadyFor (statusCycles full.cfg) ∧ 3 ≤ full.aLen ∧
      full.ReadyFor (statusCycles full.cfg + addrCycles full.cfg 3) :=
  ⟨rfl, by decide, full_ready _ (by decide), by decide, full_ready _ (by decide)⟩

theorem witness_RdpageResult :
    full.busy = false ∧ 5 ≤ full.aLen ∧ 5 ≤ (idleWith a5 [] 0#32 0#16).aLen ∧
      full.ReadyFor (1 + 2 * cmdCycles full.cfg + addrCycles full.cfg 5 + full.cfg.tWb + 1) :=
  ⟨rfl, by decide, by decide, full_ready _ (by decide)⟩

theorem witness_ChangeResult :
    full.busy = false ∧ 2 ≤ full.aLen ∧ 5 ≤ full.aLen ∧
      full.QuietFor (full.cfg.tRtc + 2 * cmdCycles full.cfg + addrCycles full.cfg 2 + full.cfg.tCcs) ∧
      full.QuietFor (full.cfg.tWw + cmdCycles full.cfg + addrCycles full.cfg 2 + full.cfg.tCcs) ∧
      full.QuietFor (full.cfg.tWw + cmdCycles full.cfg + addrCycles full.cfg 5 + full.cfg.tRow) :=
  ⟨rfl, by decide, by decide, full_quiet _ (by decide), full_quiet _ (by decide), full_quiet _ (by decide)⟩

theorem witness_ProgpageResult :
    full.busy = false ∧ 32 ≤ full.cfg.rxDepth ∧ 5 ≤ full.aLen ∧
      full.ReadyFor (programCycles full.cfg full.txLen + statusCycles full.cfg) :=
  ⟨rfl, by decide, by decide, full_ready _ (by decide)⟩

/-- PAGES = 2 = MAX_PAGES with just the ten bytes it needs. -/
theorem witness_ProgcacheResult :
    full.busy = false ∧ 32 ≤ full.cfg.rxDepth ∧ 1 ≤ full.pages.toNat ∧ full.pages.toNat ≤ full.cfg.maxPages ∧
      5 * full.pages.toNat ≤ full.aLen ∧
      full.ReadyFor (full.pages.toNat * programCycles full.cfg full.txLen + statusCycles full.cfg) :=
  ⟨rfl, by decide, by decide, by decide, by decide, full_ready _ (by decide)⟩

theorem witness_EraseResult :
    full.busy = false ∧ 32 ≤ full.cfg.rxDepth ∧ 3 ≤ full.aLen ∧
      full.ReadyFor (1 + 2 * cmdCycles full.cfg + addrCycles full.cfg 3 + full.cfg.tWb + 1 + statusCycles full.cfg) :=
  ⟨rfl, by decide, by decide, full_ready _ (by decide)⟩

theorem witness_PeraseResult :
    full.busy = false ∧ full.dir = 0x3FFF#15 ∧ 3 ≤ full.aLen ∧
      full.len.toNat * full.cfg.peIterCycles < 2 ^ full.cfg.dlyW ∧
      (0xFFFFFFFF#32).toNat * full.cfg.peIterCycles < 2 ^ full.cfg.dlyW ∧
      full.ReadyFor (1 + 3 * cmdCycles full.cfg + addrCycles full.cfg 3 + full.len.toNat * full.cfg.peIterCycles +
        full.cfg.tWb + 1) :=
  ⟨rfl, rfl, by decide, by decide, by decide, full_ready _ (by decide)⟩

theorem witness_RdcacheseqResult :
    full.busy = false ∧ 5 ≤ full.aLen ∧ 1 ≤ full.pages.toNat ∧ full.pages.toNat ≤ full.cfg.maxPages ∧
      full.pages.toNat * full.cfg.pageSize ≤ full.cfg.rxDepth ∧
      full.ReadyFor (1 + 2 * cmdCycles full.cfg + addrCycles full.cfg 5 + full.cfg.tWb + 1 +
        (full.pages.toNat - 1) * (cmdCycles full.cfg + full.cfg.tWb + 1 + recvCycles full.cfg full.cfg.pageSize) +
        cmdCycles full.cfg + recvCycles full.cfg full.cfg.pageSize) :=
  ⟨rfl, by decide, by decide, by decide, by decide, full_ready _ (by decide)⟩

/-! What the device sees: the hypotheses on the state, and a run that meets those inside `Shows`. -/

theorem witness_Shows_operands :
    full.busy = false ∧ full.dir = 0x3FFF#15 ∧ (5#3).toNat ≤ full.aLen ∧ (11#4).toNat ≤ 11 ∧
      full.len.toNat ≤ full.cfg.rxDepth ∧ full.busOut.getLsbD 13 = true ∧ decode (.wire 0xD0#8) = .ok .nandErase2 ∧
      5 * full.pages.toNat ≤ full.aLen ∧ full.pages.toNat ≤ full.cfg.maxPages ∧
      full.pages.toNat * full.cfg.pageSize ≤ full.cfg.rxDepth ∧
      full.len.toNat * full.cfg.peIterCycles < 2 ^ full.cfg.dlyW := by
  decide

/-- SENDCMD 0xFF ends after 8 cycles, and by then the device has seen its command cycle. -/
theorem witness_Shows_run :
    Nexts (exec (.sendcmd 0xFF#8) full) (fun t =>
      Nexts (runSteps 8 t) (fun u => !u.busy) &&
        (List.range 8).all (fun k => Nexts (runSteps k t) (fun v => v.busy)) &&
        t.deviceSees 8 == [.command 0xFF#8]) = true := by
  decide +kernel

theorem witness_AddressOrder :
    full.busy = false ∧ full.dir = 0x3FFF#15 ∧
      (idleWith a5 [] 0#32 0#16).abuf = address5 0x0000#16 0x000040#24 ∧
      (idleWith [0x34#8, 0x12#8] [] 0#32 0#16).abuf = col2 0x1234#16 ∧
      (idleWith row40 [] 0#32 0#16).abuf = row3 0x000040#24 := by
  decide

/-- Every cycle of sendCommand from idle is reached. -/
theorem witness_CommandLines :
    full.busy = false ∧ full.busOut = 0x3300#14 ∧ full.dir = 0x3FFF#15 ∧ full.QuietFor (cmdCycles full.cfg) ∧
      (cmdCycles full.cfg = 8) ∧
      Nexts (exec (.sendcmd 0xFF#8) full) (fun t => (List.range 8).all fun k => Nexts (runSteps k t) fun _ => true) =
        true :=
  ⟨rfl, rfl, rfl, full_quiet _ (by decide), by decide, by decide +kernel⟩

/-- `full` with write-protect low: the other idle lines. -/
def fullProtected : State := { full with busOut := 0x3200#14 }

theorem witness_IdleLines :
    full.IdleLines true ∧ fullProtected.IdleLines false ∧ fullProtected.busy = false ∧ 32 ≤ full.cfg.rxDepth ∧
      1 ≤ full.pages.toNat ∧ full.pages.toNat ≤ full.cfg.maxPages ∧ 5 * full.pages.toNat ≤ full.aLen :=
  ⟨rfl, rfl, rfl, by decide, by decide, by decide, by decide⟩

/-- The premises inside `Draws` and `DrawsReady`, for every trace of at most 300 cycles. -/
theorem witness_Draws (n : Nat) (h : n ≤ 300) :
    full.NoResetFor n ∧ full.DeviceReady n ∧ fullProtected.NoResetFor n ∧ fullProtected.DeviceReady n :=
  ⟨full_noReset n h, (full_ready n h).2, full_noReset n h, (full_ready n h).2⟩

/-- The traces of the statements are as short as that, in `full`. -/
theorem witness_Draws_lengths :
    (addressTrace tv true (full.abuf.take 5)).length ≤ 300 ∧ (dataTrace tv true full.txbuf).length ≤ 300 ∧
      (receiveTrace tv true full.len.toNat).length ≤ 300 ∧
      ([full.pins] ++ holdTrace tv true (1 + tv.tPor + 1) ++ resetTrace tv true).length ≤ 300 ∧
      (commandTrace tv true 0xFA#8 ++ addressTrace tv true (full.abuf.take 3) ++ holdTrace tv true (tv.tWb + 1)).length ≤
        300 ∧
      (idTrace tv true 0x00#8 8).length ≤ 300 ∧
      (commandTrace tv true 0xED#8 ++ addressTrace tv true [0x00#8] ++
        holdTrace tv true (tv.tWb + tv.tAr + tv.tRow + 1) ++ receiveTrace tv true 32).length ≤ 300 ∧
      (commandTrace tv true 0x78#8 ++ addressTrace tv true (full.abuf.take 3) ++ holdTrace tv true tv.tWhr ++
        receiveTrace tv true 1).length ≤ 300 ∧
      (readPageTrace tv true (full.abuf.take 5) ++
        (List.replicate (full.pages.toNat - 1) (commandTrace tv true 0x31#8 ++ holdTrace tv true (tv.tWb + 1) ++
          receiveTrace tv true tv.pageSize)).flatten ++
        commandTrace tv true 0x3F#8 ++ receiveTrace tv true tv.pageSize).length ≤ 300 ∧
      ((List.range (full.pages.toNat - 1)).flatMap (fun p =>
          programTrace tv true ((full.abuf.drop (5 * p)).take 5) full.txbuf 0x15#8) ++
        programTrace tv true ((full.abuf.drop (5 * (full.pages.toNat - 1))).take 5) full.txbuf 0x10#8 ++
        statusTrace tv true).length ≤ 300 ∧
      (eraseTrace tv true (full.abuf.take 3) ++ holdTrace tv true (tv.tWb + 1) ++ statusTrace tv true).length ≤ 300 ∧
      (eraseTrace tv true (full.abuf.take 3) ++ holdTrace tv true (full.len.toNat * tv.peIterCycles) ++
        resetTrace tv true).length ≤ 300 := by
  decide +kernel

/-- The traces of the phases against the vectors V17, V19a, V21 (two bytes of it), V24 and V26. -/
theorem test_traces :
    (commandTrace tv true 0xFF#8).map (·.out) =
      [0x2900#14, 0x29FF#14, 0x29FF#14, 0x29FF#14, 0x2BFF#14, 0x2BFF#14, 0x23FF#14, 0x3300#14] ∧
    (commandTrace tv false 0xAB#8).map (·.out) =
      [0x2800#14, 0x28AB#14, 0x28AB#14, 0x28AB#14, 0x2AAB#14, 0x2AAB#14, 0x22AB#14, 0x3200#14] ∧
    (addressTrace tv true [0x34#8, 0x12#8]).map (·.out) =
      [0x2700#14, 0x2700#14, 0x2500#14, 0x2534#14, 0x2534#14, 0x2534#14, 0x2734#14, 0x2734#14, 0x2534#14, 0x2512#14,
        0x2512#14, 0x2512#14, 0x2712#14, 0x2312#14, 0x3300#14] ∧
    (dataTrace tv true [0xAB#8, 0xCD#8]).map (·.out) =
      [0x2300#14, 0x2300#14, 0x2100#14, 0x21AB#14, 0x21AB#14, 0x21AB#14, 0x23AB#14, 0x23AB#14, 0x21AB#14, 0x21CD#14,
        0x21CD#14, 0x21CD#14, 0x23CD#14, 0x3300#14] ∧
    (receiveTrace tv true 1).map (fun p => (p.out, p.dir)) =
      [(0x3300#14, 0x3F00#15), (0x3300#14, 0x3F00#15), (0x2300#14, 0x3F00#15), (0x0300#14, 0x3F00#15),
        (0x0300#14, 0x3F00#15), (0x0300#14, 0x3F00#15), (0x0300#14, 0x3F00#15), (0x2300#14, 0x3F00#15),
        (0x2300#14, 0x3F00#15), (0x2300#14, 0x3FFF#15), (0x3300#14, 0x3FFF#15)] := by
  decide

/-! Micro-operations. -/

theorem inSeq_quiet (seq : List MicroStep) (n : Nat) (h : n ≤ 300) : (inSeq seq).QuietFor n := full_quiet n h

/-- The next micro-operation follows at once, or after a delay of 0. -/
theorem next_at (m next : MicroStep) (h : next.op ≠ .dly 0) :
    NextAt [m, next] 0 1 next ∧ NextAt [m, plainStep (.dly 0), next] 0 2 next :=
  ⟨⟨by decide, fun k h1 h2 => by omega, rfl, h⟩,
    ⟨by decide, fun k h1 h2 => ⟨none, by obtain rfl : k = 1 := by omega
                                         rfl⟩, rfl, h⟩⟩

/-- A POLL follows: at once and after a delay of 0. -/
theorem witness_NextAt (m : MicroStep) :
    NextAt (m :: waitReady) 0 1 (plainStep .poll) ∧ NextAt [m, plainStep (.dly 0), plainStep .poll] 0 2 (plainStep .poll) :=
  next_at m _ (by simp [plainStep])

theorem witness_LinesCycle :
    (inSeq (restoreIdle tv :: waitReady)).QuietFor 1 ∧
      (restoreIdle tv :: waitReady)[0]? = some (restoreIdle tv) ∧
      NextAt (restoreIdle tv :: waitReady) 0 1 (plainStep .poll) ∧
      NextAt [restoreIdle tv, plainStep (.dly 0), plainStep .poll] 0 2 (plainStep .poll) :=
  ⟨inSeq_quiet _ 1 (by decide), rfl, (witness_NextAt _).1, (witness_NextAt _).2⟩

/-- The three micro-operations that write DIR. -/
theorem witness_DirectionCycle :
    (inSeq (plainStep (.dirD .input) :: waitReady)).QuietFor 1 ∧
      (plainStep (.dirD .input) :: waitReady)[0]? = some { op := .dirD .input, phase := none } ∧
      (plainStep (.dirD .output) :: waitReady)[0]? = some { op := .dirD .output, phase := none } ∧
      (plainStep (.dirAll 0x3FFF#14) :: waitReady)[0]? = some { op := .dirAll 0x3FFF#14, phase := none } ∧
      NextAt (plainStep (.dirD .input) :: waitReady) 0 1 (plainStep .poll) ∧
      NextAt (plainStep (.dirD .output) :: waitReady) 0 1 (plainStep .poll) ∧
      NextAt (plainStep (.dirAll 0x3FFF#14) :: waitReady) 0 1 (plainStep .poll) :=
  ⟨inSeq_quiet _ 1 (by decide), rfl, rfl, rfl, (witness_NextAt _).1, (witness_NextAt _).1, (witness_NextAt _).1⟩

theorem witness_CaptureCycle :
    (inSeq (plainStep .cap :: waitReady)).QuietFor 1 ∧
      (plainStep .cap :: waitReady)[0]? = some { op := .cap, phase := none } ∧
      NextAt (plainStep .cap :: waitReady) 0 1 (plainStep .poll) ∧
      (inSeq (plainStep .cap :: waitReady)).rxbuf.length < (inSeq (plainStep .cap :: waitReady)).cfg.rxDepth ∧
      (∀ i, i < 8 → (0x00#8).getLsbD i = if (0x3F00#15).getLsbD i then (0x3300#14).getLsbD i
        else (full.inputs.getD 0 default).levels.getLsbD i) :=
  ⟨inSeq_quiet _ 1 (by decide), rfl, (witness_NextAt _).1, by decide, by decide⟩

/-- A delay of 1 and a delay of 3. -/
theorem witness_DelayExact :
    (inSeq (plainStep (.dly 1) :: waitReady)).QuietFor 1 ∧ (inSeq (plainStep (.dly 1) :: waitReady)).dlyCnt = 1 ∧
      (inSeq (plainStep (.dly 3) :: waitReady)).QuietFor 3 ∧ (inSeq (plainStep (.dly 3) :: waitReady)).dlyCnt = 3 ∧
      (plainStep (.dly 3) :: waitReady)[0]? = some { op := .dly 3, phase := none } ∧
      NextAt (plainStep (.dly 1) :: waitReady) 0 1 (plainStep .poll) ∧
      NextAt (plainStep (.dly 3) :: waitReady) 0 1 (plainStep .poll) :=
  ⟨inSeq_quiet _ 1 (by decide), rfl, inSeq_quiet _ 3 (by decide), rfl, rfl, (witness_NextAt _).1, (witness_NextAt _).1⟩

/-- Two POLLs in a row, on a device that is ready and on one that is not. -/
theorem witness_PollCycle :
    (inSeq (waitReady ++ waitReady)).QuietFor 1 ∧ (waitReady ++ waitReady)[0]? = some { op := .poll, phase := none } ∧
      NextAt (waitReady ++ waitReady) 0 1 (plainStep .poll) ∧ (inSeq (waitReady ++ waitReady)).rbS = true ∧
      ({ inSeq (waitReady ++ waitReady) with rbSync := [true, false] } : State).rbS = false ∧
      (inSeq (waitReady ++ waitReady)).dlyCnt = 0 :=
  ⟨inSeq_quiet _ 1 (by decide), rfl, (witness_NextAt _).1, rfl, rfl, rfl⟩

/-- The invariant of the first clause holds in such a state. -/
theorem witness_PollCycle_inv : (inSeq (waitReady ++ waitReady)).Inv := by
  refine ⟨⟨tv_valid, ?_, rfl, ?_, ?_, ?_, ?_, rfl, ?_, ?_, ?_, ?_⟩, ⟨rfl, rfl, rfl, rfl⟩, ⟨rfl, rfl, rfl, rfl⟩, ?_, rfl, rfl,
    ?_, ?_, rfl⟩
  · exact .inr (.inr (.inr rfl))
  all_goals first | decide | skip
  intro m hm
  have : m = plainStep .poll := by simpa [waitReady] using hm
  rw [this]; trivial

/-- Two cycles in which a device stays busy and the host tries to start an operation. -/
def hung : State :=
  { polling0 with inputs := List.replicate 2 { cycleOf (.write 0#4 0x21#32) with rb := false } }

theorem witness_HangForever :
    hung.Inv ∧ hung.NoResetFor 2 ∧ waitReady[0]? = some { op := .poll, phase := none } ∧
      (∀ b ∈ hung.rbSync, b = false) ∧ (∀ i ∈ hung.inputs.take 2, i.rb = false) :=
  ⟨polling0_inv, ⟨by decide, by decide⟩, rfl, by decide, by decide⟩

/-! The host port, reset and the whole machine. -/

theorem witness_HostReads :
    (withHost full (.read 9#4)).input.host = .read 9#4 ∧ (withHost full (.read 15#4)).input.host = .read 15#4 ∧
      (withHost full (.read 9#4)).input.rst = false ∧ (withHost full (.read 9#4)).busy = false ∧
      (withHost polling0 (.read 0#4)).busy = true ∧
      (∀ i, i < 15 → (0x7300#15).getLsbD i = if i = 14 then full.rbSync.getLastD false
        else if full.dir.getLsbD i then full.busOut.getLsbD i else (cycleOf (.read 9#4)).levels.getLsbD i) := by
  decide

theorem witness_HostWrites :
    (withHost full (.write 1#4 0x20#32)).input.host = .write 1#4 0x20#32 ∧ (1#4 : BitVec 4) ≠ 0#4 ∧
      (withHost full (.write 15#4 0#32)).input.host = .write 15#4 0#32 ∧
      (withHost full (.write 1#4 0x20#32)).input.rst = false ∧ (withHost full (.write 1#4 0x20#32)).busy = false ∧
      (withHost polling0 (.write 1#4 0x20#32)).busy = true ∧
      (idleWith a5 [] 0#32 0#16).abuf.length < tv.abufDepth := by
  decide

theorem witness_StatusWord : full.Inv ∧ polling0.Inv ∧ polling0.stat.getLsbD 0 = true := ⟨full_inv, polling0_inv, by decide⟩

theorem witness_IdleHolds : full.busy = false ∧ full.QuietFor 300 := ⟨rfl, full_quiet 300 (by omega)⟩

/-- A reset in the middle of an operation. -/
theorem witness_HardwareReset :
    ({ polling0 with inputs := [{ cycleOf .idle with rst := true }] } : State).input.rst = true := rfl

theorem witness_InvKept_NeverStops_PhaseThroughIdle :
    full.Inv ∧ polling0.Inv ∧ Nexts (step full) (fun _ => true) = true ∧ Nexts (step polling0) (fun _ => true) = true :=
  ⟨full_inv, polling0_inv, by decide, by decide⟩

/-- SENDCMD started where ALE and CLE are apart, run to its end. -/
theorem witness_LatchesStayApart_WriteProtectKept :
    LatchesApart full.busOut ∧ (∀ l v, Instr.sendcmd 0xFF#8 ≠ .setline l v) ∧ Instr.sendcmd 0xFF#8 ≠ .init ∧
      full.busy = false ∧
      Nexts (exec (.sendcmd 0xFF#8) full) (fun t =>
        decide (8 ≤ t.inputs.length) && (t.inputs.take 8).all (fun i => !i.rst) && Nexts (runSteps 8 t) (fun u => !u.busy) &&
          (List.range 8).all (fun k => Nexts (runSteps k t) (fun v => v.busy))) = true :=
  ⟨by unfold LatchesApart; decide, by simp, by simp, rfl, by decide +kernel⟩

/-- WriteProtectKept on the one SETLINE that its second clause leaves out. -/
theorem witness_WriteProtectKept_setline :
    Instr.setline 8#4 false ≠ .init ∧ Nexts (exec (.setline 8#4 false) full) (fun t =>
      t.busy && Nexts (runSteps 1 t) (fun u => !u.busy && u.dir == full.dir)) = true :=
  ⟨by simp, by decide⟩

/-- RECVDATA from PHASE Idle and DIR[7:0] = 0xFF: released in cycle 2 of the phase, driven again in its last cycle, in
which PHASE still reads DataInPhase, and at its end. -/
theorem witness_DataDirection :
    Instr.recvdata ≠ .setdir .input ∧ full.busy = false ∧ full.phase = .idle ∧ full.dir.setWidth 8 = 0xFF#8 ∧
      full.NoResetFor 17 ∧
      Nexts (exec .recvdata full) (fun t =>
        (List.range 17).all (fun k => Nexts (runSteps k t) (fun v => v.busy)) &&
          Nexts (runSteps 2 t) (fun u => u.phase == .dataIn && u.dir.setWidth 8 == 0x00#8) &&
          Nexts (runSteps 16 t) (fun u => u.phase == .dataIn && u.dir.setWidth 8 == 0xFF#8) &&
          Nexts (runSteps 17 t) (fun u => !u.busy && u.phase == .idle && u.dir.setWidth 8 == 0xFF#8)) = true :=
  ⟨by simp, rfl, rfl, by decide, full_noReset 17 (by decide), by decide +kernel⟩

theorem witness_SynchroniserLag :
    full.NoResetFor 2 ∧ 0 < full.rbSync.length ∧ full.rbSync.length ≤ 2 ∧ Nexts (runSteps 2 full) (fun _ => true) = true :=
  ⟨full_noReset 2 (by decide), by decide, by decide, by decide⟩

theorem witness_OperandsStable :
    Nexts (step polling0) (fun _ => true) = true ∧ polling0.busy = true ∧ polling0.input.rst = false := by
  decide

/-- A step that changes BUS_OUT and one that changes DIR. -/
theorem witness_PinsMoveOnlyBy :
    (inSeq [plainStep (.lines mWP 0#14)]).input.rst = false ∧
      Nexts (step (inSeq [plainStep (.lines mWP 0#14)])) (fun t => t.busOut != full.busOut) = true ∧
      Nexts (step (inSeq [plainStep (.dirD .input)])) (fun t => t.dir != full.dir) = true := by
  decide

theorem witness_ReadyCompletes :
    polling0.Inv ∧ polling0.NoResetFor (polling0.cfg.rbSyncStages + 1 + seqCost (waitReady.drop polling0.seqPc)) ∧
      (∀ i ∈ polling0.inputs.take (polling0.cfg.rbSyncStages + 1 + seqCost (waitReady.drop polling0.seqPc)), i.rb = true) :=
  ⟨polling0_inv, full_noReset _ (by decide), by decide⟩

end Sys2Proof.Machine
end

section
/-! PROOFS. The block has no trap (00_scope.md R8, 60_exceptions.md R224). The one fault of the model is a CAP into a full
RXBUF (log 10); the invariant keeps room for every capture that is still to come (42_phase_engine.md R140), so no cycle
of a running operation meets it, and neither a reset nor a host access ever stops. -/

namespace Sys2Proof.Machine

/-- RXBUF has room for every byte that the rest of the running sequence captures (42_phase_engine.md R140). -/
theorem State.Running.capturesFit {s : State} {c : CurOp} (h : s.Running c) :
    s.rxLen + capCount (c.seq.drop s.seqPc) ≤ s.cfg.rxDepth := by
  obtain ⟨_, _, _, _, _, _, hfit, _⟩ := h
  exact hfit

/-- The CAP whose cycle this is counts among the captures still to come, so one place at least is free. -/
theorem cap_has_room {s : State} {c : CurOp} {m : MicroStep}
    (hfit : s.rxLen + capCount (c.seq.drop s.seqPc) ≤ s.cfg.rxDepth)
    (hm : c.seq[(s.settle c).seqPc]? = some m) (hcap : m.op = .cap) : s.rxLen < s.cfg.rxDepth := by
  obtain ⟨_, _, hpc⟩ := settle_pins s c
  rw [hpc] at hm
  have hcount : capCount (c.seq.drop s.seqPc) = capCount (c.seq.drop (skipZero c.seq s.seqPc + 1)) + 1 := by
    rw [← capCount_skipZero, drop_eq_cons hm, capCount_cons, if_pos hcap]
  omega

/-- A cycle of an operation whose captures fit does not stop. -/
theorem seqCycle_next_of_capturesFit {s : State} {c : CurOp} (levels : Latch) (hc : s.cur = some c)
    (hfit : s.rxLen + capCount (c.seq.drop s.seqPc) ≤ s.cfg.rxDepth) : ∃ t, s.seqCycle levels = .next t :=
  seqCycle_next hc fun _ => cap_has_room hfit

/-- While no operation runs, whatever the host does is accepted or refused by a flag: no access stops the block. -/
theorem hostCycle_next_of_idle {s : State} (i : Input) (hc : s.cur = none) : ∃ t, hostCycle s i = .next t := by
  rcases hostCycle_idle (i := i) (s.busy_eq_false.2 hc) with ⟨_, _, _, _, _, h⟩ | ⟨_, _, _, _, h⟩ | ⟨_, h⟩
  · exact ⟨_, h⟩
  · exact ⟨_, h⟩
  · exact ⟨_, h⟩

/-- With no operation no step without rst stops. -/
theorem step_next_of_idle {s : State} (hc : s.cur = none) (hr : s.input.rst = false) : ∃ t, step s = .next t := by
  obtain ⟨t, ht⟩ := hostCycle_next_of_idle s.input hc
  exact ⟨t.tick s.input, by rw [step_idle hc hr, ht]; rfl⟩

/-- With an operation whose captures fit no step without rst stops: the host's access leaves the sequencer and RXBUF
alone (20_memory.md R62), so the captures fit in the sequencer's cycle too. -/
theorem step_next_of_capturesFit {s : State} {c : CurOp} (hc : s.cur = some c) (hr : s.input.rst = false)
    (hfit : s.rxLen + capCount (c.seq.drop s.seqPc) ≤ s.cfg.rxDepth) : ∃ t, step s = .next t := by
  obtain ⟨o, r, hstep⟩ := step_busy hc hr
  obtain ⟨t, ht⟩ := seqCycle_next_of_capturesFit (s := { s with overrun := o, rData := r }) s.input.levels hc hfit
  exact ⟨t.tick s.input, by rw [hstep, ht]; rfl⟩

/-- Settles O52, by cases on rst and on whether an operation runs. -/
theorem neverStops : Obligations.NeverStops := by
  unfold Obligations.NeverStops
  intro s ⟨_, hseq⟩
  cases hr : s.input.rst with
  | true => exact ⟨_, step_rst hr⟩
  | false =>
    cases hc : s.cur with
    | none => exact step_next_of_idle hc hr
    | some c =>
      have hrun : s.Running c := by simpa only [hc] using hseq
      exact step_next_of_capturesFit hc hr hrun.capturesFit

end Sys2Proof.Machine
end

section
/-! PROOFS. The invariant of the block holds after reset, and every step keeps it. Each part of the invariant has a name;
each operation of the model (the reset, the host's access, the start of an operation, a micro-operation, the move to the
next one, completion, the edge) has one lemma that says that it keeps the invariant; a step is these operations one after
another. -/

namespace Sys2Proof.Machine

/-! ### The invariant taken apart -/

/-- `State.RegsOk` with a name for each part. -/
structure State.RegsParts (s : State) : Prop where
  valid : s.cfg.Valid
  dir : DirOk s.dir
  sync : s.rbSync.length = s.cfg.rbSyncStages
  aLen : s.aLen ≤ s.cfg.abufDepth
  txLen : s.txLen ≤ s.cfg.txDepth
  rxLen : s.rxLen ≤ s.cfg.rxDepth
  rxRd : s.rxRd ≤ s.rxLen
  res : s.res.extractLsb' 13 3 = 0#3
  oneResult : ¬(s.fail = true ∧ s.uidWarn = true)
  failDone : s.fail = true → s.done = true
  uidDone : s.uidWarn = true → s.done = true
  oneRefusal : ¬(s.illOp = true ∧ s.badArg = true)

theorem regsOk_iff_parts {s : State} : s.RegsOk ↔ s.RegsParts :=
  ⟨fun ⟨a, b, c, d, e, f, g, h, i, j, k, l⟩ => ⟨a, b, c, d, e, f, g, h, i, j, k, l⟩,
    fun ⟨a, b, c, d, e, f, g, h, i, j, k, l⟩ => ⟨a, b, c, d, e, f, g, h, i, j, k, l⟩⟩

/-- What `State.Running` says of operation `c` when the micro-operation that is due is number `n`, wherever SEQ_PC,
DLYCNT and POLLST stand. -/
structure State.RunsFrom (s : State) (c : CurOp) (n : Nat) : Prop where
  operands : c.aLen = s.aLen ∧ c.txLen = s.txLen ∧ c.len = s.len ∧ c.pages = s.pages
  flags : s.done = false ∧ s.illOp = false ∧ s.badArg = false ∧ s.rxRd = 0
  bound : n ≤ c.seq.length
  micros : ∀ m ∈ c.seq, MicroOk s.cfg m
  capturesFit : s.rxLen + capCount (c.seq.drop n) ≤ s.cfg.rxDepth
  phases : PhasesOk s.phase (c.seq.drop n)

theorem running_iff {s : State} {c : CurOp} :
    s.Running c ↔ s.RunsFrom c s.seqPc ∧ s.pollSt = loadPoll c.seq[s.seqPc]? ∧ DlyOk c.seq[s.seqPc]? s.dlyCnt :=
  ⟨fun ⟨a, b, n, p, d, m, f, h⟩ => ⟨⟨a, b, n, m, f, h⟩, p, d⟩, fun ⟨⟨a, b, n, m, f, h⟩, p, d⟩ => ⟨a, b, n, p, d, m, f, h⟩⟩

theorem inv_idle {s : State} (hc : s.cur = none) : s.Inv ↔ s.RegsParts ∧ s.AtRest := by
  simp only [State.Inv, hc, regsOk_iff_parts]

theorem inv_running {s : State} {c : CurOp} (hc : s.cur = some c) : s.Inv ↔ s.RegsParts ∧ s.Running c := by
  simp only [State.Inv, hc, regsOk_iff_parts]

/-! ### Reset and the edge -/

/-- The delays of the default configuration are the free 32-bit values, below 2^32 whatever they are. -/
theorem config_default_valid : Config.default.Valid := by
  have h : ∀ d, (Config.openDelay d).toNat < 2 ^ 32 := fun d => (Config.openDelay d).isLt
  exact ⟨⟨h _, h _, h _, h _, h _, h _, h _, h _, h _, h _, h _, h _⟩, by decide, by decide, by decide⟩

/-- The hardware reset gives a state of the invariant in every valid configuration. -/
theorem hwReset_inv {s : State} (hv : s.cfg.Valid) : s.hwReset.Inv :=
  (inv_idle rfl).2
    ⟨{ valid := hv, dir := .inl rfl, sync := List.length_replicate, aLen := Nat.zero_le _, txLen := Nat.zero_le _,
       rxLen := Nat.zero_le _, rxRd := le_rfl, res := by rw [State.hwReset_res]; rfl, oneResult := by simp, failDone := by simp,
       uidDone := by simp, oneRefusal := by simp }, rfl, rfl, rfl, rfl⟩

/-- Settles O50: the state after reset is at rest, in the default configuration. -/
theorem invAtReset : Obligations.InvAtReset :=
  (inv_idle rfl).2
    ⟨{ valid := config_default_valid, dir := .inl rfl, sync := rfl, aLen := Nat.zero_le _, txLen := Nat.zero_le _,
       rxLen := Nat.zero_le _, rxRd := le_rfl, res := rfl, oneResult := nofun, failDone := nofun, uidDone := nofun,
       oneRefusal := nofun }, rfl, rfl, rfl, rfl⟩

/-- The edge shifts the synchroniser and leaves its length. -/
theorem tick_inv {s : State} (i : Input) (h : s.Inv) : (s.tick i).Inv := by
  obtain ⟨hregs, hseq⟩ := h
  have hparts := regsOk_iff_parts.1 hregs
  exact ⟨regsOk_iff_parts.2 { hparts with sync := by simpa using hparts.sync }, hseq⟩

/-! ### The sequencer -/

theorem dirOk_dirWithData {d : Lines15} (e : Direction) (h : DirOk d) : DirOk (dirWithData e d) := by
  rcases h with rfl | rfl | rfl | rfl <;> cases e <;> unfold DirOk <;> decide

theorem extract_setWidth_bool (b : Bool) : ((BitVec.ofBool b).setWidth 16).extractLsb' 13 3 = 0#3 := by
  cases b <;> rfl

theorem extract_setWidth_byte (b : Byte) : (b.setWidth 16).extractLsb' 13 3 = 0#3 := by
  revert b; decide

/-- The micro-operations an accepted sequence may hold keep the registers as the rules say. -/
theorem effectOf_regs {s : State} {m : MicroStep} (levels : Latch) (h : s.RegsParts) (hm : MicroOk s.cfg m)
    (hroom : m.op = .cap → s.rxLen < s.cfg.rxDepth) : (effectOf m levels s).RegsParts := by
  obtain ⟨op, ph⟩ := m
  cases op with
  | lines mask val => exact { h with }
  | dirD d => exact { h with dir := dirOk_dirWithData d h.dir }
  | dirAll v =>
    obtain rfl : v = 0x3FFF#14 := hm
    exact { h with dir := .inr (.inr (.inr rfl)) }
  | dly k => exact { h with }
  | poll => exact { h with }
  | cap =>
    have hlen : (effectOf ⟨.cap, ph⟩ levels s).rxLen = s.rxLen + 1 := effectOf_rxLen ..
    exact { h with rxLen := hlen ▸ hroom rfl, rxRd := hlen ▸ Nat.le_succ_of_le h.rxRd }
  | rdl l => exact { h with res := extract_setWidth_bool _ }
  | rdd => exact { h with res := extract_setWidth_byte _ }

theorem effectOf_phase (m : MicroStep) (levels : Latch) (s : State) :
    (effectOf m levels s).phase = m.phase.getD s.phase := by
  obtain ⟨op, ph⟩ := m; cases op <;> rfl

theorem effectOf_done (m : MicroStep) (levels : Latch) (s : State) : (effectOf m levels s).done = s.done := by
  obtain ⟨op, ph⟩ := m; cases op <;> rfl

/-- A micro-operation done, the next one is due. -/
theorem effectOf_runsFrom {s : State} {c : CurOp} {n : Nat} {m : MicroStep} (levels : Latch) (h : s.RunsFrom c n)
    (hm : c.seq[n]? = some m) : (effectOf m levels s).RunsFrom c (n + 1) := by
  obtain ⟨⟨hcfg, _, habuf, htx, hlen, hpages⟩, ⟨hill, _, hbad, _⟩, _, _, _, hrd⟩ := effectOf_sameHost m levels s
  have hdrop := drop_eq_cons hm
  obtain ⟨hop, hflags, _, hmicros, hfit, hph⟩ := h
  refine ⟨?_, ?_, (List.getElem?_eq_some_iff.1 hm).1, ?_, ?_, ?_⟩
  · simpa only [State.aLen, State.txLen, habuf, htx, hlen, hpages] using hop
  · simpa only [effectOf_done, hill, hbad, hrd] using hflags
  · rwa [hcfg]
  · rw [hdrop, capCount_cons] at hfit
    rw [effectOf_rxLen, hcfg]
    omega
  · rw [hdrop, PhasesOk] at hph
    rw [effectOf_phase]
    cases hq : m.phase with
    | none => rw [hq] at hph; exact hph
    | some q => rw [hq] at hph; exact hph.2

/-- Delays of 0 capture nothing and carry no PHASE update, so passing over them leaves what is due. -/
theorem phasesOk_drop_zeroRun {c : Config} {p : Phase} {l : List MicroStep} (hm : ∀ m ∈ l, MicroOk c m)
    (h : PhasesOk p l) : PhasesOk p (l.drop (zeroRun l)) := by
  induction l with
  | nil => exact h
  | cons m r ih =>
    by_cases hz : m.op = .dly 0
    · have hnone : m.phase = none := by
        have hok := hm m List.mem_cons_self
        rw [MicroOk, hz] at hok
        exact hok.2
      rw [PhasesOk, hnone] at h
      simpa only [zeroRun, hz, if_true, List.drop_succ_cons] using ih (fun x hx => hm x (List.mem_cons_of_mem _ hx)) h
    · simpa only [zeroRun, hz, if_false, List.drop_zero] using h

theorem skipZero_le_length {seq : List MicroStep} {n : Nat} (h : n ≤ seq.length) : skipZero seq n ≤ seq.length := by
  have hz := zeroRun_le (seq.drop n)
  rw [List.length_drop] at hz
  rw [skipZero]
  omega

theorem runsFrom_skipZero {s : State} {c : CurOp} {n : Nat} (h : s.RunsFrom c n) : s.RunsFrom c (skipZero c.seq n) :=
  { h with
    bound := skipZero_le_length h.bound
    capturesFit := by rw [capCount_skipZero]; exact h.capturesFit
    phases := by
      rw [skipZero, ← List.drop_drop]
      exact phasesOk_drop_zeroRun (fun m hm => h.micros m (List.mem_of_mem_drop hm)) h.phases }

theorem dlyOk_loadDly (m : Option MicroStep) : DlyOk m (loadDly m) := by
  rcases m with _ | ⟨op, ph⟩
  · rfl
  · cases op with
    | dly k => exact le_rfl
    | _ => rfl

theorem beginAt_running {s : State} {c : CurOp} {n : Nat} (h : s.RunsFrom c n) : (s.beginAt c.seq n).Running c :=
  running_iff.2 ⟨{ h with }, rfl, dlyOk_loadDly _⟩

theorem settle_running {s : State} {c : CurOp} (h : s.Running c) : (s.settle c).Running c := by
  rw [State.settle]
  split
  · exact h
  · exact beginAt_running (runsFrom_skipZero (running_iff.1 h).1)

theorem settle_regs {s : State} {c : CurOp} (h : s.RegsParts) : (s.settle c).RegsParts := by
  rw [State.settle]
  split
  · exact h
  · exact { h with }

/-- A cycle in which the micro-operation does not end counts DLYCNT down, which stays within its delay. -/
theorem hold_running {s : State} {c : CurOp} (h : s.Running c) : ({ s with dlyCnt := s.dlyCnt - 1 } : State).Running c := by
  obtain ⟨hruns, hpoll, hdly⟩ := running_iff.1 h
  refine running_iff.2 ⟨{ hruns with }, hpoll, ?_⟩
  show DlyOk c.seq[s.seqPc]? (s.dlyCnt - 1)
  rcases hm : c.seq[s.seqPc]? with _ | ⟨op, ph⟩ <;> rw [hm] at hdly
  · exact Nat.sub_eq_zero_of_le (Nat.le_succ_of_le hdly.le)
  · cases op with
    | dly k => exact (Nat.sub_le ..).trans hdly
    | _ => exact Nat.sub_eq_zero_of_le (Nat.le_succ_of_le (Nat.le_of_eq hdly))

/-! ### Completion -/

theorem resWithByte_top (r : BitVec 16) (b : Byte) : (resWithByte r b).extractLsb' 13 3 = r.extractLsb' 13 3 := by
  apply BitVec.eq_of_getLsbD_eq
  intro i hi
  have h8 : ¬(13 + i < 8) := by omega
  have hsub : 8 + (13 + i - 8) = 13 + i := by omega
  have hlt : 13 + i - 8 < 8 := by omega
  rw [resWithByte, BitVec.getLsbD_extractLsb', BitVec.getLsbD_extractLsb']
  refine congrArg _ ((BitVec.getLsbD_append (i := 13 + i)).trans ?_)
  rw [if_neg h8, BitVec.getLsbD_extractLsb', hsub, decide_eq_true hlt, Bool.true_and]

theorem resWithUidIdx_top (r : BitVec 16) (i : Nat) : (resWithUidIdx r i).extractLsb' 13 3 = 0#3 := by
  apply BitVec.eq_of_getLsbD_eq
  intro j hj
  have h8 : ¬(13 + j < 8) := by omega
  rw [resWithUidIdx, BitVec.getLsbD_extractLsb']
  rw [show (0#3 ++ BitVec.ofNat 5 i ++ r.extractLsb' 0 8 : BitVec 16).getLsbD (13 + j) = _ from BitVec.getLsbD_append]
  rw [if_neg h8, BitVec.getLsbD_append, if_neg (by omega)]
  simp

/-- The status byte goes to RES[7:0]. -/
theorem statusToRes_regs {s : State} (h : s.RegsParts) : s.statusToRes.RegsParts := by
  rw [State.statusToRes]
  split
  · exact { h with res := (resWithByte_top _ _).trans h.res }
  · exact h

theorem statusToRes_done (s : State) : s.statusToRes.done = s.done := by
  rw [State.statusToRes]; split <;> rfl

/-- FAIL is written in the edge that sets DONE, by an operation that does not write UIDWARN. -/
theorem failFromRes_regs {s : State} (h : s.RegsParts) (hd : s.done = false) :
    ({ s.failFromRes with done := true } : State).RegsParts :=
  { h with
    oneResult := fun ⟨_, hu⟩ => Bool.false_ne_true (hd.symm.trans (h.uidDone hu))
    failDone := fun _ => rfl
    uidDone := fun _ => rfl }

/-- UIDWARN is written in the edge that sets DONE, by an operation that does not write FAIL; RXLEN takes 16 at most. -/
theorem checkUid_regs {s : State} (h : s.RegsParts) (hd : s.done = false) (hr : s.rxRd = 0) :
    ({ s.checkUid with done := true } : State).RegsParts :=
  { h with
    rxLen := (List.length_take_le' ..).trans h.rxLen
    rxRd := hr.trans_le (Nat.zero_le _)
    res := resWithUidIdx_top _ _
    oneResult := fun ⟨hf, _⟩ => Bool.false_ne_true (hd.symm.trans (h.failDone hf))
    failDone := fun _ => rfl
    uidDone := fun _ => rfl }

theorem completionAction_regs {s : State} (k : Completion) (h : s.RegsParts) (hd : s.done = false) (hr : s.rxRd = 0) :
    ({ s.completionAction k with done := true } : State).RegsParts := by
  cases k with
  | plain => exact { h with failDone := fun _ => rfl, uidDone := fun _ => rfl }
  | status => exact { statusToRes_regs h with failDone := fun _ => rfl, uidDone := fun _ => rfl }
  | statusFail => exact failFromRes_regs (statusToRes_regs h) ((statusToRes_done s).trans hd)
  | uniqueId => exact checkUid_regs h hd hr

theorem complete_phase (s : State) (k : Completion) : (s.complete k).phase = s.phase := by
  have hstatus : s.statusToRes.phase = s.phase := by rw [State.statusToRes]; split <;> rfl
  cases k with
  | plain => rfl
  | status => exact hstatus
  | statusFail => exact hstatus
  | uniqueId => rfl

/-- With nothing left of the sequence PHASE is back at Idle, so the operation leaves the sequencer at rest. -/
theorem complete_inv {s : State} {c : CurOp} {n : Nat} (h : s.RegsParts) (hruns : s.RunsFrom c n)
    (hend : c.seq.length ≤ n) : (s.complete c.completion).Inv := by
  obtain ⟨hdone, _, _, hrd⟩ := hruns.flags
  have hphase : s.phase = .idle := by
    have hleft := hruns.phases
    rwa [List.drop_eq_nil_of_le hend] at hleft
  refine (inv_idle rfl).2 ⟨?_, (complete_phase ..).trans hphase, rfl, rfl, rfl⟩
  exact { completionAction_regs c.completion h hdone hrd with }

theorem advance_inv {s : State} {c : CurOp} {n : Nat} (h : s.RegsParts) (hc : s.cur = some c) (hruns : s.RunsFrom c n) :
    (s.advance c n).Inv := by
  have hskip := runsFrom_skipZero hruns
  simp only [State.advance]
  split
  · exact (inv_running (s := s.beginAt c.seq _) hc).2 ⟨{ h with }, beginAt_running hskip⟩
  · exact complete_inv h hskip (by omega)

/-- One cycle of a running operation keeps the invariant. -/
theorem seqCycle_inv {s t : State} {c : CurOp} {levels : Latch} (hc : s.cur = some c) (h : s.Inv)
    (hs : s.seqCycle levels = .next t) : t.Inv := by
  obtain ⟨hregs, hrunning⟩ := (inv_running hc).1 h
  have hset := settle_running hrunning
  have hsetRegs : (s.settle c).RegsParts := settle_regs hregs
  have hsetRuns := (running_iff.1 hset).1
  have hsetCur : (s.settle c).cur = some c := (settle_pins s c).2.1.trans hc
  rcases seqCycle_cases hc hs with ⟨hnone, rfl⟩ | ⟨m, hm, hroom, ⟨_, rfl⟩ | ⟨_, rfl⟩⟩
  · have hruns := (running_iff.1 hrunning).1
    rw [(settle_pins s c).2.2] at hnone
    exact complete_inv hregs (runsFrom_skipZero hruns) (List.getElem?_eq_none_iff.1 hnone)
  · exact (inv_running (s := { s.settle c with dlyCnt := (s.settle c).dlyCnt - 1 }) hsetCur).2
      ⟨{ hsetRegs with }, hold_running hset⟩
  · have hsetRoom : m.op = .cap → (s.settle c).rxLen < (s.settle c).cfg.rxDepth := by
      have hfit := hsetRuns.capturesFit
      rw [drop_eq_cons hm, capCount_cons] at hfit
      intro hcap
      rw [if_pos hcap] at hfit
      omega
    have hmicro : MicroOk (s.settle c).cfg m := hsetRuns.micros m (List.mem_of_getElem? hm)
    exact advance_inv (effectOf_regs levels hsetRegs hmicro hsetRoom) ((effectOf_cur ..).trans hsetCur)
      (effectOf_runsFrom levels hsetRuns hm)

/-! ### The host -/

/-- The operation that is accepted in a state of rest runs from its first micro-operation on. -/
theorem accept_inv {i : Instr} {s : State} (h : s.RegsParts) (hrest : s.AtRest) (hd : DomainOk i s) :
    (s.accept (runningOp i) (expand i s) (completionOf i)).Inv := by
  have hregs : (s.accept (runningOp i) (expand i s) (completionOf i)).RegsParts :=
    { h with
      rxLen := Nat.zero_le _
      rxRd := le_rfl
      res := by rw [State.accept_res]; rfl
      oneResult := by simp
      failDone := by simp
      uidDone := by simp
      oneRefusal := by simp }
  obtain ⟨hidle, _⟩ := hrest
  refine (inv_running rfl).2 ⟨hregs, running_iff.2 ⟨?_, rfl, dlyOk_loadDly _⟩⟩
  exact
    { operands := ⟨rfl, rfl, rfl, rfl⟩
      flags := ⟨rfl, rfl, rfl, rfl⟩
      bound := Nat.zero_le _
      micros := micros_ok h.valid hd
      capturesFit := (Nat.zero_add _).trans_le (caps_fit h.valid hd)
      phases := by
        rw [State.accept_phase, hidle]
        exact phases_expand i s }

theorem latchOpw_idle {s : State} (w : Word) (hc : s.cur = none) :
    s.latchOpw w = { s with opw := w, illOp := false, badArg := false } := by
  rw [State.latchOpw, s.busy_eq_false.2 hc]; rfl

theorem expand_latchOpw {s : State} (i : Instr) (w : Word) (hc : s.cur = none) : expand i (s.latchOpw w) = expand i s := by
  rw [latchOpw_idle w hc]; cases i <;> rfl

theorem refuse_regs {s : State} (f : RefuseFlag) (h : s.RegsParts) : (s.refuse f).RegsParts := by
  cases f with
  | overrun => exact { h with }
  | illOp => exact { h with oneRefusal := fun ⟨_, hb⟩ => Bool.false_ne_true hb }
  | badArg => exact { h with oneRefusal := fun ⟨hi, _⟩ => Bool.false_ne_true hi }

theorem refuse_atRest {s : State} (f : RefuseFlag) (h : s.AtRest) : (s.refuse f).AtRest := by
  cases f <;> exact h

theorem refuse_cur (s : State) (f : RefuseFlag) : (s.refuse f).cur = s.cur := by
  cases f <;> rfl

/-- A host read moves RXRD only where a byte is left to pop. -/
theorem hostRead_regs {s : State} (r : HostReg) (levels : Latch) (h : s.RegsParts) : (s.hostRead r levels).RegsParts := by
  refine { h with rxRd := ?_ }
  show (if r = .rxPop ∧ s.canPop then s.rxRd + 1 else s.rxRd) ≤ s.rxLen
  split
  · rename_i hpop
    have hlt : s.rxRd < s.rxLen := of_decide_eq_true (Bool.and_eq_true_iff.1 hpop.2).2
    exact hlt
  · exact h.rxRd

/-- A host write keeps the buffers within their depths: a push into a full one is ignored. -/
theorem hostWrite_regs {s : State} (r : HostReg) (w : Word) (h : s.RegsParts) : (s.hostWrite r w).RegsParts := by
  have hpush : ∀ (l : List Byte) (d : Nat), ¬(s.busy = true ∨ d ≤ l.length) → (l ++ [w.setWidth 8]).length ≤ d := by
    intro l d hl
    rw [List.length_append, List.length_singleton]
    omega
  cases r with
  | stat => exact { h with }
  | aPush =>
    rw [State.hostWrite]
    split
    · exact h
    · exact { h with aLen := hpush _ _ ‹_› }
  | aClr =>
    rw [State.hostWrite]
    split
    · exact h
    · exact { h with aLen := Nat.zero_le _ }
  | txPush =>
    rw [State.hostWrite]
    split
    · exact h
    · exact { h with txLen := hpush _ _ ‹_› }
  | txClr =>
    rw [State.hostWrite]
    split
    · exact h
    · exact { h with txLen := Nat.zero_le _ }
  | len =>
    rw [State.hostWrite]
    split
    · exact h
    · exact { h with }
  | pages =>
    rw [State.hostWrite]
    split
    · exact h
    · exact { h with }
  | rxLen =>
    rw [State.hostWrite]
    split
    · exact h
    · exact { h with rxRd := Nat.zero_le _ }
  | _ => exact h

theorem hostAccess_regs {s : State} (a : HostAccess) (levels : Latch) (h : s.RegsParts) :
    (s.hostAccess a levels).RegsParts := by
  cases a with
  | idle => exact h
  | read addr => exact hostRead_regs _ _ h
  | write addr w => exact hostWrite_regs _ _ h

/-- Whatever the host does while no operation runs keeps the invariant. -/
theorem hostCycle_inv {s t : State} {i : Input} (hc : s.cur = none) (h : s.Inv) (hs : hostCycle s i = .next t) :
    t.Inv := by
  obtain ⟨hregs, hrest⟩ := (inv_idle hc).1 h
  have hlatch : ∀ w, (s.latchOpw w).RegsParts ∧ (s.latchOpw w).AtRest ∧ (s.latchOpw w).cur = none := fun w => by
    rw [latchOpw_idle w hc]
    exact ⟨{ hregs with oneRefusal := by simp }, hrest, hc⟩
  rcases hostCycle_idle (i := i) (s.busy_eq_false.2 hc) with ⟨w, j, _, _, hd, he⟩ | ⟨w, f, _, _, he⟩ | ⟨_, he⟩ <;>
    obtain rfl : _ = t := Host.Outcome.next.inj (he.symm.trans hs)
  · obtain ⟨hlregs, hlrest, _⟩ := hlatch w
    rw [← expand_latchOpw j w hc]
    exact accept_inv hlregs hlrest ((latchOpw_domain ..).2 hd)
  · obtain ⟨hlregs, hlrest, hlcur⟩ := hlatch w
    exact (inv_idle ((refuse_cur ..).trans hlcur)).2 ⟨refuse_regs f hlregs, refuse_atRest f hlrest⟩
  · obtain ⟨⟨_, _, _, hphase, hcur, hpc, hpoll, hdly⟩, _⟩ := hostAccess_sameCore s i.host i.levels
    refine (inv_idle (hcur.trans hc)).2 ⟨hostAccess_regs _ _ hregs, ?_⟩
    simpa only [State.AtRest, hphase, hpc, hpoll, hdly] using hrest

/-- Settles O51, by cases on rst and on whether an operation runs. -/
theorem invKept : Obligations.InvKept := by
  unfold Obligations.InvKept
  intro s t h hs
  cases hr : s.input.rst with
  | true =>
    obtain rfl : s.hwReset = t := Host.Outcome.next.inj ((step_rst hr).symm.trans hs)
    obtain ⟨⟨hvalid, _⟩, _⟩ := h
    exact hwReset_inv hvalid
  | false =>
    cases hc : s.cur with
    | none =>
      obtain ⟨u, hu, rfl⟩ := step_idle_inv hc hr hs
      exact tick_inv _ (hostCycle_inv hc h hu)
    | some c =>
      obtain ⟨s1, u, _, ⟨o, r, rfl⟩, hu, rfl⟩ := step_busy_inv hc hr hs
      have hs1 : ({ s with overrun := o, rData := r } : State).Inv := h
      exact tick_inv _ (seqCycle_inv (s := { s with overrun := o, rData := r }) hc hs1 hu)

end Sys2Proof.Machine
end

section
/-! PROOFS. STAT: what each of its bits is, and which result codes the exclusions of the invariant leave. -/

namespace Sys2Proof.Machine

/-- The bits of STAT, bit 0 first (10_state.md R43), PHASE by its code (R31). -/
def State.statBits (s : State) : List Bool :=
  [s.busy, s.done, s.fail, s.uidWarn, s.illOp, s.overrun, s.badArg, false, (phaseCode s.phase).getLsbD 0,
    (phaseCode s.phase).getLsbD 1, (phaseCode s.phase).getLsbD 2, polling s.pollSt, s.rbS]

theorem stat_getLsbD (s : State) (i : Nat) (hi : i < 32) : s.stat.getLsbD i = s.statBits.getD i false := by
  show (0#19 ++ BitVec.ofBool s.rbS ++ BitVec.ofBool (polling s.pollSt) ++ phaseCode s.phase ++ 0#1 ++
    (BitVec.ofBool s.badArg ++ BitVec.ofBool s.overrun ++ BitVec.ofBool s.illOp ++ BitVec.ofBool s.uidWarn ++
      BitVec.ofBool s.fail ++ BitVec.ofBool s.done ++ BitVec.ofBool s.busy) :
        BitVec (19 + 1 + 1 + 3 + 1 + (1 + 1 + 1 + 1 + 1 + 1 + 1))).getLsbD i = _
  simp only [BitVec.getLsbD_append, BitVec.getLsbD_zero, BitVec.getLsbD_ofBool]
  interval_cases i <;> simp [State.statBits]

/-- STAT[6:0] is the result code (60_exceptions.md R221). -/
theorem stat_resultCode (s : State) : s.stat.extractLsb' 0 7 = s.resultCode := by
  apply BitVec.eq_of_getLsbD_eq
  intro i hi
  rw [BitVec.getLsbD_extractLsb', Nat.zero_add, decide_eq_true hi, Bool.true_and]
  exact (BitVec.getLsbD_append (i := i)).trans (if_pos hi)

theorem phaseCode_bits (p : Phase) :
    (phaseCode p).getLsbD 0 = decide (p = .command ∨ p = .dataOut) ∧
      (phaseCode p).getLsbD 1 = decide (p = .address ∨ p = .dataOut) ∧
      (phaseCode p).getLsbD 2 = decide (p = .dataIn) := by
  cases p <;> decide

theorem polling_eq (p : PollState) : polling p = decide (p = .wait) := by
  cases p <;> rfl

/-- The exclusions of 60_exceptions.md R220, R221 and R223 between the flags of STAT[6:0], BUSY first. -/
def FlagsApart (busy done fail uidWarn illOp badArg : Bool) : Prop :=
  (busy = true → done = false ∧ illOp = false ∧ badArg = false) ∧ ¬(fail = true ∧ uidWarn = true) ∧
    (fail = true → done = true) ∧ (uidWarn = true → done = true) ∧ ¬(illOp = true ∧ badArg = true)

/-- The codes that the exclusions leave, OVERRUN masked out, and the one of them that shows BUSY. -/
theorem codes_of_flagsApart : ∀ busy done fail uidWarn illOp overrun badArg : Bool,
    FlagsApart busy done fail uidWarn illOp badArg →
      (BitVec.ofBool badArg ++ BitVec.ofBool overrun ++ BitVec.ofBool illOp ++ BitVec.ofBool uidWarn ++
        BitVec.ofBool fail ++ BitVec.ofBool done ++ BitVec.ofBool busy) &&& 0x5F#7 ∈
          [0x00#7, 0x01#7, 0x02#7, 0x06#7, 0x0A#7, 0x10#7, 0x12#7, 0x16#7, 0x1A#7, 0x40#7, 0x42#7, 0x46#7, 0x4A#7] ∧
      (busy = true → (BitVec.ofBool badArg ++ BitVec.ofBool overrun ++ BitVec.ofBool illOp ++ BitVec.ofBool uidWarn ++
        BitVec.ofBool fail ++ BitVec.ofBool done ++ BitVec.ofBool busy) &&& 0x5F#7 = 0x01#7) := by
  unfold FlagsApart
  decide

/-- In a state of the invariant the flags exclude each other: with an operation running, DONE, ILLOP and BADARG are 0. -/
theorem inv_flagsApart {s : State} (h : s.Inv) : FlagsApart s.busy s.done s.fail s.uidWarn s.illOp s.badArg := by
  obtain ⟨hregsOk, _⟩ := id h
  have hregs := regsOk_iff_parts.1 hregsOk
  refine ⟨fun hb => ?_, hregs.oneResult, hregs.failDone, hregs.uidDone, hregs.oneRefusal⟩
  obtain ⟨c, hc⟩ := Option.isSome_iff_exists.1 hb
  obtain ⟨_, hrunning⟩ := (inv_running hc).1 h
  obtain ⟨hdone, hill, hbad, _⟩ := (running_iff.1 hrunning).1.flags
  exact ⟨hdone, hill, hbad⟩

/-- Settles O47: the bits of STAT one by one, and the codes that the exclusions of the invariant leave. -/
theorem statusWord : Obligations.StatusWord := by
  unfold Obligations.StatusWord
  intro s
  have hbit : ∀ i, i < 32 → s.stat.getLsbD i = s.statBits.getD i false := stat_getLsbD s
  refine ⟨fun i hi => ?_, fun h => ?_⟩
  · obtain ⟨h0, h1, h2⟩ := phaseCode_bits s.phase
    rw [hbit i hi, State.statBits, h0, h1, h2, polling_eq]
    rfl
  · have hflags := inv_flagsApart h
    obtain ⟨hcodes, hbusy⟩ := codes_of_flagsApart _ _ _ _ _ s.overrun _ hflags
    obtain ⟨_, hone, _⟩ := hflags
    rw [stat_resultCode, hbit 0 (by decide), hbit 2 (by decide), hbit 3 (by decide)]
    exact ⟨hcodes, hbusy, hone⟩

end Sys2Proof.Machine
end

section
/-! PROOFS. The clock and the synchroniser: every step without rst uses up one input and shifts its level of `rb` into
RB_SYNC, whatever runs (10_state.md R35); with no operation and no host access it does nothing else. -/

namespace Sys2Proof.Machine

/-! ### One step -/

/-- The host's access, a start of an operation among them, leaves the synchroniser and the inputs alone. -/
theorem hostCycle_clock {s t : State} {i : Input} (hc : s.cur = none) (h : hostCycle s i = .next t) :
    t.rbSync = s.rbSync ∧ t.inputs = s.inputs := by
  rcases hostCycle_idle (i := i) (s.busy_eq_false.2 hc) with ⟨w, _, _, _, _, he⟩ | ⟨w, f, _, _, he⟩ | ⟨_, he⟩ <;>
    obtain rfl : _ = t := Host.Outcome.next.inj (he.symm.trans h)
  · rw [latchOpw_idle w hc]; exact ⟨rfl, rfl⟩
  · rw [latchOpw_idle w hc]; cases f <;> exact ⟨rfl, rfl⟩
  · obtain ⟨_, ⟨hsync, _⟩, hin, _⟩ := hostAccess_sameCore s i.host i.levels
    exact ⟨hsync, hin⟩

/-- A step without rst, whatever runs, uses one input and shifts its `rb` into the synchroniser (10_state.md R35). -/
theorem step_shifts {s t : State} (hr : s.input.rst = false) (h : step s = .next t) :
    t.inputs = s.inputs.tail ∧ t.rbSync = (s.input.rb :: s.rbSync).dropLast := by
  cases hc : s.cur with
  | some c => exact step_clock hc hr h
  | none =>
    obtain ⟨u, hu, rfl⟩ := step_idle_inv hc hr h
    obtain ⟨hsync, hin⟩ := hostCycle_clock hc hu
    rw [State.tick_inputs, State.tick_rbSync, hsync, hin]
    exact ⟨rfl, rfl⟩

/-- With no operation and no host access a step is the edge alone. -/
theorem step_quiet_idle {s : State} (hc : s.cur = none) (hr : s.input.rst = false) (hh : s.input.host = .idle) :
    step s = .next (s.tick s.input) := by
  rw [step_idle hc hr, hostCycle, hh]
  rfl

/-! ### Runs -/

/-- The first of the cycles without reset, and the cycles after it. -/
theorem NoResetFor.head {s : State} {n : Nat} (h : s.NoResetFor (n + 1)) :
    ∃ i rest, s.inputs = i :: rest ∧ s.input = i ∧ i.rst = false := by
  obtain ⟨hl, hq⟩ := h
  cases hs : s.inputs with
  | nil => simp [hs] at hl
  | cons i rest => exact ⟨i, rest, rfl, by simp [State.input, hs], hq i (by simp [hs])⟩

theorem NoResetFor.tail {s t : State} {n : Nat} (h : s.NoResetFor (n + 1)) (ht : t.inputs = s.inputs.tail) :
    t.NoResetFor n := by
  obtain ⟨hl, hq⟩ := h
  refine ⟨by rw [ht, List.length_tail]; omega, fun i hi => hq i ?_⟩
  rw [ht, ← List.drop_one, List.take_drop] at hi
  exact List.mem_of_mem_drop (Nat.add_comm 1 n ▸ hi)

/-- A run of one step more begins with a step. -/
theorem runSteps_succ_inv {s u : State} {n : Nat} (h : runSteps (n + 1) s = .next u) :
    ∃ t, step s = .next t ∧ runSteps n t = .next u := by
  rw [runSteps] at h
  cases hs : step s with
  | next t => exact ⟨t, rfl, by simpa only [hs, andThen] using h⟩
  | fault f => rw [hs] at h; cases h
  | refused f => rw [hs] at h; cases h

/-- After a run without reset the synchroniser has shifted in the levels of `rb` that the run used. -/
theorem runSteps_rbSync (n : Nat) {s t : State} (hin : s.NoResetFor n) (h : runSteps n s = .next t) :
    t.rbSync = syncAfter s.rbSync (s.inputs.take n) := by
  induction n generalizing s with
  | zero => rw [← Host.Outcome.next.inj h]; rfl
  | succ n ih =>
    obtain ⟨i, rest, hi, hii, hr⟩ := NoResetFor.head hin
    obtain ⟨v, hs, hv⟩ := runSteps_succ_inv h
    obtain ⟨hvin, hvsync⟩ := step_shifts (hii ▸ hr) hs
    rw [ih (NoResetFor.tail hin hvin) hv, hvin, hvsync, hii, hi]
    rfl

/-! ### The levels in the synchroniser -/

/-- The synchroniser holds the levels of `rb` last first, then what is left of its first contents. -/
theorem syncAfter_eq_take (q : List Bool) (ins : List Input) :
    syncAfter q ins = ((ins.map Input.rb).reverse ++ q).take q.length := by
  induction ins generalizing q with
  | nil => simp
  | cons i r ih =>
    have hdrop : (i.rb :: q).dropLast = (i.rb :: q).take q.length := by simp [List.dropLast_eq_take]
    calc syncAfter q (i :: r) = syncAfter (i.rb :: q).dropLast r := rfl
      _ = ((r.map Input.rb).reverse ++ (i.rb :: q).take q.length).take q.length := by
        rw [ih, hdrop]; simp
      _ = ((r.map Input.rb).reverse ++ i.rb :: q).take q.length := by
        simp only [List.take_append, List.take_take]; congr 2; omega
      _ = (((i :: r).map Input.rb).reverse ++ q).take q.length := by simp

/-- The last stage, once every stage has been shifted through: the level a number of inputs back that is the number of
stages. -/
theorem syncAfter_getLastD {q : List Bool} {ins : List Input} (hq : 0 < q.length) (hn : q.length ≤ ins.length) :
    (syncAfter q ins).getLastD false = (ins.getD (ins.length - q.length) default).rb := by
  have hlast : ins.length - q.length < ins.length := by omega
  have hstage : q.length - 1 < ((ins.map Input.rb).reverse).length := by simp; omega
  have hindex : ins.length - 1 - (q.length - 1) = ins.length - q.length := by omega
  rw [syncAfter_eq_take, List.take_append_of_le_length (by simpa using hn), List.getLastD_eq_getLast?,
    List.getLast?_eq_getElem?, List.length_take_of_le (by simpa using hn),
    List.getElem?_take_of_lt (by omega), List.getElem?_eq_getElem hstage]
  simp [hindex, List.getD_eq_getElem?_getD, hlast]

/-- Settles O56: the synchroniser is a shift register of the inputs used. -/
theorem synchroniserLag : Obligations.SynchroniserLag := by
  unfold Obligations.SynchroniserLag
  intro n s t hin hpos hle hrun
  obtain ⟨hlen, _⟩ := id hin
  have htake : (s.inputs.take n).length = n := List.length_take_of_le hlen
  have hlag := syncAfter_getLastD (ins := s.inputs.take n) hpos (by rw [htake]; exact hle)
  have hget : (s.inputs.take n).getD (n - s.rbSync.length) default = s.inputs.getD (n - s.rbSync.length) default := by
    simp only [List.getD_eq_getElem?_getD, List.getElem?_take_of_lt (show n - s.rbSync.length < n by omega)]
  rw [htake, hget] at hlag
  rw [State.rbS, runSteps_rbSync n hin hrun, hlag]

/-- Settles O48, by induction on the number of cycles: each of them is the edge alone. -/
theorem idleHolds : Obligations.IdleHolds := by
  unfold Obligations.IdleHolds
  intro n
  induction n with
  | zero => intro s _ _; rfl
  | succ n ih =>
    intro s hb hq
    obtain ⟨i, rest, hi, hr, hh⟩ := QuietFor.head hq
    have hii : s.input = i := by simp [State.input, hi]
    have hstep : step s = .next (s.tick i) := by
      have h := step_quiet_idle (s.busy_eq_false.1 hb) (hii ▸ hr) (hii ▸ hh)
      rwa [hii] at h
    have hqt : (s.tick i).QuietFor n :=
      QuietFor.drop 1 (by rwa [Nat.add_comm]) (by rw [State.tick_inputs, List.drop_one])
    have hcycle : s.cycle + 1 + n = s.cycle + (n + 1) := by omega
    rw [runSteps_succ n hstep, ih _ ((State.tick_busy ..).trans hb) hqt, hi]
    simp only [State.tick, hi, List.tail_cons, List.take_succ_cons, List.drop_succ_cons, hcycle]
    rfl

end Sys2Proof.Machine
end

section
/-! PROOFS. The lines of a running operation, whatever the device and the host do: a step does one micro-operation of the
rest of the sequence to the pins and to PHASE, or none. So what every micro-operation keeps holds throughout the run: ALE
and CLE are never both high (10_state.md R28), and the data field is released only in the data-in phase (R29). -/

namespace Sys2Proof.Machine

/-! ### What a step does to the rest of the sequence -/

/-- What a running operation still has to do: its sequence from SEQ_PC on, nothing when no operation runs. -/
def State.rest (s : State) : List MicroStep :=
  match s.cur with
  | none => []
  | some c => c.seq.drop s.seqPc

theorem rest_of_some {s : State} {c : CurOp} (hc : s.cur = some c) : s.rest = c.seq.drop s.seqPc := by
  simp only [State.rest, hc]

theorem rest_of_none {s : State} (hc : s.cur = none) : s.rest = [] := by
  simp only [State.rest, hc]

/-- A sequence past the delays of 0 it begins with, which take no cycle (41_timing.md R126). -/
def pastZeros (l : List MicroStep) : List MicroStep := l.drop (zeroRun l)

theorem drop_skipZero (seq : List MicroStep) (n : Nat) : seq.drop (skipZero seq n) = pastZeros (seq.drop n) := by
  rw [pastZeros, List.drop_drop, skipZero]

/-- What a step does to the pins, to PHASE and to the rest of the sequence, `s` before and `t` after. -/
inductive Moves (s t : State) : Prop where
  /-- The micro-operation holds on, or there is none left. -/
  | holds (hrest : t.rest = pastZeros s.rest) (hpins : t.pins = s.pins) (hphase : t.phase = s.phase)
  /-- The first micro-operation that takes a cycle ends. -/
  | ends (m : MicroStep) (r : List MicroStep) (hs : pastZeros s.rest = m :: r) (hrest : t.rest = pastZeros r)
      (hpins : t.pins = pinsAfter s.pins m.op) (hphase : t.phase = m.phase.getD s.phase)

theorem settle_phase (s : State) (c : CurOp) : (s.settle c).phase = s.phase := by
  rw [State.settle]; split <;> rfl

/-- Moving on leaves the pins and PHASE, and what is to do is the rest past its delays of 0. -/
theorem advance_moves {s : State} {c : CurOp} (n : Nat) (hc : s.cur = some c) :
    (s.advance c n).rest = pastZeros (c.seq.drop n) ∧ (s.advance c n).pins = s.pins ∧
      (s.advance c n).phase = s.phase ∧ ((s.advance c n).cur = none ∨ (s.advance c n).cur = some c) := by
  simp only [State.advance]
  split
  · refine ⟨?_, rfl, rfl, .inr hc⟩
    rw [rest_of_some (s := s.beginAt c.seq _) hc, State.beginAt_seqPc, drop_skipZero]
  · rename_i hlen
    obtain ⟨hpins, hnone⟩ := complete_pins s c.completion
    refine ⟨?_, hpins, complete_phase .., .inl hnone⟩
    rw [rest_of_none hnone, ← drop_skipZero, List.drop_eq_nil_of_le (by omega)]

/-- One cycle of the sequencer. -/
theorem seqCycle_moves {s t : State} {c : CurOp} {levels : Latch} (hc : s.cur = some c)
    (h : s.seqCycle levels = .next t) : Moves s t ∧ (t.cur = none ∨ t.cur = some c) := by
  obtain ⟨hpins, hcur, hpc⟩ := settle_pins s c
  have hphase := settle_phase s c
  have hsc : (s.settle c).cur = some c := hcur.trans hc
  have hleft : c.seq.drop (s.settle c).seqPc = pastZeros s.rest := by rw [hpc, drop_skipZero, rest_of_some hc]
  rcases seqCycle_cases hc h with ⟨hnone, rfl⟩ | ⟨m, hm, _, ⟨_, rfl⟩ | ⟨_, rfl⟩⟩
  · obtain ⟨hcp, hcn⟩ := complete_pins s c.completion
    refine ⟨.holds ?_ hcp (complete_phase ..), .inl hcn⟩
    rw [rest_of_none hcn, ← hleft, List.drop_eq_nil_of_le (List.getElem?_eq_none_iff.1 hnone)]
  · refine ⟨.holds ?_ hpins hphase, .inr hsc⟩
    rw [rest_of_some (s := { s.settle c with dlyCnt := (s.settle c).dlyCnt - 1 }) hsc, ← hleft]
  · obtain ⟨hrest, hap, haph, hac⟩ := advance_moves (s := effectOf m levels (s.settle c)) ((s.settle c).seqPc + 1)
      ((effectOf_cur ..).trans hsc)
    refine ⟨.ends m _ (hleft.symm.trans (drop_eq_cons hm)) hrest ?_ ?_, hac⟩
    · rw [hap, effectOf_pins, hpins]
    · rw [haph, effectOf_phase, hphase]

/-- One step without rst of a running operation; the configuration stays. -/
theorem step_moves {s t : State} {c : CurOp} (hc : s.cur = some c) (hr : s.input.rst = false) (h : step s = .next t) :
    Moves s t ∧ (t.cur = none ∨ t.cur = some c) ∧ t.cfg = s.cfg := by
  obtain ⟨s1, u, _, ⟨o, r, rfl⟩, hu, rfl⟩ := step_busy_inv hc hr h
  obtain ⟨hmoves, hcur⟩ := seqCycle_moves (s := { s with overrun := o, rData := r }) hc hu
  obtain ⟨⟨hcfg, _⟩, _⟩ := seqCycle_sameHost hu
  refine ⟨?_, hcur, hcfg⟩
  cases hmoves with
  | holds hrest hpins hphase => exact .holds hrest hpins hphase
  | ends m r hs hrest hpins hphase => exact .ends m r hs hrest hpins hphase

/-! ### What holds throughout a run -/

/-- A statement on the pins, PHASE and the micro-operations still to come that each micro-operation keeps. -/
def KeptBy (Q : Pins → Phase → List MicroStep → Prop) : Prop :=
  ∀ p ph m r, Q p ph (m :: r) → Q (pinsAfter p m.op) (m.phase.getD ph) r

theorem keptBy_pastZeros {Q : Pins → Phase → List MicroStep → Prop} (hQ : KeptBy Q) {p : Pins} {ph : Phase}
    {l : List MicroStep} (hd : ∀ m ∈ l, ∀ k, m.op = .dly k → m.phase = none) (h : Q p ph l) :
    Q p ph (pastZeros l) := by
  induction l with
  | nil => exact h
  | cons m r ih =>
    by_cases hz : m.op = .dly 0
    · have hnone := hd m List.mem_cons_self 0 hz
      have hnext := hQ p ph m r h
      rw [hz, hnone] at hnext
      simpa only [pastZeros, zeroRun, hz, if_true, List.drop_succ_cons] using
        ih (fun x hx => hd x (List.mem_cons_of_mem _ hx)) hnext
    · simpa only [pastZeros, zeroRun, hz, if_false, List.drop_zero] using h

theorem moves_keep {Q : Pins → Phase → List MicroStep → Prop} (hQ : KeptBy Q) {s t : State}
    (hd : ∀ m ∈ s.rest, ∀ k, m.op = .dly k → m.phase = none) (hm : Moves s t) (h : Q s.pins s.phase s.rest) :
    Q t.pins t.phase t.rest := by
  have hpast := keptBy_pastZeros hQ hd h
  cases hm with
  | holds hrest hpins hphase => rwa [hrest, hpins, hphase]
  | ends m r hs hrest hpins hphase =>
    rw [hs] at hpast
    rw [hrest, hpins, hphase]
    refine keptBy_pastZeros hQ (fun x hx => hd x ?_) (hQ _ _ _ _ hpast)
    have hmem : x ∈ pastZeros s.rest := hs ▸ List.mem_cons_of_mem _ hx
    exact List.mem_of_mem_drop hmem

/-- What every micro-operation keeps holds throughout a run without reset, up to the end of the operation. -/
theorem run_keeps {Q : Pins → Phase → List MicroStep → Prop} (hQ : KeptBy Q) {c : CurOp}
    (hd : ∀ m ∈ c.seq, ∀ k, m.op = .dly k → m.phase = none) (n : Nat) {s u : State} (hc : s.cur = some c)
    (hin : s.NoResetFor n) (hrun : runSteps n s = .next u)
    (hbusy : ∀ k, k < n → ∀ v, runSteps k s = .next v → v.busy = true) (h : Q s.pins s.phase s.rest) :
    Q u.pins u.phase u.rest ∧ u.cfg = s.cfg := by
  induction n generalizing s with
  | zero =>
    obtain rfl : s = u := Host.Outcome.next.inj hrun
    exact ⟨h, rfl⟩
  | succ n ih =>
    obtain ⟨i, rest, hi, hii, hr⟩ := NoResetFor.head hin
    obtain ⟨t, hs, ht⟩ := runSteps_succ_inv hrun
    obtain ⟨hmoves, hcur, hcfg⟩ := step_moves hc (hii ▸ hr) hs
    have hkept : Q t.pins t.phase t.rest := by
      refine moves_keep hQ (fun m hm => hd m ?_) hmoves h
      rw [rest_of_some hc] at hm
      exact List.mem_of_mem_drop hm
    have hbusyT : ∀ k, k < n → ∀ v, runSteps k t = .next v → v.busy = true := fun k hk v hv =>
      hbusy (k + 1) (by omega) v (by rwa [runSteps_succ k hs])
    rcases hcur with hnone | hsome
    · cases n with
      | zero =>
        obtain rfl : t = u := Host.Outcome.next.inj ht
        exact ⟨hkept, hcfg⟩
      | succ n =>
        have hb := hbusyT 0 (by omega) t rfl
        rw [t.busy_eq_false.2 hnone] at hb
        cases hb
    · obtain ⟨hinputs, _⟩ := step_shifts (hii ▸ hr) hs
      obtain ⟨hu, hucfg⟩ := ih hsome (NoResetFor.tail hin hinputs) ht hbusyT hkept
      exact ⟨hu, hucfg.trans hcfg⟩

/-- The same for a run that starts with an operation: accepted, it runs its sequence; refused, nothing runs. -/
theorem exec_run_keeps {Q : Pins → Phase → List MicroStep → Prop} (hQ : KeptBy Q) {i : Instr} {s t u : State} {n : Nat}
    (hb : s.busy = false) (he : exec i s = .next t) (hin : t.NoResetFor n) (hrun : runSteps n t = .next u)
    (hbusy : ∀ k, k < n → ∀ v, runSteps k t = .next v → v.busy = true) (hstart : Q s.pins s.phase (expand i s))
    (hnone : Q s.pins s.phase []) : Q u.pins u.phase u.rest ∧ u.cfg = s.cfg := by
  rcases exec_cases i s with ⟨hb', _⟩ | ⟨_, _, hacc⟩ | ⟨_, _, href⟩
  · rw [hb] at hb'; cases hb'
  · obtain rfl : _ = t := Host.Outcome.next.inj (hacc.symm.trans he)
    exact run_keeps (s := s.accept (runningOp i) (expand i s) (completionOf i)) hQ (expand_delays i s) n rfl hin hrun
      hbusy hstart
  · obtain rfl : _ = t := Host.Outcome.next.inj (href.symm.trans he)
    cases n with
    | zero =>
      obtain rfl : _ = u := Host.Outcome.next.inj hrun
      refine ⟨?_, rfl⟩
      rw [rest_of_none (s := s.refuse .badArg) (s.busy_eq_false.1 hb)]
      exact hnone
    | succ n =>
      have hb' : (s.refuse .badArg).busy = true := hbusy 0 (by omega) _ rfl
      rw [show (s.refuse .badArg).busy = s.busy from rfl, hb] at hb'
      cases hb'

/-! ### ALE and CLE -/

/-- A micro-operation after which ALE and CLE are apart if they were so before. -/
def KeepsApart (m : MicroStep) : Prop := ∀ p : Pins, LatchesApart p.out → LatchesApart (pinsAfter p m.op).out

theorem keepsApart_of_no_lines {m : MicroStep} (h : ∀ p, (pinsAfter p m.op).out = p.out) : KeepsApart m :=
  fun p hp => by rwa [h]

/-- A masked write keeps ALE and CLE apart if it writes neither, or one of them as 0. -/
theorem keepsApart_lines {mask val : Latch} (q : Option Phase)
    (h : (mask.getLsbD 10 = false ∧ mask.getLsbD 11 = false) ∨ (mask.getLsbD 10 = true ∧ val.getLsbD 10 = false) ∨
      (mask.getLsbD 11 = true ∧ val.getLsbD 11 = false)) : KeepsApart ⟨.lines mask val, q⟩ := by
  intro p hp
  rw [LatchesApart, pinsAfter, muxLines_getLsbD, muxLines_getLsbD]
  rcases h with ⟨h10, h11⟩ | ⟨h10, hv⟩ | ⟨h11, hv⟩
  · rw [h10, h11]; exact hp
  · rw [h10, hv]; exact fun ⟨hale, _⟩ => Bool.false_ne_true hale
  · rw [h11, hv]; exact fun ⟨_, hcle⟩ => Bool.false_ne_true hcle

/-- At idle ALE and CLE are low (10_state.md R27). -/
theorem idleWord_latches (c : Config) : (idleWord c).getLsbD 10 = false := by
  simp [idleWord]
  cases c.wpIdle <;> simp

/-- Every micro-operation of every operation but SETLINE keeps ALE and CLE apart (42_phase_engine.md R141). -/
theorem expand_keepsApart {i : Instr} (s : State) (h : ∀ l v, i ≠ .setline l v) : ∀ m ∈ expand i s, KeepsApart m := by
  have hstill : ∀ m : MicroStep, (∀ p, (pinsAfter p m.op).out = p.out) → KeepsApart m := fun _ => keepsApart_of_no_lines
  have hneither : ∀ mask val q, mask.getLsbD 10 = false → mask.getLsbD 11 = false → KeepsApart ⟨.lines mask val, q⟩ :=
    fun _ _ q h10 h11 => keepsApart_lines q (.inl ⟨h10, h11⟩)
  have hale : ∀ mask val q, mask.getLsbD 10 = true → val.getLsbD 10 = false → KeepsApart ⟨.lines mask val, q⟩ :=
    fun _ _ q hm hv => keepsApart_lines q (.inr (.inl ⟨hm, hv⟩))
  have hcle : ∀ mask val q, mask.getLsbD 11 = true → val.getLsbD 11 = false → KeepsApart ⟨.lines mask val, q⟩ :=
    fun _ _ q hm hv => keepsApart_lines q (.inr (.inr ⟨hm, hv⟩))
  exact all_expand KeepsApart i s (hsetline := fun l v he => absurd he (h l v))
    (hinit := fun _ => ⟨hale _ _ _ (by decide) (idleWord_latches _), hstill _ fun _ => rfl⟩)
    (hrdl := fun _ _ => hstill _ fun _ => rfl) (hsetdir := fun _ _ => hstill _ fun _ => rfl)
    (hperase := fun _ => hstill _ fun _ => rfl) (hdly := fun _ => hstill _ fun _ => rfl)
    (hdata := fun _ => hneither _ _ _ (by decide) (by decide)) (hcmd := hale _ _ _ (by decide) (by decide))
    (hadr := hcle _ _ _ (by decide) (by decide)) (hdout := hale _ _ _ (by decide) (by decide))
    (hdin := ⟨hstill _ fun _ => rfl, hale _ _ _ (by decide) (by decide), hstill _ fun _ => rfl⟩)
    (hwe := ⟨hneither _ _ _ (by decide) (by decide), hneither _ _ _ (by decide) (by decide)⟩)
    (hre := ⟨hneither _ _ _ (by decide) (by decide), hneither _ _ _ (by decide) (by decide)⟩)
    (hle := ⟨hcle _ _ _ (by decide) (by decide), hale _ _ _ (by decide) (by decide)⟩)
    (hidle := hale _ _ _ (by decide) (by simp)) (hpoll := hstill _ fun _ => rfl)
    (hcap := hstill _ fun _ => rfl) (hrdd := hstill _ fun _ => rfl)

/-- Settles O53: no micro-operation of the operation brings ALE and CLE together. -/
theorem latchesStayApart : Obligations.LatchesStayApart := by
  unfold Obligations.LatchesStayApart
  intro i s t n u hi hb hapart he hin hrun hbusy
  have hkept : KeptBy fun p _ l => LatchesApart p.out ∧ ∀ m ∈ l, KeepsApart m := fun p _ m r ⟨hp, hl⟩ =>
    ⟨hl m List.mem_cons_self p hp, fun x hx => hl x (List.mem_cons_of_mem _ hx)⟩
  obtain ⟨⟨hout, _⟩, _⟩ := exec_run_keeps hkept hb he hin hrun hbusy ⟨hapart, expand_keepsApart s hi⟩
    ⟨hapart, fun _ hm => absurd hm List.not_mem_nil⟩
  exact hout

end Sys2Proof.Machine
end

section
/-! PROOFS. The direction of the data field in a run that starts with it driven (10_state.md R29, 42_phase_engine.md R139,
R141): it is released exactly in the data-in phase, but for the one cycle of RESTORE_IDLE at the end of that phase
(log 12). -/

namespace Sys2Proof.Machine

/-! ### The operations as sequences of pieces -/

/-- What holds of every phase, wait and single micro-operation, and of two sequences one after the other if it holds of
both, holds of the sequence of every operation. -/
theorem expand_of_pieces {Q : List MicroStep → Prop} (i : Instr) (s : State) (hnil : Q [])
    (happ : ∀ {a b}, Q a → Q b → Q (a ++ b)) (hcmd : ∀ b, Q (sendCommand s.cfg b)) (hadr : ∀ a, Q (sendAddress s.cfg a))
    (hdata : ∀ d, Q (sendData s.cfg d)) (hrecv : ∀ n, Q (receiveData s.cfg n)) (hpoll : Q waitReady)
    (hdly : ∀ k, Q [plainStep (.dly k)]) (hlines : ∀ mask val, Q [plainStep (.lines mask val)])
    (hdrive : Q [plainStep (.dirAll 0x3FFF#14)]) (hrdl : ∀ l, Q [plainStep (.rdl l)]) (hrdd : Q [plainStep .rdd])
    (hsetdir : ∀ d, i = .setdir d → Q [plainStep (.dirD d)]) : Q (expand i s) := by
  have hwait : ∀ e, Q (wait s.cfg e) := fun e => hdly _
  have hflatten : ∀ l : List (List MicroStep), (∀ x ∈ l, Q x) → Q l.flatten := by
    intro l hl
    induction l with
    | nil => exact hnil
    | cons a r ih => exact happ (hl a List.mem_cons_self) (ih fun x hx => hl x (List.mem_cons_of_mem _ hx))
  have hreset : Q (deviceReset s.cfg) := happ (happ (hcmd _) (hwait _)) hpoll
  have hstatus : Q (readStatus s.cfg) := happ (happ (hcmd _) (hwait _)) (hrecv _)
  have hid : ∀ a n, Q (readId s.cfg a n) := fun _ _ =>
    happ (happ (happ (happ hpoll (hcmd _)) (hadr _)) (hwait _)) (hrecv _)
  have hpage : ∀ a, Q (readPage s.cfg a) := fun _ =>
    happ (happ (happ (happ (happ hpoll (hcmd _)) (hadr _)) (hcmd _)) (hwait _)) hpoll
  have hprog : ∀ a d b, Q (programBody s.cfg a d b) := fun _ _ _ =>
    happ (happ (happ (happ (happ (happ (hcmd _) (hadr _)) (hwait _)) (hdata _)) (hcmd _)) (hwait _)) hpoll
  have hopen : ∀ a, Q (eraseOpening s.cfg a) := fun _ => happ (happ (happ hpoll (hcmd _)) (hadr _)) (hcmd _)
  have hnext : Q (cacheNext s.cfg) := happ (happ (happ (hcmd _) (hwait _)) hpoll) (hrecv _)
  cases i with
  | setline l v => exact hlines _ _
  | readline l => exact hrdl l
  | wrdata b => exact hlines _ _
  | rddata => exact hrdd
  | setdir d => exact hsetdir d rfl
  | wait sel =>
    simp only [expand, runningOp, waitSeq]
    cases selectDelay sel with
    | none => exact hnil
    | some e => exact hwait e
  | sendcmd b => exact hcmd b
  | sendaddr n => exact hadr _
  | senddata => exact hdata _
  | recvdata => exact hrecv _
  | waitrdy => exact hpoll
  | init => exact happ (happ (happ (happ (hlines _ _) hdrive) (hwait _)) hpoll) hreset
  | reset => exact hreset
  | resetlun => exact happ (happ (happ (hcmd _) (hadr _)) (hwait _)) hpoll
  | rdmfid => exact hid _ _
  | rdonfiid => exact hid _ _
  | rdjedecid => exact hid _ _
  | rduid => exact happ (happ (happ (happ (happ (happ (hcmd _) (hadr _)) (hwait _)) (hwait _)) (hwait _)) hpoll) (hrecv _)
  | rdstatus => exact hstatus
  | rdstatuse => exact happ (happ (happ (hcmd _) (hadr _)) (hwait _)) (hrecv _)
  | rdpage => exact hpage _
  | chgrdcol => exact happ (happ (happ (happ (hwait _) (hcmd _)) (hadr _)) (hcmd _)) (hwait _)
  | chgwrcol => exact happ (happ (happ (hwait _) (hcmd _)) (hadr _)) (hwait _)
  | chgrow => exact happ (happ (happ (hwait _) (hcmd _)) (hadr _)) (hwait _)
  | progpage => exact happ (hprog _ _ _) hstatus
  | progcache =>
    refine happ (happ (hflatten _ fun x hx => ?_) (hprog _ _ _)) hstatus
    obtain ⟨p, _, rfl⟩ := List.mem_map.1 hx
    exact hprog _ _ _
  | erase => exact happ (happ (happ (hopen _) (hwait _)) hpoll) hstatus
  | perase => exact happ (happ (hopen _) (hdly _)) hreset
  | rdcacheseq =>
    refine happ (happ (happ (hpage _) (hflatten _ fun x hx => ?_)) (hcmd _)) (hrecv _)
    rw [List.eq_of_mem_replicate hx]
    exact hnext
  | _ => exact hcmd _

/-! ### The data field along a sequence -/

/-- DIR[7:0]. -/
def Pins.field (p : Pins) : Byte := p.dir.setWidth 8

/-- The data field before micro-operation `m`: driven outside the data-in phase; in it released, or driven again where
RESTORE_IDLE, which ends the phase, is due. -/
def FieldNow (c : Config) (p : Pins) (ph : Phase) (m : MicroStep) : Prop :=
  (ph ≠ .dataIn ∧ p.field = 0xFF#8) ∨ (ph = .dataIn ∧ p.field = 0x00#8) ∨
    (ph = .dataIn ∧ p.field = 0xFF#8 ∧ m = restoreIdle c)

/-- The same before every micro-operation of a sequence, and at its end PHASE Idle with the field driven. -/
def FieldOk (c : Config) (p : Pins) (ph : Phase) : List MicroStep → Prop
  | [] => ph = .idle ∧ p.field = 0xFF#8
  | m :: r => FieldNow c p ph m ∧ FieldOk c (pinsAfter p m.op) (m.phase.getD ph) r

/-- A sequence that may be run from PHASE Idle with the field driven. -/
def FieldPiece (c : Config) (l : List MicroStep) : Prop := ∀ p : Pins, p.field = 0xFF#8 → FieldOk c p .idle l

/-- A micro-operation that moves neither PHASE nor DIR. -/
def StillStep (m : MicroStep) : Prop := m.phase = none ∧ ∀ p, (pinsAfter p m.op).dir = p.dir

section
variable {c : Config}

theorem fieldOk_append {p : Pins} {ph : Phase} {a b : List MicroStep} (ha : FieldOk c p ph a) (hb : FieldPiece c b) :
    FieldOk c p ph (a ++ b) := by
  induction a generalizing p ph with
  | nil =>
    obtain ⟨rfl, hp⟩ := ha
    exact hb p hp
  | cons m r ih =>
    obtain ⟨hnow, hr⟩ := ha
    exact ⟨hnow, ih hr⟩

/-- Micro-operations that move neither PHASE nor DIR may stand wherever the field is as its phase asks. -/
theorem fieldOk_still {p : Pins} {ph : Phase} {a b : List MicroStep} (ha : ∀ m ∈ a, StillStep m)
    (hp : (ph ≠ .dataIn ∧ p.field = 0xFF#8) ∨ (ph = .dataIn ∧ p.field = 0x00#8))
    (hb : ∀ q : Pins, q.field = p.field → FieldOk c q ph b) : FieldOk c p ph (a ++ b) := by
  induction a generalizing p with
  | nil => exact hb p rfl
  | cons m r ih =>
    obtain ⟨hph, hdir⟩ := ha m List.mem_cons_self
    have hfield : (pinsAfter p m.op).field = p.field := congrArg (BitVec.setWidth 8) (hdir p)
    refine ⟨hp.imp_right .inl, ?_⟩
    rw [hph]
    exact ih (fun x hx => ha x (List.mem_cons_of_mem _ hx)) (by rwa [hfield]) fun q hq => hb q (hq.trans hfield)

/-- A single micro-operation that leaves the field driven. -/
theorem fieldPiece_single {op : MicroOp} (h : ∀ p : Pins, p.field = 0xFF#8 → (pinsAfter p op).field = 0xFF#8) :
    FieldPiece c [plainStep op] :=
  fun p hp => ⟨.inl ⟨nofun, hp⟩, rfl, h p hp⟩

theorem fieldOk_restoreIdle {p : Pins} {ph : Phase} (hp : p.field = 0xFF#8) : FieldOk c p ph [restoreIdle c] := by
  refine ⟨?_, rfl, hp⟩
  by_cases h : ph = .dataIn
  · exact .inr (.inr ⟨h, hp, rfl⟩)
  · exact .inl ⟨h, hp⟩

/-- A phase with the field driven throughout: its first micro-operation, others that move only lines, RESTORE_IDLE. -/
theorem fieldPiece_phase (mask val : Latch) {q : Phase} (hq : q ≠ .dataIn) {l : List MicroStep}
    (hl : ∀ m ∈ l, StillStep m) : FieldPiece c (phaseStep (.lines mask val) q :: (l ++ [restoreIdle c])) := by
  intro p hp
  refine ⟨.inl ⟨nofun, hp⟩, fieldOk_still hl (.inl ⟨hq, hp⟩) fun r hr => ?_⟩
  exact fieldOk_restoreIdle (hr.trans hp)

theorem still_writeByte (b : Byte) : ∀ m ∈ writeByte c b, StillStep m := by
  rw [all_writeByte]
  exact ⟨⟨rfl, fun _ => rfl⟩, ⟨rfl, fun _ => rfl⟩, ⟨rfl, fun _ => rfl⟩, ⟨rfl, fun _ => rfl⟩, rfl, fun _ => rfl⟩

theorem still_writeBytes (a : List Byte) : ∀ m ∈ a.flatMap (writeByte c), StillStep m := by
  rw [all_flatMap]
  exact fun b _ => still_writeByte b

theorem still_readBytes (n : Nat) : ∀ m ∈ (List.replicate n (readByte c)).flatten, StillStep m := by
  rw [all_replicate, all_readByte]
  exact .inr ⟨⟨rfl, fun _ => rfl⟩, ⟨rfl, fun _ => rfl⟩, ⟨rfl, fun _ => rfl⟩, ⟨rfl, fun _ => rfl⟩, rfl, fun _ => rfl⟩

theorem still_lines (mask val : Latch) : StillStep (plainStep (.lines mask val)) := ⟨rfl, fun _ => rfl⟩

theorem still_dly (k : Nat) : StillStep (plainStep (.dly k)) := ⟨rfl, fun _ => rfl⟩

theorem still_poll : StillStep (plainStep .poll) := ⟨rfl, fun _ => rfl⟩

theorem fieldPiece_sendCommand (b : Byte) : FieldPiece c (sendCommand c b) := by
  refine fieldPiece_phase _ _ (by decide) (l := [_, _, _, _, _]) ?_
  simp only [List.forall_mem_cons]
  exact ⟨still_lines .., still_dly _, still_lines .., still_dly _, still_lines .., nofun⟩

theorem fieldPiece_sendAddress (a : List Byte) : FieldPiece c (sendAddress c a) := by
  have hseq : sendAddress c a = phaseStep (.lines (mALE ||| mCLE ||| mCE) mALE) .address ::
      (a.flatMap (writeByte c) ++ [plainStep (.lines mALE 0#14)] ++ [restoreIdle c]) := by
    simp [sendAddress]
  rw [hseq]
  refine fieldPiece_phase _ _ (by decide) ?_
  rw [all_append, all_single]
  exact ⟨still_writeBytes a, still_lines ..⟩

theorem fieldPiece_sendData (d : List Byte) : FieldPiece c (sendData c d) := by
  have hseq : sendData c d = phaseStep (.lines (mCLE ||| mALE ||| mCE) 0#14) .dataOut ::
      (d.flatMap (writeByte c) ++ [restoreIdle c]) := by
    simp [sendData]
  rw [hseq]
  exact fieldPiece_phase _ _ (by decide) (still_writeBytes d)

theorem dirWithData_output_field (d : Lines15) : (dirWithData .output d).setWidth 8 = 0xFF#8 := by
  simp only [dirWithData, BitVec.setWidth_or]
  exact BitVec.or_allOnes

theorem dirWithData_input_field (d : Lines15) : (dirWithData .input d).setWidth 8 = 0x00#8 := by
  simp only [dirWithData, BitVec.setWidth_and]
  exact BitVec.and_zero

theorem dirWithAll_field : (dirWithAll 0x3FFF#14).setWidth 8 = 0xFF#8 := by decide

/-- receiveData releases the field with its first micro-operation and drives it again with the last but one. -/
theorem fieldPiece_receiveData (n : Nat) : FieldPiece c (receiveData c n) := by
  have hseq : receiveData c n = phaseStep (.dirD .input) .dataIn ::
      ([plainStep .poll, plainStep (.lines (mCLE ||| mALE ||| mCE) 0#14)] ++ (List.replicate n (readByte c)).flatten ++
        [plainStep (.dirD .output), restoreIdle c]) := by
    simp [receiveData]
  rw [hseq]
  intro p hp
  have hin := dirWithData_input_field p.dir
  refine ⟨.inl ⟨nofun, hp⟩, fieldOk_still ?_ (.inr ⟨rfl, hin⟩) fun r hr => ?_⟩
  · simp only [List.forall_mem_append, List.forall_mem_cons]
    exact ⟨⟨still_poll, still_lines .., nofun⟩, still_readBytes n⟩
  · exact ⟨.inr (.inl ⟨rfl, hr.trans hin⟩), fieldOk_restoreIdle (dirWithData_output_field r.dir)⟩

end

/-- Every operation but SETDIR Input may be run from PHASE Idle with the field driven. -/
theorem fieldPiece_expand {i : Instr} (s : State) (h : i ≠ .setdir .input) : FieldPiece s.cfg (expand i s) :=
  expand_of_pieces i s (hnil := fun _ hp => ⟨rfl, hp⟩) (happ := fun ha hb p hp => fieldOk_append (ha p hp) hb)
    (hcmd := fieldPiece_sendCommand) (hadr := fieldPiece_sendAddress) (hdata := fieldPiece_sendData)
    (hrecv := fieldPiece_receiveData) (hpoll := fieldPiece_single fun _ => id)
    (hdly := fun _ => fieldPiece_single fun _ => id) (hlines := fun _ _ => fieldPiece_single fun _ => id)
    (hdrive := fieldPiece_single fun _ _ => dirWithAll_field) (hrdl := fun _ => fieldPiece_single fun _ => id)
    (hrdd := fieldPiece_single fun _ => id)
    (hsetdir := fun d hd => by
      cases d with
      | input => exact absurd hd h
      | output => exact fieldPiece_single fun p _ => dirWithData_output_field p.dir)

/-! ### The data field in a run -/

/-- The field in a state whose rest of a sequence is as `FieldOk` says. -/
theorem fieldOk_state {u : State} (h : FieldOk u.cfg u.pins u.phase u.rest) :
    (u.dir.setWidth 8 = 0xFF#8 ∨ (u.busy = true ∧ u.phase = .dataIn ∧ u.dir.setWidth 8 = 0x00#8)) ∧
      (u.phase = .dataIn → u.dir.setWidth 8 = 0x00#8 ∨
        ∃ c, u.cur = some c ∧ c.seq[u.seqPc]? = some (restoreIdle u.cfg)) := by
  cases hrest : u.rest with
  | nil =>
    rw [hrest] at h
    obtain ⟨hidle, hfield⟩ := h
    exact ⟨.inl hfield, fun hin => by rw [hidle] at hin; cases hin⟩
  | cons m r =>
    obtain ⟨c, hc⟩ : ∃ c, u.cur = some c := by
      cases hcur : u.cur with
      | none => rw [rest_of_none hcur] at hrest; cases hrest
      | some c => exact ⟨c, rfl⟩
    have hbusy : u.busy = true := by rw [State.busy, hc]; rfl
    have hm : c.seq[u.seqPc]? = some m := getElem?_of_drop ((rest_of_some hc).symm.trans hrest)
    rw [hrest] at h
    obtain ⟨⟨hph, hfield⟩ | ⟨hph, hfield⟩ | ⟨hph, hfield, rfl⟩, _⟩ := h
    · exact ⟨.inl hfield, fun hin => absurd hin hph⟩
    · exact ⟨.inr ⟨hbusy, hph, hfield⟩, fun _ => .inl hfield⟩
    · exact ⟨.inl hfield, fun _ => .inr ⟨c, hc, hm⟩⟩

/-- Settles O60: the field is as `FieldOk` says along the rest of the sequence, from the start to the end of the run. -/
theorem dataDirection : Obligations.DataDirection := by
  unfold Obligations.DataDirection
  intro i s t n u hi hb hidle hfield he hin hrun hbusy
  have hkept : KeptBy (FieldOk s.cfg) := fun _ _ _ _ ⟨_, hr⟩ => hr
  have hstart : FieldOk s.cfg s.pins s.phase (expand i s) := by
    rw [hidle]
    exact fieldPiece_expand s hi s.pins hfield
  obtain ⟨hu, hcfg⟩ := exec_run_keeps hkept hb he hin hrun hbusy hstart ⟨hidle, hfield⟩
  rw [← hcfg] at hu
  exact fieldOk_state hu

end Sys2Proof.Machine
end

section
/-! PROOFS. The order of the address bytes on the wire (20_memory.md R64): the address cycles are the bytes of ABUF in its
order (30_encoding.md R91), and an address form stands in ABUF least significant byte first. -/

namespace Sys2Proof.Machine

section
variable (c : Config) {p : Pins}

/-- changeReadColumn shows its address between 0x05 and 0xE0 (46_array_ops.md R191). -/
theorem wire_changeReadColumnSeq (a : List Byte) (hd : p.dir = dirOut) :
    wire p (changeReadColumnSeq c a) = [.command 0x05#8] ++ addressCycles a ++ [.command 0xE0#8] := by
  simp [changeReadColumnSeq, wire_append, wire_sendCommand, pinsEnd_sendCommand, wire_sendAddress, hd]

/-- resetLUN shows 0xFA and its address (44_lifecycle.md R167). -/
theorem wire_resetLunSeq (a : List Byte) (hd : p.dir = dirOut) :
    wire p (resetLunSeq c a) = [.command 0xFA#8] ++ addressCycles a := by
  simp [resetLunSeq, wire_append, wire_sendCommand, pinsEnd_sendCommand, wire_sendAddress, hd]

end

/-- An operation that needs as many address bytes as ABUF holds takes all of them (30_encoding.md R91). -/
theorem addressBytes_of_abuf {s : State} {a : List Byte} (h : s.abuf = a) : addressBytes s a.length = a := by
  rw [addressBytes, h, List.take_length]

theorem aLen_of_abuf {s : State} {a : List Byte} (h : s.abuf = a) : a.length ≤ s.aLen := by
  rw [State.aLen, h]

/-- Settles O37: each operation shows the bytes of ABUF between its command cycles, and ABUF holds the address form. -/
theorem addressOrder : Obligations.AddressOrder := by
  unfold Obligations.AddressOrder
  intro s c r hb hdir
  have hd : s.pins.dir = dirOut := hdir
  refine ⟨fun ha => ?_, fun ha => ?_, fun ha => ?_⟩
  · have hseq : expand .rdpage s = readPage s.cfg (address5 c r) :=
      congrArg (readPage s.cfg) (addressBytes_of_abuf ha)
    obtain ⟨hwire, _⟩ := wire_readPage s.cfg (address5 c r) hd
    exact shows_of hb (aLen_of_abuf ha) ((congrArg (wire s.pins) hseq).trans hwire)
  · have hseq : expand .chgrdcol s = changeReadColumnSeq s.cfg (col2 c) :=
      congrArg (changeReadColumnSeq s.cfg) (addressBytes_of_abuf ha)
    have hwire := wire_changeReadColumnSeq s.cfg (col2 c) hd
    exact shows_of hb (aLen_of_abuf ha) ((congrArg (wire s.pins) hseq).trans hwire)
  · have hseq : expand .resetlun s = resetLunSeq s.cfg (row3 r) :=
      congrArg (resetLunSeq s.cfg) (addressBytes_of_abuf ha)
    have hwire := wire_resetLunSeq s.cfg (row3 r) hd
    exact shows_of hb (aLen_of_abuf ha) ((congrArg (wire s.pins) hseq).trans hwire)

end Sys2Proof.Machine
end

section
/-! PROOFS. The host port (20_memory.md R61, R62): the register map as a list, so that what a read returns and what a write
does are the entries of a list too; and the step in which the host reads or writes a register, with and without a running
operation. -/

namespace Sys2Proof.Machine

/-! ### The register map -/

/-- The registers of the words 0 to 12, in their order (20_memory.md R61). -/
def hostRegs : List HostReg :=
  [.opw, .stat, .res, .aPush, .aClr, .txPush, .txClr, .len, .pages, .rxPop, .rxLen, .busr, .dirr]

theorem hostReg_eq_getD (a : BitVec 4) : hostReg a = hostRegs.getD a.toNat .reserved := by
  revert a; decide

theorem hostReg_rxPop {a : BitVec 4} : hostReg a = .rxPop ↔ a = 9#4 := by
  revert a; decide

/-- What a function of the register answers at a word, as the list of its answers. -/
theorem apply_hostReg {α : Type} (f : HostReg → α) (a : BitVec 4) :
    f (hostReg a) = (hostRegs.map f).getD a.toNat (f .reserved) := by
  rw [hostReg_eq_getD, List.getD_map]

/-! ### A host read -/

/-- The bits of PIN, RB_S the last (10_state.md R25). -/
theorem pin_getLsbD (s : State) (levels : Latch) {i : Nat} (hi : i < 15) :
    (s.pin levels).getLsbD i = if i = 14 then s.rbS
      else if s.dir.getLsbD i then s.busOut.getLsbD i else levels.getLsbD i := by
  show (BitVec.ofBool s.rbS ++ _ : BitVec (1 + 14)).getLsbD i = _
  rw [BitVec.getLsbD_append]
  by_cases h : i < 14
  · have hne : i ≠ 14 := Nat.ne_of_lt h
    rw [if_pos h, if_neg hne]
    cases hd : s.dir.getLsbD i <;>
      simp only [BitVec.getLsbD_or, BitVec.getLsbD_and, BitVec.getLsbD_not, BitVec.getLsbD_setWidth, hd, h] <;> simp
  · obtain rfl : i = 14 := by omega
    simp

/-- PIN is the word with these bits. -/
theorem eq_pin {s : State} {levels : Latch} {p : Lines15}
    (hp : ∀ i, i < 15 → p.getLsbD i = if i = 14 then s.rbSync.getLastD false
      else if s.dir.getLsbD i then s.busOut.getLsbD i else levels.getLsbD i) : s.pin levels = p :=
  BitVec.eq_of_getLsbD_eq fun i hi => (pin_getLsbD s levels hi).trans (hp i hi).symm

theorem canPop_busy {s : State} (h : s.busy = true) : s.canPop = false := by
  simp [State.canPop, h]

theorem canPop_idle {s : State} (h : s.busy = false) : s.canPop = true ↔ s.rxRd < s.rxbuf.length := by
  rw [State.canPop, h, Bool.not_false, Bool.true_and, decide_eq_true_iff, State.rxLen]

/-- A host read by word (20_memory.md R61): its value, and RXRD past the byte that RXPOP gave. -/
theorem hostRead_by_word (s : State) (a : BitVec 4) (levels : Latch) :
    s.hostRead (hostReg a) levels = { s with
      rData := [s.opw, s.stat, s.res.setWidth 32, BitVec.ofNat 32 s.abuf.length, 0#32, BitVec.ofNat 32 s.txbuf.length,
        0#32, s.len, s.pages.setWidth 32, if s.canPop then (s.rxbuf.getD s.rxRd 0#8).setWidth 32 else 0#32,
        BitVec.ofNat 32 s.rxbuf.length, (s.pin levels).setWidth 32, s.dir.setWidth 32].getD a.toNat 0#32
      rxRd := if a = 9#4 ∧ s.canPop then s.rxRd + 1 else s.rxRd } := by
  have hvalue := apply_hostReg (fun r => s.hostValue r levels) a
  simp only [State.hostRead, hostReg_rxPop, hvalue]
  rfl

/-! ### A host write -/

/-- The default may stand at the end of a list too. -/
theorem getD_append_replicate {α : Type} (l : List α) (k n : Nat) (d : α) :
    (l ++ List.replicate k d).getD n d = l.getD n d := by
  by_cases h : n < l.length
  · exact List.getD_append l _ d n h
  · rw [List.getD_append_right l _ d n (by omega), List.getD_eq_default l d (by omega)]
    by_cases hk : n - l.length < k
    · exact List.getD_replicate d hk
    · exact List.getD_eq_default _ d (by rw [List.length_replicate]; omega)

theorem hostWrite_stat (s : State) (w : Word) :
    s.hostWrite .stat w = { s with overrun := if w.getLsbD 5 = true then false else s.overrun } := by
  have hclear : (s.overrun && !w.getLsbD 5) = if w.getLsbD 5 = true then false else s.overrun := by
    cases w.getLsbD 5
    · exact Bool.and_true _
    · exact Bool.and_false _
  rw [← hclear]; rfl

theorem hostWrite_aPush {s : State} (hb : s.busy = false) (w : Word) :
    s.hostWrite .aPush w =
      if s.abuf.length < s.cfg.abufDepth then { s with abuf := s.abuf ++ [w.setWidth 8] } else s := by
  simp only [State.hostWrite, hb, State.aLen, Bool.false_eq_true, false_or, ← not_lt, ite_not]

theorem hostWrite_txPush {s : State} (hb : s.busy = false) (w : Word) :
    s.hostWrite .txPush w =
      if s.txbuf.length < s.cfg.txDepth then { s with txbuf := s.txbuf ++ [w.setWidth 8] } else s := by
  simp only [State.hostWrite, hb, State.txLen, Bool.false_eq_true, false_or, ← not_lt, ite_not]

/-- A host write by word while no operation runs, the write of OPW apart (20_memory.md R61): the words past RXLEN have no
write. -/
theorem hostWrite_idle {s : State} (hb : s.busy = false) (a : BitVec 4) (w : Word) :
    s.hostWrite (hostReg a) w = [s,
      { s with overrun := if w.getLsbD 5 = true then false else s.overrun },
      s,
      if s.abuf.length < s.cfg.abufDepth then { s with abuf := s.abuf ++ [w.setWidth 8] } else s,
      { s with abuf := [] },
      if s.txbuf.length < s.cfg.txDepth then { s with txbuf := s.txbuf ++ [w.setWidth 8] } else s,
      { s with txbuf := [] },
      { s with len := w },
      { s with pages := w.setWidth 16 },
      s,
      { s with rxRd := 0 }].getD a.toNat s := by
  refine (apply_hostReg (fun r => s.hostWrite r w) a).trans (.trans ?_ (getD_append_replicate _ 2 _ _))
  simp only [hostRegs, List.map_cons, List.map_nil, hostWrite_stat, hostWrite_aPush hb, hostWrite_txPush hb]
  simp only [State.hostWrite, hb, Bool.false_eq_true, if_false]
  rfl

/-- While an operation runs only the OVERRUN clear of a write has an effect (20_memory.md R62). -/
theorem hostWrite_busy {s : State} (hb : s.busy = true) (a : BitVec 4) (w : Word) :
    s.hostWrite (hostReg a) w = { s with overrun := if a = 1#4 ∧ w.getLsbD 5 = true then false else s.overrun } := by
  by_cases h1 : a = 1#4
  · rw [hostReg_stat.2 h1, hostWrite_stat]
    simp only [h1, true_and]
  · have hs : hostReg a ≠ .stat := fun h => h1 (hostReg_stat.1 h)
    cases hreg : hostReg a with
    | stat => exact absurd hreg hs
    | _ => simp [State.hostWrite, hb, h1]

/-! ### The step of an access -/

theorem hostCycle_read {s : State} {i : Input} {a : BitVec 4} (h : i.host = .read a) :
    hostCycle s i = .next (s.hostRead (hostReg a) i.levels) := by
  rw [hostCycle, h]; rfl

theorem hostCycle_write {s : State} {i : Input} {a : BitVec 4} {w : Word} (h : i.host = .write a w) (ha : a ≠ 0#4) :
    hostCycle s i = .next (s.hostWrite (hostReg a) w) := by
  have hopw : opwWrite i.host = none := opwWrite_none.2 fun v hv => ha (HostAccess.write.inj (h.symm.trans hv)).1
  rw [hostCycle, hopw, h]; rfl

/-- With no operation running a step is the host's access and the edge. -/
theorem step_idle_of_hostCycle {s t : State} (hb : s.busy = false) (hr : s.input.rst = false)
    (h : hostCycle s s.input = .next t) : step s = .next (t.tick s.input) := by
  rw [step_idle (s.busy_eq_false.1 hb) hr, h]; rfl

/-- With an operation running a step is the host's access, the operation's cycle and the edge. -/
theorem step_busy_of_hostCycle {s t : State} (hb : s.busy = true) (hr : s.input.rst = false)
    (h : hostCycle s s.input = .next t) :
    step s = andThen (t.seqCycle s.input.levels) fun u => .next (u.tick s.input) := by
  simp [step, hr, h, andThen, hb]

/-- Settles O45: the value and RXRD by word, then the step with and without a running operation. -/
theorem hostReads : Obligations.HostReads := by
  unfold Obligations.HostReads
  intro s a p hr hh hp
  have hread := hostCycle_read (s := s) hh
  rw [hostRead_by_word, eq_pin hp] at hread
  refine ⟨fun hb => ?_, fun hb => ?_⟩
  · simp only [canPop_idle hb] at hread
    exact step_idle_of_hostCycle hb hr hread
  · simp only [canPop_busy hb, Bool.false_eq_true, and_false, if_false] at hread
    exact step_busy_of_hostCycle hb hr hread

/-- Settles O46: what the write does by word, then the step with and without a running operation. -/
theorem hostWrites : Obligations.HostWrites := by
  unfold Obligations.HostWrites
  intro s a w hr hh ha
  have hwrite := hostCycle_write (s := s) hh ha
  refine ⟨fun hb => ?_, fun hb => ?_⟩
  · rw [hostWrite_busy hb] at hwrite
    exact step_busy_of_hostCycle hb hr hwrite
  · rw [hostWrite_idle hb] at hwrite
    exact step_idle_of_hostCycle hb hr hwrite

end Sys2Proof.Machine
end

section
/-! PROOFS. The two encodings of 30_encoding.md R80. Each row of the table of R82 stands once in a list, with the bits of
IMM8 that its operation reads (R83): the decoder looks the op code up in that list, the encoder writes the row back. The
round trip, the ignored bits (R81) and the reserved op codes (R86) follow from the rows; the command bytes of R88 have no
bits to ignore. -/

namespace Sys2Proof.Machine

/-! ### The fields of an operation word -/

theorem opcField_opwWord (opc : BitVec 6) (imm : Byte) : opcField (opwWord opc imm) = opc := by
  apply BitVec.eq_of_getLsbD_eq
  intro i hi
  simp only [opcField, BitVec.getLsbD_extractLsb', hi, decide_true, Bool.true_and, Nat.zero_add]
  exact (BitVec.getLsbD_append (i := i)).trans (if_pos hi)

theorem imm8Field_opwWord (opc : BitVec 6) (imm : Byte) : imm8Field (opwWord opc imm) = imm := by
  apply BitVec.eq_of_getLsbD_eq
  intro i hi
  show BitVec.getLsbD (BitVec.extractLsb' 8 8 (0#16 ++ imm ++ 0#2 ++ opc : BitVec (16 + 8 + 2 + 6))) i = imm.getLsbD i
  simp only [BitVec.getLsbD_extractLsb', BitVec.getLsbD_append]
  interval_cases i <;> simp

/-- Clearing the ignored bits of a word leaves its op code and the bits of IMM8 that its operation reads
(30_encoding.md R81, R83). -/
theorem usedBits_opw (w : Word) :
    usedBits (.opw w) = .opw (opwWord (opcField w) (imm8Field w &&& usedImm8 (opcField w))) := by
  refine congrArg Code.opw ?_
  generalize usedImm8 (opcField w) = used
  show w &&& (0#16 ++ used ++ 0x3F#8 : BitVec (16 + 8 + 8)) =
    (0#16 ++ (imm8Field w &&& used) ++ 0#2 ++ opcField w : BitVec (16 + 8 + 2 + 6))
  apply BitVec.eq_of_getLsbD_eq
  intro i hi
  simp only [opcField, imm8Field, BitVec.getLsbD_and, BitVec.getLsbD_append, BitVec.getLsbD_extractLsb',
    BitVec.getLsbD_zero]
  interval_cases i <;> simp

/-! ### The table of operation words -/

/-- The rows of 30_encoding.md R82 whose operation reads bits of IMM8 (R83), the operation as a function of IMM8. -/
def operandRows : List (BitVec 6 × (Byte → Instr)) :=
  [(0x01#6, fun imm => .setline (immLow4 imm) (immValue imm)), (0x02#6, fun imm => .readline (immLow4 imm)),
    (0x03#6, .wrdata), (0x05#6, fun imm => .setdir (immDirection imm)), (0x08#6, fun imm => .wait (immLow4 imm)),
    (0x10#6, .sendcmd), (0x11#6, fun imm => .sendaddr (immCount imm))]

/-- The rows of 30_encoding.md R82 whose operation reads no bit of IMM8. -/
def plainRows : List (BitVec 6 × Instr) :=
  [(0x04#6, .rddata), (0x12#6, .senddata), (0x13#6, .recvdata), (0x18#6, .waitrdy), (0x20#6, .init), (0x21#6, .reset),
    (0x22#6, .resetlun), (0x28#6, .rdmfid), (0x29#6, .rdonfiid), (0x2A#6, .rdjedecid), (0x2B#6, .rduid),
    (0x2C#6, .rdstatus), (0x2D#6, .rdstatuse), (0x30#6, .rdpage), (0x31#6, .chgrdcol), (0x32#6, .chgwrcol),
    (0x33#6, .chgrow), (0x34#6, .progpage), (0x35#6, .progcache), (0x36#6, .erase), (0x37#6, .perase),
    (0x38#6, .rdcacheseq)]

/-- The 29 rows of 30_encoding.md R82. -/
def opTable : List (BitVec 6 × (Byte → Instr)) :=
  operandRows ++ plainRows.map fun row => (row.1, fun _ => row.2)

/-- The decoder looks the op code up in the table, and refuses one that is not there. -/
theorem decodeOpw_eq_lookup (w : Word) :
    decodeOpw w = (opTable.lookup (opcField w)).elim (.error (.reservedOpcode (opcField w)))
      fun op => .ok (op (imm8Field w)) := by
  simp only [decodeOpw]
  generalize opcField w = opc
  generalize imm8Field w = imm
  obtain ⟨⟨n, hn⟩⟩ := opc
  interval_cases n <;> rfl

/-- A word decodes exactly when its op code has a row. -/
theorem decodeOpw_ok_iff {w : Word} {i : Instr} :
    decodeOpw w = .ok i ↔ ∃ op, opTable.lookup (opcField w) = some op ∧ op (imm8Field w) = i := by
  rw [decodeOpw_eq_lookup]
  cases opTable.lookup (opcField w) <;> simp

/-- The op codes of 30_encoding.md R86. -/
theorem decodeOpw_error_iff {w : Word} :
    (∃ e, decodeOpw w = .error e) ↔ opcField w ∈
      [0x00#6, 0x06#6, 0x07#6, 0x09#6, 0x0A#6, 0x0B#6, 0x0C#6, 0x0D#6, 0x0E#6, 0x0F#6, 0x14#6,
        0x15#6, 0x16#6, 0x17#6, 0x19#6, 0x1A#6, 0x1B#6, 0x1C#6, 0x1D#6, 0x1E#6, 0x1F#6, 0x23#6, 0x24#6, 0x25#6, 0x26#6,
        0x27#6, 0x2E#6, 0x2F#6, 0x39#6, 0x3A#6, 0x3B#6, 0x3C#6, 0x3D#6, 0x3E#6, 0x3F#6] := by
  have herror : (∃ e, decodeOpw w = .error e) ↔ (opTable.lookup (opcField w)).isNone = true := by
    rw [decodeOpw_eq_lookup]
    cases opTable.lookup (opcField w) <;> simp
  rw [herror]
  generalize opcField w = opc
  revert opc
  decide

/-! ### The encoder, row by row -/

/-- The fields of IMM8 (30_encoding.md R83), put back where they were read, are the bits that were read. -/
theorem imm8_of_fields (imm : Byte) :
    0#3 ++ BitVec.ofBool (immValue imm) ++ immLow4 imm = imm &&& 0x1F#8 ∧ 0#4 ++ immLow4 imm = imm &&& 0x0F#8 ∧
      0#7 ++ BitVec.ofBool (directionBit (immDirection imm)) = imm &&& 0x01#8 ∧ 0#5 ++ immCount imm = imm &&& 0x07#8 := by
  revert imm; decide

theorem encode_operandRow (imm : Byte) :
    ∀ row ∈ operandRows, encode (row.2 imm) = .opw (opwWord row.1 (imm &&& usedImm8 row.1)) := by
  obtain ⟨hline, hlow, hdir, hcount⟩ := imm8_of_fields imm
  have hall : imm = imm &&& 0xFF#8 := (BitVec.and_allOnes (x := imm)).symm
  have hopw : ∀ opc {a b : Byte}, a = b → Code.opw (opwWord opc a) = .opw (opwWord opc b) := fun opc _ _ h => by rw [h]
  simp only [operandRows, List.forall_mem_cons, List.not_mem_nil, false_imp_iff, implies_true, and_true]
  exact ⟨hopw _ hline, hopw _ hlow, hopw _ hall, hopw _ hdir, hopw _ hlow, hopw _ hall, hopw _ hcount⟩

theorem encode_plainRow : ∀ row ∈ plainRows, encode row.2 = .opw (opwWord row.1 0#8) ∧ usedImm8 row.1 = 0#8 := by
  decide

/-- The encoder writes a row's op code and the bits of IMM8 that the operation reads. -/
theorem encode_of_lookup {opc : BitVec 6} {op : Byte → Instr} (h : opTable.lookup opc = some op) (imm : Byte) :
    encode (op imm) = .opw (opwWord opc (imm &&& usedImm8 opc)) := by
  have hmem : (opc, op) ∈ opTable := by
    obtain ⟨before, after, htable, _⟩ := List.lookup_eq_some_iff.1 h
    rw [htable]; simp
  rcases List.mem_append.1 hmem with hoperand | hplain
  · exact encode_operandRow imm _ hoperand
  · obtain ⟨row, hrow, heq⟩ := List.mem_map.1 hplain
    obtain ⟨rfl, rfl⟩ := Prod.mk.inj heq
    obtain ⟨hword, hused⟩ := encode_plainRow row hrow
    rw [hused, BitVec.and_zero, hword]

theorem encode_of_decodeOpw {w : Word} {i : Instr} (h : decodeOpw w = .ok i) : encode i = usedBits (.opw w) := by
  obtain ⟨op, hlookup, rfl⟩ := decodeOpw_ok_iff.1 h
  rw [usedBits_opw, encode_of_lookup hlookup]

/-! ### The command bytes -/

theorem encode_of_decodeWire {b : Byte} {i : Instr} (h : decodeWire b = .ok i) : encode i = .wire b := by
  simp only [decodeWire] at h
  split at h <;> cases h <;> exact congrArg Code.wire (BitVec.eq_of_toNat_eq (by assumption)).symm

theorem decodeWire_of_encode {b : Byte} {i : Instr} (h : encode i = .wire b) : decodeWire b = .ok i := by
  cases i <;> cases h <;> rfl

/-! ### The round trip -/

theorem decodeOpw_opwWord {opc : BitVec 6} {op : Byte → Instr} (h : opTable.lookup opc = some op) (imm : Byte) :
    decodeOpw (opwWord opc imm) = .ok (op imm) := by
  rw [decodeOpw_ok_iff, opcField_opwWord, imm8Field_opwWord]
  exact ⟨op, h, rfl⟩

theorem decode_encode (i : Instr) : decode (encode i) = .ok i := by
  cases i with
  | setline line value =>
    refine (decodeOpw_opwWord rfl _).trans ?_
    revert line value; decide
  | readline line =>
    refine (decodeOpw_opwWord rfl _).trans ?_
    revert line; decide
  | wrdata byte => exact decodeOpw_opwWord rfl byte
  | setdir dir => cases dir <;> rfl
  | wait sel =>
    refine (decodeOpw_opwWord rfl _).trans ?_
    revert sel; decide
  | sendcmd cmd => exact decodeOpw_opwWord rfl cmd
  | sendaddr n =>
    refine (decodeOpw_opwWord rfl _).trans ?_
    revert n; decide
  | _ => rfl

/-- A word decodes to the operation whose encoding it is, the ignored bits apart: one that decodes is the encoding of what
it decodes to, and one that does not has the op code of no operation. -/
theorem decodeOpw_iff_usedBits (w : Word) (i : Instr) : decodeOpw w = .ok i ↔ usedBits (.opw w) = encode i := by
  refine ⟨fun h => (encode_of_decodeOpw h).symm, fun h => ?_⟩
  have hround : decode (usedBits (.opw w)) = .ok i := h ▸ decode_encode i
  cases hw : decodeOpw w with
  | ok j => rw [← encode_of_decodeOpw hw, decode_encode] at hround; exact hround
  | error e =>
    rw [usedBits_opw] at hround
    obtain ⟨op, hlookup, _⟩ := decodeOpw_ok_iff.1 hround
    rw [opcField_opwWord] at hlookup
    rw [decodeOpw_ok_iff.2 ⟨op, hlookup, rfl⟩] at hw
    cases hw

/-- Settles O1, by the two encodings. -/
theorem decodeEncode : Obligations.DecodeEncode := by
  unfold Obligations.DecodeEncode
  refine ⟨decode_encode, fun c i => ?_⟩
  cases c with
  | opw w => exact decodeOpw_iff_usedBits w i
  | wire b => exact ⟨fun h => (encode_of_decodeWire h).symm, fun h => decodeWire_of_encode h.symm⟩

/-- Settles O2, by running the decoder on each word. -/
theorem sampleWords : Obligations.SampleWords :=
  ⟨rfl, rfl, rfl, rfl, rfl, rfl, rfl, rfl, rfl, rfl, rfl, rfl, rfl, rfl⟩

end Sys2Proof.Machine
end

section
/-! PROOFS. The start of an operation (30_encoding.md R96): a write of OPW as a step, with and without a running operation;
the three answers to it; and the command bytes (R88), each of which is started as SENDCMD with that byte (log 8). -/

namespace Sys2Proof.Machine

/-! ### Which operation runs -/

/-- A command byte of the table is started as SENDCMD with it (30_encoding.md R89; log 8). -/
theorem exec_wire {i : Instr} {b : Byte} (h : encode i = .wire b) (s : State) : exec i s = exec (.sendcmd b) s := by
  cases i <;> cases h <;> rfl

/-- An operation with an operation word of its own runs as itself. -/
theorem runningOp_of_encode_opw {i : Instr} {w : Word} (h : encode i = .opw w) : runningOp i = i := by
  cases i <;> cases h <;> rfl

theorem runningOp_of_decodeOpw {i : Instr} {w : Word} (h : decodeOpw w = .ok i) : runningOp i = i :=
  runningOp_of_encode_opw (encode_of_decodeOpw h)

/-! ### A write of OPW as a step -/

theorem hostCycle_opw {s : State} {i : Input} {w : Word} (h : i.host = .write 0#4 w) : hostCycle s i = issue s w := by
  rw [hostCycle, opwWrite_some.2 h]

/-- A write of OPW while an operation runs only sets OVERRUN, whatever the word (60_exceptions.md R220). -/
theorem issue_busy {s : State} (hb : s.busy = true) (w : Word) : issue s w = .next { s with overrun := true } := by
  have hlatch : s.latchOpw w = s := by rw [State.latchOpw, hb]; rfl
  rw [issue, hlatch, hb]
  cases decodeOpw w with
  | ok i => exact exec_busy hb
  | error e => rfl

/-- A write of OPW while no operation runs latches the word and starts the operation it names. -/
theorem issue_decoded {s : State} {w : Word} {i : Instr} (hb : s.busy = false) (h : decodeOpw w = .ok i) :
    issue s w = exec i { s with opw := w, illOp := false, badArg := false } := by
  rw [issue, h, latchOpw_idle w (s.busy_eq_false.1 hb)]

/-- A word with a reserved op code is refused (30_encoding.md R86). -/
theorem issue_reserved {s : State} {w : Word} {e : DecodeError} (hb : s.busy = false) (h : decodeOpw w = .error e) :
    issue s w = .next { s with opw := w, illOp := true, badArg := false } := by
  rw [issue, h, latchOpw_idle w (s.busy_eq_false.1 hb), hb]
  rfl

theorem step_opw_busy {s : State} {w : Word} (hr : s.input.rst = false) (hh : s.input.host = .write 0#4 w)
    (hb : s.busy = true) :
    step s = andThen (({ s with overrun := true } : State).seqCycle s.input.levels) fun u => .next (u.tick s.input) :=
  step_busy_of_hostCycle hb hr ((hostCycle_opw hh).trans (issue_busy hb w))

theorem step_opw_decoded {s : State} {w : Word} {i : Instr} (hr : s.input.rst = false)
    (hh : s.input.host = .write 0#4 w) (hb : s.busy = false) (h : decodeOpw w = .ok i) :
    step s = andThen (exec i { s with opw := w, illOp := false, badArg := false }) fun t => .next (t.tick s.input) := by
  rw [step_idle (s.busy_eq_false.1 hb) hr, hostCycle_opw hh, issue_decoded hb h]

theorem step_opw_reserved {s : State} {w : Word} {e : DecodeError} (hr : s.input.rst = false)
    (hh : s.input.host = .write 0#4 w) (hb : s.busy = false) (h : decodeOpw w = .error e) :
    step s = .next (({ s with opw := w, illOp := true, badArg := false } : State).tick s.input) :=
  step_idle_of_hostCycle hb hr ((hostCycle_opw hh).trans (issue_reserved hb h))

/-- Starting an operation never ends in ILLOP (60_exceptions.md R220): acceptance and BADARG clear it. -/
theorem exec_illOp {i : Instr} {s t : State} (hb : s.busy = false) (h : exec i s = .next t) : t.illOp = false := by
  rcases exec_cases i s with ⟨hbusy, _⟩ | ⟨_, _, he⟩ | ⟨_, _, he⟩
  · rw [hb] at hbusy; cases hbusy
  · rw [← Host.Outcome.next.inj (he.symm.trans h)]; rfl
  · rw [← Host.Outcome.next.inj (he.symm.trans h)]; rfl

/-- Settles O3: a reserved op code is refused so, and where the word decodes the step leaves ILLOP clear. -/
theorem reservedOpcodes : Obligations.ReservedOpcodes := by
  unfold Obligations.ReservedOpcodes
  intro s w hb hr hh
  refine Iff.trans decodeOpw_error_iff.symm ⟨fun ⟨e, he⟩ => step_opw_reserved hr hh hb he, fun hstep => ?_⟩
  cases hd : decodeOpw w with
  | error e => exact ⟨e, rfl⟩
  | ok i =>
    obtain ⟨u, hu, ht⟩ := step_idle_inv (s.busy_eq_false.1 hb) hr hstep
    rw [hostCycle_opw hh, issue_decoded hb hd] at hu
    have hclear : u.illOp = false := exec_illOp (s := { s with opw := w, illOp := false, badArg := false }) hb hu
    have hset : u.illOp = true := (congrArg State.illOp ht).symm
    rw [hclear] at hset
    cases hset

/-- Settles O4: the step of the write, with and without a running operation. -/
theorem stepRunsDecoded : Obligations.StepRunsDecoded := by
  unfold Obligations.StepRunsDecoded
  intro s w hr hh
  refine ⟨step_opw_busy hr hh, fun i hd => ⟨fun hb => step_opw_decoded hr hh hb hd, fun hb => ?_⟩⟩
  rw [step_opw_busy hr hh hb, exec_busy hb]
  rfl

/-! ### A table word in the place of the next write -/

theorem tableCode_tableWord (i : Instr) : tableCode (tableWord i).1 (tableWord i).2 = encode i := by
  cases h : encode i with
  | opw w => simp [tableWord, h, tableCode]
  | wire b => simp [tableWord, h, tableCode, decodeWire_of_encode h]

/-- The word that the host writes for a table word decodes to what the table word's instruction runs as. -/
theorem decodeOpw_hostWord (i : Instr) : ∃ j, decodeOpw (hostWord (encode i)) = .ok j ∧ ∀ s, exec j s = exec i s := by
  cases h : encode i with
  | opw w => exact ⟨i, by have hround := decode_encode i; rwa [h] at hround, fun _ => rfl⟩
  | wire b => exact ⟨.sendcmd b, decodeOpw_opwWord rfl b, fun s => (exec_wire h s).symm⟩

/-- Settles O5: the step of the write of that word, whose operation is the instruction's. -/
theorem fetchedWordRuns : Obligations.FetchedWordRuns := by
  unfold Obligations.FetchedWordRuns
  intro s i hb
  rw [tableCode_tableWord]
  refine ⟨by cases encode i <;> rfl, ?_⟩
  obtain ⟨j, hd, hexec⟩ := decodeOpw_hostWord i
  have hh : (s.withFetchWord (tableWord i).1 (tableWord i).2).input.host = .write 0#4 (hostWord (encode i)) := by
    rw [← tableCode_tableWord]; rfl
  rw [step_opw_decoded rfl hh hb hd, hexec]

/-! ### The three answers -/

/-- Settles O6, by the three cases of the start of an operation. -/
theorem execDecides : Obligations.ExecDecides := by
  unfold Obligations.ExecDecides
  intro i s
  refine ⟨exec_busy, exec_refuses, fun hb hd => ?_⟩
  refine ⟨⟨runningOp i, s.aLen, s.txLen, s.len, s.pages, expand i s, completionOf i⟩, loadDly (expand i s)[0]?,
    loadPoll (expand i s)[0]?, rfl, rfl, rfl, rfl, fun w hw => runningOp_of_decodeOpw hw, exec_accepts hb hd⟩

end Sys2Proof.Machine
end

section
/-! PROOFS. The phase operations as the host starts them alone: what a command cycle leaves (42_phase_engine.md R136), and
which bus cycles each of them shows (30_encoding.md R87). -/

namespace Sys2Proof.Machine

/-! ### A command cycle -/

theorem unsynced_lines (mask val : Latch) (p : Option Phase) : Unsynced ⟨.lines mask val, p⟩ :=
  ⟨nofun, nofun⟩

theorem unsynced_dly (k : Nat) (p : Option Phase) : Unsynced ⟨.dly k, p⟩ :=
  ⟨nofun, nofun⟩

/-- sendCommand waits for nothing but its delays. -/
theorem unsynced_sendCommand (c : Config) (b : Byte) : ∀ m ∈ sendCommand c b, Unsynced m :=
  (all_sendCommand c _ b).2 ⟨unsynced_lines .., unsynced_lines .., unsynced_dly .., unsynced_lines .., unsynced_dly ..,
    unsynced_lines .., unsynced_lines ..⟩

/-- A command cycle of any byte takes 5 + T_SETUP + T_HOLD cycles and leaves the lines at idle (42_phase_engine.md R136,
70_reset_and_hazards.md R257). -/
theorem sendcmd_completesIn {s : State} (b : Byte) (hb : s.busy = false) (hq : s.QuietFor (cmdCycles s.cfg)) :
    CompletesIn (.sendcmd b) s (cmdCycles s.cfg) (s.ranIdle (cmdCycles s.cfg)) := by
  have hseq : expand (.sendcmd b) s = sendCommand s.cfg b := rfl
  have hcost : max 1 (seqCost (sendCommand s.cfg b)) = cmdCycles s.cfg := by
    rw [seqCost_sendCommand, cmdCycles]; omega
  refine completes_of (i := .sendcmd b) hb trivial hcost hq (.inl (unsynced_sendCommand s.cfg b)) ?_ ?_
  · rw [hseq, capCount_sendCommand]; exact Nat.zero_le _
  · rw [hseq, accept_onPins, runMicros_sendCommand]
    exact ranIdle_of ..

theorem completesIn_wire {i : Instr} {b : Byte} (h : encode i = .wire b) {s u : State} {n : Nat} :
    CompletesIn i s n u ↔ CompletesIn (.sendcmd b) s n u := by
  rw [CompletesIn, CompletesIn, exec_wire h]

/-- Settles O19: each of the instructions is a command byte, and its command cycle that of SENDCMD. -/
theorem wireCommandResult : Obligations.WireCommandResult := by
  unfold Obligations.WireCommandResult
  rintro s i n hb hi rfl hq
  obtain ⟨b, hbyte⟩ : ∃ b, encode i = .wire b := by
    revert i
    simp [encode]
  exact (completesIn_wire hbyte).2 (sendcmd_completesIn b hb hq)

/-! ### The bus cycles -/

theorem shows_wire {i : Instr} {b : Byte} (h : encode i = .wire b) {s : State} {w : List BusCycle} :
    Shows i s w ↔ Shows (.sendcmd b) s w := by
  rw [Shows, Shows, exec_wire h]

/-- WAIT moves no line, whatever its selector (41_timing.md R125). -/
theorem wire_waitSeq (c : Config) (p : Pins) (sel : BitVec 4) : wire p (waitSeq c sel) = [] := by
  rw [waitSeq]
  cases selectDelay sel with
  | none => rfl
  | some d => exact (wire_wait c d).1

/-- Settles O32, an operation at a time: each shows the bus cycles of its sequence. -/
theorem phaseOpsShow : Obligations.PhaseOpsShow := by
  unfold Obligations.PhaseOpsShow
  intro s hb hdir
  have hd : s.pins.dir = dirOut := hdir
  have hcmd : ∀ b : Byte, Shows (.sendcmd b) s [.command b] := fun b =>
    shows_of hb trivial (wire_sendCommand s.cfg b hd)
  refine ⟨hcmd, fun i b h => (shows_wire (encode_of_decodeWire h)).2 (hcmd b), fun n h5 hlen => ?_, ?_,
    fun hlen hre => ?_, ?_, fun sel hsel => ?_⟩
  · obtain ⟨hwire, _⟩ := wire_sendAddress s.cfg (addressBytes s n.toNat) hd
    exact shows_of hb ⟨h5, hlen⟩ hwire
  · obtain ⟨hwire, _⟩ := wire_sendData s.cfg s.txbuf hd
    exact shows_of hb trivial hwire
  · obtain ⟨hwire, _⟩ := wire_receiveData s.cfg s.len.toNat hd hre
    exact shows_of hb hlen hwire
  · obtain ⟨hwire, _⟩ := wire_waitReady (p := s.pins)
    exact shows_of hb trivial hwire
  · exact shows_of hb hsel (wire_waitSeq s.cfg s.pins sel)

end Sys2Proof.Machine
end

section
/-! PROOFS. The operations of one micro-operation on the pins (40_bus_interface.md R115 to R119): each takes one cycle, in
which its micro-operation writes what it writes, and leaves everything else as acceptance and the clock leave it. -/

namespace Sys2Proof.Machine

/-! ### What the micro-operations write -/

/-- A line of BUS_OUT written alone (40_bus_interface.md R115): the mask and the value of SETLINE. -/
theorem muxLines_line {l : Nat} (v : Bool) (old : Latch) {i : Nat} (hi : i < 14) :
    (muxLines (1#14 <<< l) ((BitVec.ofBool v).setWidth 14 <<< l) old).getLsbD i =
      if i = l then v else old.getLsbD i := by
  have hmask : (1#14 <<< l).getLsbD i = decide (i = l) := by
    simp only [BitVec.getLsbD_shiftLeft, BitVec.getLsbD_one, hi, decide_true, Bool.true_and, ← decide_not,
      ← Bool.decide_and]
    exact decide_eq_decide.2 (by omega)
  rw [muxLines_getLsbD, hmask]
  by_cases h : i = l
  · subst h
    have hval : ((BitVec.ofBool v).setWidth 14 <<< i).getLsbD i = v := by simp [hi]
    simp only [decide_true, if_true, hval]
  · simp only [h, decide_false, if_false, Bool.false_eq_true]

/-- The data field of BUS_OUT written alone (40_bus_interface.md R117). -/
theorem muxLines_byte (b : Byte) (old : Latch) :
    muxLines mD (b.setWidth 14) old = (old &&& 0x3F00#14) ||| b.setWidth 14 := by
  have hmask : mD = (BitVec.allOnes 8).setWidth 14 := rfl
  have hbyte : b.setWidth 14 &&& mD = b.setWidth 14 := by
    rw [hmask, ← BitVec.setWidth_and, BitVec.and_allOnes]
  rw [muxLines, hbyte]
  rfl

/-- The data bits of PIN (10_state.md R25). -/
theorem pinData_getLsbD (s : State) (levels : Latch) {i : Nat} (hi : i < 8) :
    (s.pinData levels).getLsbD i = if s.dir.getLsbD i then s.busOut.getLsbD i else levels.getLsbD i := by
  have h14 : i ≠ 14 := by omega
  rw [State.pinData, BitVec.getLsbD_setWidth, decide_eq_true hi, Bool.true_and, pin_getLsbD s levels (by omega),
    if_neg h14]

/-- A level as RES holds it: 1 or 0 (40_bus_interface.md R116). -/
theorem setWidth_ofBool (b : Bool) : (BitVec.ofBool b).setWidth 16 = if b = true then 1#16 else 0#16 := by
  cases b <;> rfl

/-! ### One micro-operation, one cycle -/

/-- An operation of one micro-operation of one cycle, which neither waits nor captures: in one quiet cycle it has written
what it writes and is complete. -/
theorem completesIn_single {i : Instr} {s u : State} {op : MicroOp} (hb : s.busy = false) (hd : DomainOk i s)
    (hseq : expand i s = [plainStep op]) (hk : completionOf i = .plain) (hcost : microCost op = 1) (hpoll : op ≠ .poll)
    (hcap : op ≠ .cap) (hq : s.QuietFor 1)
    (hu : { ((s.accept (runningOp i) [plainStep op] .plain).microEffect op
              (s.inputs.getD 0 default).levels).complete .plain with
            rbSync := syncAfter s.rbSync (s.inputs.take 1)
            inputs := s.inputs.drop 1
            cycle := s.cycle + 1 } = u) : CompletesIn i s 1 u := by
  have hroom : capCount [plainStep op] ≤ s.cfg.rxDepth := by
    rw [capCount_cons, if_neg (show (plainStep op).op ≠ .cap from hcap)]
    exact Nat.zero_le _
  have haccept := exec_accepts hb hd
  rw [hseq, hk] at haccept
  refine ⟨_, haccept, rfl, ?_⟩
  rw [run_single s _ (plainStep op) .plain hcost hpoll hq hroom, ← hu]
  rfl

/-- Settles O8: the mask of SETLINE holds its line alone. -/
theorem setlineResult : Obligations.SetlineResult := by
  unfold Obligations.SetlineResult
  intro s l v hb h8 h13 hq
  exact ⟨_, fun i hi => muxLines_line v s.busOut hi,
    completesIn_single (i := .setline l v) hb ⟨h8, h13⟩ rfl rfl rfl nofun nofun hq rfl⟩

/-- Settles O9: RES takes the bit of PIN that the line names. -/
theorem readlineResult : Obligations.ReadlineResult := by
  unfold Obligations.ReadlineResult
  intro s l hb h8 h14 hq
  rw [← pin_getLsbD s _ (by omega : l.toNat < 15), ← setWidth_ofBool]
  exact completesIn_single (i := .readline l) hb ⟨h8, h14⟩ rfl rfl rfl nofun nofun hq rfl

/-- Settles O10: the mask of WRDATA is the data field. -/
theorem wrdataResult : Obligations.WrdataResult := by
  unfold Obligations.WrdataResult
  intro s b hb hq
  rw [← muxLines_byte]
  exact completesIn_single (i := .wrdata b) hb trivial rfl rfl rfl nofun nofun hq rfl

/-- Settles O11: RES takes the data bits of PIN. -/
theorem rddataResult : Obligations.RddataResult := by
  unfold Obligations.RddataResult
  intro s hb hq
  exact ⟨_, fun i hi => pinData_getLsbD s _ hi,
    completesIn_single (i := .rddata) hb trivial rfl rfl rfl nofun nofun hq rfl⟩

/-- Settles O12, a direction at a time. -/
theorem setdirResult : Obligations.SetdirResult := by
  unfold Obligations.SetdirResult
  intro s hb hq
  exact ⟨completesIn_single (i := .setdir .output) hb trivial rfl rfl rfl nofun nofun hq rfl,
    completesIn_single (i := .setdir .input) hb trivial rfl rfl rfl nofun nofun hq rfl⟩

end Sys2Proof.Machine
end

section
/-! PROOFS. The writes of the pins (40_bus_interface.md R112 to R114): what a cycle of LINES, DIRD or DIRALL leaves when
another micro-operation follows, and that a step without rst moves BUS_OUT by a LINES and DIR by a DIRD or DIRALL only,
each the current micro-operation of the running operation (R110). -/

namespace Sys2Proof.Machine

/-! ### The next micro-operation that takes a cycle -/

/-- The micro-operations that a sequencer passes over are delays of 0 (41_timing.md R126). -/
theorem getElem?_of_lt_zeroRun {l : List MicroStep} {k : Nat} (h : k < zeroRun l) :
    ∃ p, l[k]? = some { op := .dly 0, phase := p } := by
  induction l generalizing k with
  | nil => cases h
  | cons m r ih =>
    obtain ⟨op, p⟩ := m
    by_cases hz : op = .dly 0
    · simp only [zeroRun, hz, if_true] at h
      cases k with
      | zero => exact ⟨p, by rw [hz]; rfl⟩
      | succ k => exact ih (Nat.lt_of_succ_lt_succ h)
    · simp only [zeroRun, hz, if_false] at h
      cases h

/-- The delays of 0 that a sequence begins with end at the first micro-operation that is none. -/
theorem zeroRun_eq {l : List MicroStep} {k : Nat} {m : MicroStep}
    (hz : ∀ j, j < k → ∃ p, l[j]? = some { op := .dly 0, phase := p }) (hm : l[k]? = some m) (hop : m.op ≠ .dly 0) :
    zeroRun l = k := by
  rcases Nat.lt_trichotomy (zeroRun l) k with hlt | heq | hgt
  · obtain ⟨p, hp⟩ := hz _ hlt
    have hrun := zeroRun_drop l
    rw [drop_eq_cons hp] at hrun
    exact absurd rfl (zeroRun_cons_eq_zero.1 hrun)
  · exact heq
  · obtain ⟨p, hp⟩ := getElem?_of_lt_zeroRun hgt
    rw [hm, Option.some.injEq] at hp
    exact absurd (congrArg MicroStep.op hp) hop

/-- From one index to the first whose micro-operation takes a cycle there are delays of 0 only. -/
theorem getElem?_of_lt_skipZero {seq : List MicroStep} {n j : Nat} (hn : n ≤ j) (hj : j < skipZero seq n) :
    ∃ p, seq[j]? = some { op := .dly 0, phase := p } := by
  obtain ⟨p, hp⟩ := getElem?_of_lt_zeroRun (l := seq.drop n) (k := j - n) (by rw [skipZero] at hj; omega)
  exact ⟨p, by rwa [List.getElem?_drop, Nat.add_sub_of_le hn] at hp⟩

/-- Where the sequencer goes on: at the next micro-operation that takes a cycle. -/
theorem NextAt.skipZero_eq {seq : List MicroStep} {n j : Nat} {m : MicroStep} (h : NextAt seq n j m) :
    skipZero seq (n + 1) = j := by
  obtain ⟨hlt, hz, hm, hop⟩ := h
  have hrun : zeroRun (seq.drop (n + 1)) = j - (n + 1) := by
    refine zeroRun_eq (fun k hk => ?_) ?_ hop
    · rw [List.getElem?_drop]
      exact hz _ (by omega) (by omega)
    · rwa [List.getElem?_drop, Nat.add_sub_of_le hlt]
  rw [skipZero, hrun, Nat.add_sub_of_le hlt]

/-- Moving on to the next micro-operation that takes a cycle writes the sequencer's position alone. -/
theorem advance_of_nextAt {s : State} {c : CurOp} {n j : Nat} {next : MicroStep} (h : NextAt c.seq n j next) :
    s.advance c (n + 1) =
      { s with seqPc := j, dlyCnt := loadDly (some next), pollSt := loadPoll (some next) } := by
  obtain ⟨_, _, hm, _⟩ := id h
  obtain ⟨hlen, _⟩ := List.getElem?_eq_some_iff.1 hm
  simp only [State.advance, h.skipZero_eq, hlen, if_true, State.beginAt, hm]

/-- DLYCNT when a micro-operation begins, by the micro-operation alone (10_state.md R34). -/
def delayLoad (op : MicroOp) : Nat :=
  match op with
  | .dly k => k
  | _ => 0

theorem loadDly_some (m : MicroStep) : loadDly (some m) = delayLoad m.op := by
  obtain ⟨op, p⟩ := m
  cases op <;> rfl

theorem loadPoll_some (m : MicroStep) : loadPoll (some m) = if m.op = .poll then .wait else .idle := by
  obtain ⟨op, p⟩ := m
  cases op <;> rfl

/-! ### The last cycle of a micro-operation -/

/-- A quiet cycle in which the current micro-operation ends and another that takes a cycle follows: it writes what it
writes, and the sequencer is at the next one. -/
theorem step_to_next {s : State} {c : CurOp} {m next : MicroStep} {j : Nat} (hq : s.QuietFor 1) (hc : s.cur = some c)
    (hm : c.seq[s.seqPc]? = some m) (hop : m.op ≠ .dly 0) (hends : s.microEnds m.op = true)
    (hroom : m.op = .cap → s.rxLen < s.cfg.rxDepth) (hnext : NextAt c.seq s.seqPc j next) :
    step s = .next ((effectOf m (s.inputs.getD 0 default).levels s).moved j (delayLoad next.op)
      (if next.op = .poll then .wait else .idle) (syncAfter s.rbSync (s.inputs.take 1)) (s.inputs.drop 1)
      (s.cycle + 1)) := by
  obtain ⟨i, rest, hi, hr, hh⟩ := QuietFor.head hq
  have hsync := effectOf_rbSync m i.levels s
  have hin := effectOf_inputs m i.levels s
  have hcycle := effectOf_cycle m i.levels s
  rw [step_quiet hi hr hh hc, seqCycle_at _ hc (drop_eq_cons hm) (zeroRun_cons_eq_zero.2 hop),
    microCycle_end _ hends hroom, advance_of_nextAt hnext, loadDly_some, loadPoll_some]
  simp only [andThen, State.tick, State.moved, hsync, hin, hcycle, hi]
  rfl

/-- Settles O39: LINES ends in the cycle in which it is current, and writes BUS_OUT. -/
theorem linesCycle : Obligations.LinesCycle := by
  unfold Obligations.LinesCycle
  intro s c mask val q j next hq hc hm hnext
  exact step_to_next hq hc hm nofun rfl nofun hnext

/-! ### The writes of DIR -/

/-- The micro-operation writes DIR, `old` before and `d` after (40_bus_interface.md R113, R114). -/
def WritesDir (old : Lines15) (op : MicroOp) (d : Lines15) : Prop :=
  (op = .dirD .output ∧ d = old ||| 0x00FF#15) ∨ (op = .dirD .input ∧ d = old &&& 0x7F00#15) ∨
    ∃ v : Latch, op = .dirAll v ∧ d = 0#1 ++ v

/-- DIRALL leaves bit 14 at 0 (10_state.md R24). -/
theorem dirWithAll_eq_append (v : Latch) : dirWithAll v = 0#1 ++ v :=
  BitVec.setWidth_eq_append (by decide)

/-- A micro-operation that writes DIR takes one cycle and writes nothing else but its PHASE update. -/
theorem effectOf_writesDir {s : State} {op : MicroOp} {d : Lines15} (h : WritesDir s.dir op d) (q : Option Phase)
    (levels : Latch) :
    effectOf ⟨op, q⟩ levels s = { s with dir := d, phase := q.getD s.phase } ∧ op ≠ .dly 0 ∧ op ≠ .cap ∧
      s.microEnds op = true := by
  rcases h with ⟨rfl, rfl⟩ | ⟨rfl, rfl⟩ | ⟨v, rfl, rfl⟩
  · exact ⟨rfl, nofun, nofun, rfl⟩
  · exact ⟨rfl, nofun, nofun, rfl⟩
  · exact ⟨by rw [← dirWithAll_eq_append]; rfl, nofun, nofun, rfl⟩

/-- Settles O40: a micro-operation that writes DIR ends in the cycle in which it is current. -/
theorem directionCycle : Obligations.DirectionCycle := by
  unfold Obligations.DirectionCycle
  intro s c op d q j next hq hc hm hnext hd
  obtain ⟨heffect, hdly, hcap, hends⟩ := effectOf_writesDir hd q (s.inputs.getD 0 default).levels
  rw [step_to_next hq hc hm hdly hends (fun h => absurd h hcap) hnext, heffect]
  rfl

/-! ### What moves the pins -/

/-- A micro-operation that moves BUS_OUT is a LINES, and writes under its mask. -/
theorem lines_of_out_ne {p : Pins} {op : MicroOp} (h : (pinsAfter p op).out ≠ p.out) :
    ∃ mask val, op = .lines mask val ∧ (pinsAfter p op).out = (p.out &&& ~~~mask) ||| (val &&& mask) := by
  cases op with
  | lines mask val => exact ⟨mask, val, rfl, rfl⟩
  | _ => exact absurd rfl h

/-- A micro-operation that moves DIR is one that writes it. -/
theorem writesDir_of_dir_ne {p : Pins} {op : MicroOp} (h : (pinsAfter p op).dir ≠ p.dir) :
    WritesDir p.dir op (pinsAfter p op).dir := by
  cases op with
  | dirD d =>
    cases d with
    | output => exact .inl ⟨rfl, rfl⟩
    | input => exact .inr (.inl ⟨rfl, rfl⟩)
  | dirAll v => exact .inr (.inr ⟨v, rfl, dirWithAll_eq_append v⟩)
  | _ => exact absurd rfl h

/-- No host access moves a pin, the start of an operation neither. -/
theorem hostCycle_pins {s t : State} {i : Input} (hc : s.cur = none) (h : hostCycle s i = .next t) : t.pins = s.pins := by
  rcases hostCycle_idle (i := i) (s.busy_eq_false.2 hc) with ⟨w, j, _, _, _, he⟩ | ⟨w, f, _, _, he⟩ | ⟨_, he⟩ <;>
    obtain rfl : _ = t := Host.Outcome.next.inj (he.symm.trans h)
  · rw [latchOpw_idle w hc]; rfl
  · rw [latchOpw_idle w hc]; cases f <;> rfl
  · obtain ⟨⟨_, hout, hdir, _⟩, _⟩ := hostAccess_sameCore s i.host i.levels
    rw [State.pins, hout, hdir]; rfl

/-- A step without rst that moves the pins does what the current micro-operation of a running operation, past its delays
of 0, does to them. -/
theorem step_pins_ne {s t : State} (hr : s.input.rst = false) (h : step s = .next t) (hne : t.pins ≠ s.pins) :
    ∃ c n m, s.cur = some c ∧ s.seqPc ≤ n ∧
      (∀ j, s.seqPc ≤ j → j < n → ∃ p, c.seq[j]? = some { op := .dly 0, phase := p }) ∧
      c.seq[n]? = some m ∧ t.pins = pinsAfter s.pins m.op := by
  cases hc : s.cur with
  | none =>
    obtain ⟨u, hu, rfl⟩ := step_idle_inv hc hr h
    exact absurd (hostCycle_pins hc hu) hne
  | some c =>
    obtain ⟨hmoves, _⟩ := step_moves hc hr h
    cases hmoves with
    | holds _ hpins _ => exact absurd hpins hne
    | ends m r hs _ hpins _ =>
      rw [rest_of_some hc, ← drop_skipZero] at hs
      exact ⟨c, skipZero c.seq s.seqPc, m, rfl, Nat.le_add_right .., fun j => getElem?_of_lt_skipZero,
        getElem?_of_drop hs, hpins⟩

/-- Settles O58: what moves the pins is a micro-operation, and which one says which of the two it moved. -/
theorem pinsMoveOnlyBy : Obligations.PinsMoveOnlyBy := by
  unfold Obligations.PinsMoveOnlyBy
  intro s t hr h
  refine ⟨fun hne => ?_, fun hne => ?_⟩
  · obtain ⟨c, n, ⟨op, q⟩, hc, hn, hz, hm, hpins⟩ := step_pins_ne hr h fun he => hne (congrArg Pins.out he)
    have hout : t.busOut = (pinsAfter s.pins op).out := congrArg Pins.out hpins
    obtain ⟨mask, val, rfl, hval⟩ := lines_of_out_ne (p := s.pins) (hout ▸ hne)
    exact ⟨c, n, mask, val, q, hc, hn, hz, hm, hout.trans hval⟩
  · obtain ⟨c, n, ⟨op, q⟩, hc, hn, hz, hm, hpins⟩ := step_pins_ne hr h fun he => hne (congrArg Pins.dir he)
    have hdir : t.dir = (pinsAfter s.pins op).dir := congrArg Pins.dir hpins
    exact ⟨c, n, op, q, hc, hn, hz, hm, hdir ▸ writesDir_of_dir_ne (hdir ▸ hne)⟩

end Sys2Proof.Machine
end

section
/-! PROOFS. The delays (41_timing.md R125, R126): DLYCNT counts a DLY down cycle by cycle, a DLY(k) holds the sequencer
for exactly k cycles, and WAIT is the delay that its selector names. -/

namespace Sys2Proof.Machine

/-! ### A delay in a sequence -/

/-- A quiet cycle in which the current micro-operation does not end: DLYCNT counts down, and nothing else moves but the
clock. It is `step_to_next` for the cycles before the last. -/
theorem step_to_hold {s : State} {c : CurOp} {m : MicroStep} (hq : s.QuietFor 1) (hc : s.cur = some c)
    (hm : c.seq[s.seqPc]? = some m) (hop : m.op ≠ .dly 0) (hholds : s.microEnds m.op = false) :
    step s = .next (s.moved s.seqPc (s.dlyCnt - 1) s.pollSt (syncAfter s.rbSync (s.inputs.take 1)) (s.inputs.drop 1)
      (s.cycle + 1)) := by
  obtain ⟨i, rest, hi, hr, hh⟩ := QuietFor.head hq
  rw [step_quiet hi hr hh hc, seqCycle_at _ hc (drop_eq_cons hm) (zeroRun_cons_eq_zero.2 hop), microCycle_hold _ hholds]
  simp only [andThen, State.tick, State.moved, hi]
  rfl

/-- One step after a run. -/
theorem runSteps_then_step {s t u : State} {n : Nat} (hrun : runSteps n s = .next t) (hstep : step t = .next u) :
    runSteps (n + 1) s = .next u :=
  (runSteps_add 1 hrun).trans (runSteps_succ 0 hstep)

/-- In the cycles of a delay before its last, DLYCNT is what is left of the count. -/
theorem run_counts {s : State} {c : CurOp} {k : Nat} {p : Option Phase} (n : Nat) (hq : s.QuietFor n)
    (hc : s.cur = some c) (hm : c.seq[s.seqPc]? = some ⟨.dly k, p⟩) (hk : k ≠ 0) (hn : n < s.dlyCnt) :
    runSteps n s = .next (s.moved s.seqPc (s.dlyCnt - n) s.pollSt (syncAfter s.rbSync (s.inputs.take n))
      (s.inputs.drop n) (s.cycle + n)) := by
  induction n with
  | zero => rfl
  | succ n ih =>
    have hrun := ih (QuietFor.of_le hq n.le_succ) (Nat.lt_of_succ_lt hn)
    have hholds : ¬(s.dlyCnt - n ≤ 1) := by omega
    rw [runSteps_then_step hrun (step_to_hold (m := ⟨.dly k, p⟩) (QuietFor.drop n hq rfl) hc hm (by simpa using hk)
      (decide_eq_false hholds))]
    simp only [State.moved, ← syncAfter_append, ← List.take_add, List.drop_drop, Nat.sub_sub, Nat.add_assoc]

/-- The last cycle of a delay passes on to the next micro-operation that takes a cycle. -/
theorem run_delay_to_next {s : State} {c : CurOp} {k j : Nat} {next : MicroStep} (hq : s.QuietFor k)
    (hc : s.cur = some c) (hk : 0 < k) (hm : c.seq[s.seqPc]? = some ⟨.dly k, none⟩) (hcnt : s.dlyCnt = k)
    (hnext : NextAt c.seq s.seqPc j next) :
    runSteps k s = .next (s.moved j (delayLoad next.op) (if next.op = .poll then .wait else .idle)
      (syncAfter s.rbSync (s.inputs.take k)) (s.inputs.drop k) (s.cycle + k)) := by
  obtain ⟨n, rfl⟩ := Nat.exists_eq_add_one.2 hk
  have hrun := run_delay n s hc (drop_eq_cons hm) n.succ_ne_zero hcnt (QuietFor.of_le hq n.le_succ)
  rw [runSteps_then_step hrun (step_to_next (m := ⟨.dly (n + 1), none⟩) (QuietFor.drop n hq rfl) hc hm (by simp) rfl
    nofun hnext)]
  simp only [effectOf, State.microEffect, State.setPhase, Option.getD_none, State.moved, ← syncAfter_append,
    ← List.take_add, List.drop_drop, Nat.add_assoc]

/-- Settles O42: the cycles in which DLYCNT counts, and the last one. -/
theorem delayExact : Obligations.DelayExact := by
  unfold Obligations.DelayExact
  intro s c k j next hq hc hk hm hcnt hnext
  refine ⟨fun i hi => ?_, run_delay_to_next hq hc hk hm hcnt hnext⟩
  rw [← hcnt] at hi ⊢
  exact run_counts i (QuietFor.of_le hq (by omega)) hc hm (by omega) hi

/-! ### WAIT -/

/-- The delays in the order of their selectors (30_encoding.md R84). -/
def delaysBySelector : List Delay := [.setup, .hold, .sample, .wb, .whr, .adl, .ccs, .row, .ww, .rtc, .ar, .por]

theorem selectDelay_eq (sel : BitVec 4) : selectDelay sel = delaysBySelector[sel.toNat]? := by
  revert sel; decide

theorem waitSeq_of_selectDelay {c : Config} {sel : BitVec 4} {d : Delay} (h : selectDelay sel = some d) :
    waitSeq c sel = wait c d := by
  rw [waitSeq, h]

/-- WAIT of a selector that names a delay lasts for the delay, and for one cycle if that is 0 (41_timing.md R125). -/
theorem wait_completesIn {s : State} {sel : BitVec 4} {d : Delay} (hb : s.busy = false)
    (hsel : selectDelay sel = some d) (hq : s.QuietFor (max 1 (delayOf s.cfg d))) :
    CompletesIn (.wait sel) s (max 1 (delayOf s.cfg d)) (s.ranFor (max 1 (delayOf s.cfg d))) := by
  have hseq : expand (.wait sel) s = wait s.cfg d := waitSeq_of_selectDelay hsel
  have hdom : sel.toNat ≤ 11 := by simpa [hsel] using selectDelay_isSome sel
  refine completes_of (i := .wait sel) hb hdom ?_ hq (.inl ?_) ?_ ?_ <;> rw [hseq]
  · rw [seqCost_wait]
  · exact (all_wait s.cfg _ d).2 (unsynced_dly ..)
  · rw [capCount_wait]; exact Nat.zero_le _
  · rw [runMicros_wait]; exact ranFor_of ..

/-- Settles O13: the delay that a selector names is the entry of the table. -/
theorem waitResult : Obligations.WaitResult := by
  unfold Obligations.WaitResult
  intro s sel k hb hk hq
  have htable : (delaysBySelector.map (delayOf s.cfg))[sel.toNat]? = some k := hk
  rw [List.getElem?_map, ← selectDelay_eq, Option.map_eq_some_iff] at htable
  obtain ⟨d, hsel, rfl⟩ := htable
  exact wait_completesIn hb hsel hq

end Sys2Proof.Machine
end

section
/-! PROOFS. What the phase operations leave (42_phase_engine.md R136 to R141): each takes the cycles of its sequence
(70_reset_and_hazards.md R257) and leaves the lines at idle and PHASE Idle; receiveData leaves its bytes in RXBUF
too. -/

namespace Sys2Proof.Machine

/-! ### The phases that wait for nothing but their delays -/

theorem unsynced_writeByte (c : Config) (b : Byte) : ∀ m ∈ writeByte c b, Unsynced m :=
  (all_writeByte c _ b).2 ⟨unsynced_dly .., unsynced_lines .., unsynced_lines .., unsynced_dly .., unsynced_lines ..⟩

theorem unsynced_sendAddress (c : Config) (a : List Byte) : ∀ m ∈ sendAddress c a, Unsynced m :=
  (all_sendAddress c _ a).2 ⟨unsynced_lines .., fun b _ => unsynced_writeByte c b, unsynced_lines .., unsynced_lines ..⟩

theorem unsynced_sendData (c : Config) (d : List Byte) : ∀ m ∈ sendData c d, Unsynced m :=
  (all_sendData c _ d).2 ⟨unsynced_lines .., fun b _ => unsynced_writeByte c b, unsynced_lines ..⟩

/-- The `n` address bytes of an operation, where ABUF holds as many (30_encoding.md R91). -/
theorem addressBytes_length {s : State} {n : Nat} (h : n ≤ s.aLen) : (addressBytes s n).length = n :=
  List.length_take_of_le h

/-! ### The operations -/

/-- An operation that waits for nothing but its delays, captures nothing and leaves the lines at idle: after the cycles
of its sequence it is complete. -/
theorem completesIn_ranIdle {i : Instr} {s : State} {n : Nat} (hb : s.busy = false) (hd : DomainOk i s)
    (hk : completionOf i = .plain) (hcost : seqCost (expand i s) = n) (hpos : 1 ≤ n) (hq : s.QuietFor n)
    (hu : ∀ m ∈ expand i s, Unsynced m) (hcap : capCount (expand i s) = 0)
    (hrun : ∀ t : State, runMicros (expand i s) s.inputs (t.onPins s.busOut s.dir s.phase []) =
      t.onPins (idleLines s.cfg s.busOut) s.dir .idle []) : CompletesIn i s n (s.ranIdle n) := by
  refine completes_of hb hd (hcost ▸ Nat.max_eq_right (hcost ▸ hpos)) hq (.inl hu) (hcap.trans_le (Nat.zero_le _)) ?_
  rw [accept_onPins, hrun, hk]
  exact ranIdle_of ..

/-- Settles O15: the command cycle that a wire command runs too. -/
theorem sendcmdResult : Obligations.SendcmdResult := by
  unfold Obligations.SendcmdResult
  rintro s b n hb rfl hq
  exact sendcmd_completesIn b hb hq

/-- Settles O16: the sequence restores the lines to idle from wherever its address bytes leave them. -/
theorem sendaddrResult : Obligations.SendaddrResult := by
  unfold Obligations.SendaddrResult
  rintro s k n hb h5 hlen rfl hq
  have hcost : seqCost (expand (.sendaddr k) s) = addrCycles s.cfg k.toNat :=
    (seqCost_sendAddress s.cfg _).trans (congrArg (addrCycles s.cfg) (addressBytes_length hlen))
  have hpos : 1 ≤ addrCycles s.cfg k.toNat := by rw [addrCycles]; omega
  exact completesIn_ranIdle (i := .sendaddr k) hb ⟨h5, hlen⟩ rfl hcost hpos hq (unsynced_sendAddress s.cfg _)
    (capCount_sendAddress s.cfg _) fun t => runMicros_sendAddress s.cfg t ..

/-- Settles O17: the sequence restores the lines to idle from wherever its data bytes leave them. -/
theorem senddataResult : Obligations.SenddataResult := by
  unfold Obligations.SenddataResult
  rintro s n hb rfl hq
  have hpos : 1 ≤ dataCycles s.cfg s.txLen := by rw [dataCycles]; omega
  exact completesIn_ranIdle (i := .senddata) hb trivial rfl (seqCost_sendData s.cfg s.txbuf) hpos hq
    (unsynced_sendData s.cfg _) (capCount_sendData s.cfg _) fun t => runMicros_sendData s.cfg t ..

/-- Settles O18: the loop of receiveData begins 3 cycles after its first micro-operation, and its CAPs append to the
RXBUF that acceptance has emptied. -/
theorem recvdataResult : Obligations.RecvdataResult := by
  unfold Obligations.RecvdataResult
  rintro s n hb hlen rfl hr
  obtain ⟨hq, _⟩ := id hr
  have hseq : expand .recvdata s = receiveData s.cfg s.len.toNat := rfl
  have hpos : 1 ≤ recvCycles s.cfg s.len.toNat := by rw [recvCycles]; omega
  refine completes_of (i := .recvdata) hb hlen ?_ hq (.inr hr) ?_ ?_ <;> rw [hseq]
  · rw [seqCost_receiveData, Nat.max_eq_right hpos]
  · rwa [capCount_receiveData]
  · rw [accept_onPins, runMicros_receiveData, List.nil_append, loopBytes_samples s 0 s.len.toNat 3 rfl]
    exact ranReceived_of ..

end Sys2Proof.Machine
end

section
/-! PROOFS. BUS_OUT and DIR in every cycle of the phase operations (42_phase_engine.md R136 to R139): the pins along the
sequence of each, from idle lines. -/

namespace Sys2Proof.Machine

/-! ### The pins along a run -/

/-- The pins after a number of cycles are that entry of the pins after each cycle. -/
theorem pinTrace_getElem? {s u : State} {k n : Nat} (hk : k < n) (h : runSteps (k + 1) s = .next u) :
    (pinTrace n s)[k]? = some u.pins := by
  induction k generalizing s n with
  | zero =>
    obtain ⟨n, rfl⟩ := Nat.exists_eq_add_one.2 hk
    obtain ⟨t, hs, ht⟩ := runSteps_succ_inv h
    obtain rfl : t = u := Host.Outcome.next.inj ht
    simp only [pinTrace, hs, List.getElem?_cons_zero]
  | succ k ih =>
    obtain ⟨n, rfl⟩ := Nat.exists_eq_add_one.2 (Nat.zero_lt_of_lt hk)
    obtain ⟨t, hs, ht⟩ := runSteps_succ_inv h
    simp only [pinTrace, hs, List.getElem?_cons_succ]
    exact ih (Nat.lt_of_succ_lt_succ hk) ht

/-- One entry a cycle (70_reset_and_hazards.md R257). -/
theorem pinsRun_length (p : Pins) (seq : List MicroStep) : (pinsRun p seq).length = seqCost seq := by
  induction seq generalizing p with
  | nil => rfl
  | cons m r ih =>
    obtain ⟨op, q⟩ := m
    rw [seqCost_cons, Nat.add_comm]
    cases op with
    | dly k => rw [pinsRun, List.length_append, List.length_replicate, ih, Nat.add_comm, microCost]
    | _ => exact congrArg (· + 1) (ih _)

theorem QuietFor.noReset {s : State} {n : Nat} (h : s.QuietFor n) : s.NoResetFor n := by
  obtain ⟨hlen, hquiet⟩ := h
  exact ⟨hlen, fun i hi => (hquiet i hi).1⟩

/-- The pins in a cycle of an operation whose pins are known. -/
theorem Draws.pins_eq {i : Instr} {s t u : State} {tr : List Pins} {k : Nat} (h : Draws i s tr)
    (hin : s.NoResetFor tr.length) (he : exec i s = .next t) (hk : k < tr.length)
    (hrun : runSteps (k + 1) t = .next u) : tr[k]? = some u.pins := by
  obtain ⟨t', _, he', _, htrace, _⟩ := h hin
  obtain rfl : t' = t := Host.Outcome.next.inj (he'.symm.trans he)
  rw [← htrace]
  exact pinTrace_getElem? hk hrun

/-! ### A command cycle from the idle word, cycle by cycle -/

/-- The micro-operations of sendCommand before the idle restore, the only one that depends on DATA_IDLE. -/
def commandBody (c : Config) (b : Byte) : List MicroStep := (sendCommand c b).dropLast

theorem sendCommand_eq (c : Config) (b : Byte) : sendCommand c b = commandBody c b ++ [restoreIdle c] := rfl

theorem seqCost_commandBody (c : Config) (b : Byte) : seqCost (commandBody c b) + 1 = cmdCycles c := by
  have hcost := seqCost_sendCommand c b
  rwa [sendCommand_eq, seqCost_append] at hcost

/-- The pins of the command cycle before the idle restore, from any data on the data field. -/
theorem pinsRun_commandBody (c : Config) (wp : Bool) (d b : Byte) :
    pinsRun (driving wp 0x3300#14 d) (commandBody c b) =
      [driving wp 0x2900#14 d] ++ List.replicate (1 + c.tSetup) (driving wp 0x2900#14 b) ++
        List.replicate (1 + c.tHold) (driving wp 0x2B00#14 b) ++ [driving wp 0x2300#14 b] := by
  obtain ⟨hdraw, _⟩ := draw_sendCommand { c with dataIdle := d } wp b
  have hbody : commandBody { c with dataIdle := d } b = commandBody c b := rfl
  rw [sendCommand_eq, hbody, pinsRun_append, commandTrace,
    List.append_cons _ (driving wp 0x2300#14 b)] at hdraw
  exact List.append_inj_left' hdraw rfl

/-- A byte on a data field that is 0. -/
theorem driving_eq_add {w : Latch} (b : Byte) (hw : w &&& mD = 0#14) :
    driving true w b = { out := w + b.setWidth 14, dir := 0x3FFF#15 } := by
  have hmask : mD = (BitVec.allOnes 8).setWidth 14 := rfl
  have hbyte : mD &&& b.setWidth 14 = b.setWidth 14 := by
    rw [hmask, ← BitVec.setWidth_and, BitVec.allOnes_and]
  have hand : w &&& b.setWidth 14 = 0#14 := by rw [← hbyte, ← BitVec.and_assoc, hw, BitVec.zero_and]
  rw [BitVec.add_eq_or_of_and_eq_zero _ _ hand]
  rfl

/-- BUS_OUT in cycle `k` of a command cycle that starts from 0x3300 (42_phase_engine.md R136). -/
def commandWord (c : Config) (b : Byte) (k : Nat) : Latch :=
  if k = 0 then 0x3300#14 else if k = 1 then 0x2900#14
  else if k ≤ 2 + c.tSetup then 0x2900#14 + b.setWidth 14
  else if k ≤ 3 + c.tSetup + c.tHold then 0x2B00#14 + b.setWidth 14
  else 0x2300#14 + b.setWidth 14

/-- The pins after cycle `k`, that is in cycle `k + 1`, of a command cycle before its idle restore. -/
theorem commandBody_getElem? (c : Config) (b : Byte) {k : Nat} (hk : k + 2 ≤ cmdCycles c) :
    (pinsRun (driving true 0x3300#14 0x00#8) (commandBody c b))[k]? =
      some { out := commandWord c b (k + 1), dir := 0x3FFF#15 } := by
  rw [cmdCycles] at hk
  rw [pinsRun_commandBody, driving_eq_add (w := 0x2900#14) b (by decide), driving_eq_add (w := 0x2B00#14) b (by decide),
    driving_eq_add (w := 0x2300#14) b (by decide)]
  simp only [List.getElem?_append, List.getElem?_replicate, List.length_append, List.length_replicate,
    List.length_singleton, commandWord]
  -- the stages of R136: the latch lines, the byte with WE low, the byte with WE high, CLE low
  have hstage : k = 0 ∨ (1 ≤ k ∧ k ≤ 1 + c.tSetup) ∨ (2 + c.tSetup ≤ k ∧ k ≤ 2 + c.tSetup + c.tHold) ∨
      k = 3 + c.tSetup + c.tHold := by omega
  rcases hstage with rfl | ⟨hlo, hhi⟩ | ⟨hlo, hhi⟩ | rfl
  · simp (disch := omega) only [if_pos, if_neg]
    rfl
  · simp (disch := omega) only [if_pos, if_neg]
  · simp (disch := omega) only [if_pos, if_neg]
  · have hlast : 3 + c.tSetup + c.tHold - (1 + (1 + c.tSetup) + (1 + c.tHold)) = 0 := by omega
    simp (disch := omega) only [if_neg, hlast, List.getElem?_cons_zero]

/-- The pins in a cycle of a command cycle from 0x3300 with every line driven. -/
theorem sendcmd_pins {s t u : State} {b : Byte} {k : Nat} (hb : s.busy = false)
    (hpins : s.pins = ⟨0x3300#14, 0x3FFF#15⟩) (hq : s.QuietFor (cmdCycles s.cfg))
    (he : exec (.sendcmd b) s = .next t) (hk : k < cmdCycles s.cfg) (hrun : runSteps k t = .next u) :
    u.pins = ⟨commandWord s.cfg b k, 0x3FFF#15⟩ := by
  cases k with
  | zero =>
    obtain rfl : t = u := Host.Outcome.next.inj hrun
    obtain rfl : _ = t := Host.Outcome.next.inj ((exec_accepts (i := .sendcmd b) hb trivial).symm.trans he)
    exact hpins
  | succ k =>
    have hdraws : Draws (.sendcmd b) s (pinsRun s.pins (sendCommand s.cfg b)) :=
      draws_of (i := .sendcmd b) hb trivial (capCount_sendCommand s.cfg b ▸ Nat.zero_le _) rfl (List.cons_ne_nil _ _)
        (.inl fun m hm => (unsynced_sendCommand s.cfg b m hm).1)
    have hlen : (pinsRun s.pins (sendCommand s.cfg b)).length = cmdCycles s.cfg := by
      rw [pinsRun_length, seqCost_sendCommand]
    have hbody : k < (pinsRun s.pins (commandBody s.cfg b)).length := by
      have hcost := seqCost_commandBody s.cfg b
      rw [pinsRun_length]
      omega
    have hu := hdraws.pins_eq (hlen ▸ QuietFor.noReset hq) he (hlen ▸ Nat.lt_of_succ_lt hk) hrun
    rw [sendCommand_eq, pinsRun_append, List.getElem?_append_left hbody, hpins] at hu
    exact Option.some.inj (hu.symm.trans (commandBody_getElem? s.cfg b hk))

/-! ### The operations from idle lines -/

/-- An operation whose sequence has these pins from idle lines, on a ready device or without a POLL, draws them. -/
theorem draws_from_idle {i : Instr} {s : State} {wp : Bool} {tr : List Pins} (hb : s.busy = false) (hl : s.IdleLines wp)
    (hd : DomainOk i s) (hcap : capCount (expand i s) ≤ s.cfg.rxDepth) (htr : DrawsAs s.cfg wp (expand i s) tr)
    (hne : tr ≠ []) (hp : (∀ m ∈ expand i s, Unsynced m) ∨ s.DeviceReady tr.length) : Draws i s tr := by
  obtain ⟨hrun, _⟩ := htr
  exact draws_of hb hd hcap ((congrArg (pinsRun · _) hl).trans hrun) hne (hp.imp_left fun hu m hm => (hu m hm).1)

theorem draws_wire {i : Instr} {b : Byte} (h : encode i = .wire b) {s : State} {tr : List Pins} :
    Draws i s tr ↔ Draws (.sendcmd b) s tr := by
  rw [Draws, Draws, exec_wire h]

section
variable {s : State} {wp : Bool} (hb : s.busy = false) (hl : s.IdleLines wp)
include hb hl

theorem sendcmd_draws (b : Byte) : Draws (.sendcmd b) s (commandTrace s.cfg wp b) :=
  draws_from_idle (i := .sendcmd b) hb hl trivial (capCount_sendCommand s.cfg b ▸ Nat.zero_le _)
    (draw_sendCommand s.cfg wp b) (List.cons_ne_nil _ _) (.inl (unsynced_sendCommand s.cfg b))

theorem sendaddr_draws {n : BitVec 3} (h5 : n.toNat ≤ 5) (hlen : n.toNat ≤ s.aLen) :
    Draws (.sendaddr n) s (addressTrace s.cfg wp (addressBytes s n.toNat)) :=
  draws_from_idle (i := .sendaddr n) hb hl ⟨h5, hlen⟩ (capCount_sendAddress s.cfg _ ▸ Nat.zero_le _)
    (draw_sendAddress s.cfg wp _) (List.cons_ne_nil _ _) (.inl (unsynced_sendAddress s.cfg _))

theorem senddata_draws : Draws .senddata s (dataTrace s.cfg wp s.txbuf) :=
  draws_from_idle (i := .senddata) hb hl trivial (capCount_sendData s.cfg _ ▸ Nat.zero_le _)
    (draw_sendData s.cfg wp _) (List.cons_ne_nil _ _) (.inl (unsynced_sendData s.cfg _))

theorem recvdata_draws (hlen : s.len.toNat ≤ s.cfg.rxDepth) :
    DrawsReady .recvdata s (receiveTrace s.cfg wp s.len.toNat) := fun hready =>
  draws_from_idle (i := .recvdata) hb hl hlen ((capCount_receiveData s.cfg _).trans_le hlen)
    (draw_receiveData s.cfg wp _) (List.cons_ne_nil _ _) (.inr hready)

end

/-- Settles O38: the command cycle from 0x3300 a cycle at a time, and the pins of every phase from idle lines. -/
theorem commandLines : Obligations.CommandLines := by
  unfold Obligations.CommandLines
  refine ⟨fun s t b k u hb hout hdir hq he hk hrun => ?_, fun s wp hb hl => ?_⟩
  · have hpins : s.pins = ⟨0x3300#14, 0x3FFF#15⟩ := by rw [State.pins, hout, hdir]
    have hu := sendcmd_pins hb hpins hq he hk hrun
    exact ⟨(congrArg Pins.dir hu).trans hdir.symm, congrArg Pins.out hu⟩
  · exact ⟨sendcmd_draws hb hl, fun i b h => (draws_wire (encode_of_decodeWire h)).2 (sendcmd_draws hb hl b),
      fun n => sendaddr_draws hb hl, senddata_draws hb hl, recvdata_draws hb hl⟩

end Sys2Proof.Machine
end

section
/-! PROOFS. A cycle of CAP (42_phase_engine.md R140): the byte of PIN goes to RXBUF. -/

namespace Sys2Proof.Machine

/-- A byte whose bits are the data bits of PIN (10_state.md R25) is the byte that a CAP stores. -/
theorem pinData_eq_of_bits {s : State} {levels : Latch} {b : Byte}
    (h : ∀ i, i < 8 → b.getLsbD i = if s.dir.getLsbD i then s.busOut.getLsbD i else levels.getLsbD i) :
    s.pinData levels = b :=
  BitVec.eq_of_getLsbD_eq fun i hi => (pinData_getLsbD s levels hi).trans (h i hi).symm

/-- Settles O41: CAP ends in the cycle in which it is current, and appends the data bits of PIN. -/
theorem captureCycle : Obligations.CaptureCycle := by
  unfold Obligations.CaptureCycle
  intro s c q j next b hq hc hm hnext hroom hb
  rw [← pinData_eq_of_bits hb]
  exact step_to_next hq hc hm nofun rfl (fun _ => hroom) hnext

end Sys2Proof.Machine
end

section
/-! PROOFS. What no phase operation moves: write-protect and the direction of the control lines (42_phase_engine.md
R142, 10_state.md R24). Each micro-operation of the operation leaves them alone, so its run does, whatever the device
and the host do. -/

namespace Sys2Proof.Machine

/-! ### What every micro-operation of an operation leaves alone -/

/-- The micro-operation leaves what `f` reads off the pins as it was. -/
def Leaves {α : Type} (f : Pins → α) (m : MicroStep) : Prop := ∀ p, f (pinsAfter p m.op) = f p

/-- What every micro-operation of an operation leaves alone is as before throughout its run, up to its end. -/
theorem exec_run_leaves {α : Type} {f : Pins → α} {i : Instr} {s t u : State} {n : Nat}
    (hf : ∀ m ∈ expand i s, Leaves f m) (hb : s.busy = false) (he : exec i s = .next t) (hin : t.NoResetFor n)
    (hrun : runSteps n t = .next u) (hbusy : ∀ k, k < n → ∀ v, runSteps k t = .next v → v.busy = true) :
    f u.pins = f s.pins := by
  have hkept : KeptBy fun p _ l => f p = f s.pins ∧ ∀ m ∈ l, Leaves f m := fun p _ m r ⟨hp, hl⟩ =>
    ⟨(hl m List.mem_cons_self p).trans hp, fun x hx => hl x (List.mem_cons_of_mem _ hx)⟩
  obtain ⟨⟨hu, _⟩, _⟩ := exec_run_keeps hkept hb he hin hrun hbusy ⟨rfl, hf⟩ ⟨rfl, nofun⟩
  exact hu

/-! ### The direction of the control lines -/

/-- DIR[14:8]. -/
def Pins.controlDir (p : Pins) : BitVec 7 := p.dir.extractLsb' 8 7

theorem lit_getLsbD_7F00 {i : Nat} (h8 : 8 ≤ i) (h15 : i < 15) : (0x7F00#15).getLsbD i = true := by
  interval_cases i <;> rfl

theorem lit_getLsbD_00FF {i : Nat} (h8 : 8 ≤ i) (h15 : i < 15) : (0x00FF#15).getLsbD i = false := by
  interval_cases i <;> rfl

/-- DIRD writes the data field alone (40_bus_interface.md R113). -/
theorem dirWithData_control (e : Direction) (d : Lines15) :
    (dirWithData e d).extractLsb' 8 7 = d.extractLsb' 8 7 := by
  apply BitVec.eq_of_getLsbD_eq
  intro i hi
  have h15 : 8 + i < 15 := by omega
  rw [BitVec.getLsbD_extractLsb', BitVec.getLsbD_extractLsb']
  cases e with
  | output => rw [dirWithData, BitVec.getLsbD_or, lit_getLsbD_00FF (Nat.le_add_right ..) h15, Bool.or_false]
  | input => rw [dirWithData, BitVec.getLsbD_and, lit_getLsbD_7F00 (Nat.le_add_right ..) h15, Bool.and_true]

/-- A micro-operation other than DIRALL leaves the direction of the control lines alone. -/
theorem leaves_controlDir {m : MicroStep} (h : ∀ v, m.op ≠ .dirAll v) : Leaves Pins.controlDir m := by
  obtain ⟨op, q⟩ := m
  intro p
  cases op with
  | dirD d => exact dirWithData_control d p.dir
  | dirAll v => exact absurd rfl (h v)
  | _ => rfl

/-- DIRALL stands in INIT alone (44_lifecycle.md R165). -/
theorem expand_no_dirAll {i : Instr} (s : State) (hi : i ≠ .init) : ∀ m ∈ expand i s, ∀ v, m.op ≠ .dirAll v :=
  all_expand (fun m => ∀ v, m.op ≠ .dirAll v) i s (hinit := fun h => absurd h hi) (hsetline := fun _ _ _ => nofun)
    (hrdl := fun _ _ => nofun) (hsetdir := fun _ _ => nofun) (hperase := fun _ => nofun) (hdly := fun _ => nofun)
    (hdata := fun _ => nofun) (hcmd := nofun) (hadr := nofun) (hdout := nofun) (hdin := ⟨nofun, nofun, nofun⟩)
    (hwe := ⟨nofun, nofun⟩) (hre := ⟨nofun, nofun⟩) (hle := ⟨nofun, nofun⟩) (hidle := nofun) (hpoll := nofun)
    (hcap := nofun) (hrdd := nofun)

/-! ### Write-protect -/

/-- BUS_OUT[8]. -/
def Pins.wp (p : Pins) : Bool := p.out.getLsbD 8

theorem leaves_wp_lines {mask : Latch} (val : Latch) (q : Option Phase)
    (h : mask.getLsbD 8 = false := by decide) : Leaves Pins.wp ⟨.lines mask val, q⟩ :=
  fun p => muxLines_wp val p.out h

theorem leaves_wp_of_still {m : MicroStep} (h : ∀ p, (pinsAfter p m.op).out = p.out) : Leaves Pins.wp m :=
  fun p => congrArg (·.getLsbD 8) (h p)

/-- The mask of SETLINE on another line leaves bit 8 out (40_bus_interface.md R115). -/
theorem lineMask_wp {l : BitVec 4} (h : l ≠ 8#4) : (1#14 <<< l.toNat).getLsbD 8 = false := by
  revert l; decide

/-- No operation but INIT and SETLINE 8 holds a LINES that writes write-protect (42_phase_engine.md R142). -/
theorem expand_leaves_wp {i : Instr} (s : State) (hi : i ≠ .init) (h8 : ∀ v, i ≠ .setline 8#4 v) :
    ∀ m ∈ expand i s, Leaves Pins.wp m := by
  have hstill : ∀ m : MicroStep, (∀ p, (pinsAfter p m.op).out = p.out) → Leaves Pins.wp m := fun _ => leaves_wp_of_still
  exact all_expand (Leaves Pins.wp) i s (hinit := fun h => absurd h hi)
    (hsetline := fun l v h => leaves_wp_lines _ _ (lineMask_wp fun hl => h8 v (hl ▸ h)))
    (hrdl := fun _ _ => hstill _ fun _ => rfl) (hsetdir := fun _ _ => hstill _ fun _ => rfl)
    (hperase := fun _ => hstill _ fun _ => rfl) (hdly := fun _ => hstill _ fun _ => rfl)
    (hdata := fun _ => leaves_wp_lines _ _) (hcmd := leaves_wp_lines _ _) (hadr := leaves_wp_lines _ _)
    (hdout := leaves_wp_lines _ _) (hdin := ⟨hstill _ fun _ => rfl, leaves_wp_lines _ _, hstill _ fun _ => rfl⟩)
    (hwe := ⟨leaves_wp_lines _ _, leaves_wp_lines _ _⟩) (hre := ⟨leaves_wp_lines _ _, leaves_wp_lines _ _⟩)
    (hle := ⟨leaves_wp_lines _ _, leaves_wp_lines _ _⟩) (hidle := leaves_wp_lines _ _)
    (hpoll := hstill _ fun _ => rfl) (hcap := hstill _ fun _ => rfl) (hrdd := hstill _ fun _ => rfl)

/-- Settles O54: DIRALL is INIT's alone, and no LINES of another operation but SETLINE 8 writes write-protect. -/
theorem writeProtectKept : Obligations.WriteProtectKept := by
  unfold Obligations.WriteProtectKept
  intro i s t n u hi hb he hin hrun hbusy
  have hdir : ∀ m ∈ expand i s, Leaves Pins.controlDir m := fun m hm => leaves_controlDir (expand_no_dirAll s hi m hm)
  exact ⟨exec_run_leaves hdir hb he hin hrun hbusy,
    fun h8 => exec_run_leaves (expand_leaves_wp s hi h8) hb he hin hrun hbusy⟩

end Sys2Proof.Machine
end

section
/-! PROOFS. No transition between two phases (42_phase_engine.md R135, 10_state.md R31): the invariant says so of the
rest of a running sequence, and a step does one micro-operation of it at most. -/

namespace Sys2Proof.Machine

/-- The rest of a running sequence, past its delays of 0, goes through Idle between phases. -/
theorem State.Running.phasesOk_pastZeros {s : State} {c : CurOp} (hc : s.cur = some c) (h : s.Running c) :
    PhasesOk s.phase (pastZeros s.rest) := by
  have hruns := (running_iff.1 h).1
  rw [rest_of_some hc]
  exact phasesOk_drop_zeroRun (fun m hm => hruns.micros m (List.mem_of_mem_drop hm)) hruns.phases

/-- A micro-operation leaves PHASE, or its update leaves Idle or returns to it. -/
theorem PhasesOk.head {p : Phase} {m : MicroStep} {r : List MicroStep} (h : PhasesOk p (m :: r)) :
    m.phase.getD p = p ∨ p = .idle ∨ m.phase.getD p = .idle := by
  rw [PhasesOk] at h
  cases hm : m.phase with
  | none => exact .inl rfl
  | some q =>
    rw [hm] at h
    obtain ⟨hidle, _⟩ := h
    exact .inr hidle

/-- Settles O55, by cases on rst, which leaves PHASE Idle, and on whether an operation runs: with none PHASE is Idle. -/
theorem phaseThroughIdle : Obligations.PhaseThroughIdle := by
  unfold Obligations.PhaseThroughIdle
  intro s t h hs
  cases hr : s.input.rst with
  | true =>
    obtain rfl : s.hwReset = t := Host.Outcome.next.inj ((step_rst hr).symm.trans hs)
    exact .inr (.inr s.hwReset_phase)
  | false =>
    cases hc : s.cur with
    | none =>
      obtain ⟨_, hidle, _⟩ := (inv_idle hc).1 h
      exact .inr (.inl hidle)
    | some c =>
      obtain ⟨_, hrunning⟩ := (inv_running hc).1 h
      obtain ⟨hmoves, _⟩ := step_moves hc hr hs
      cases hmoves with
      | holds _ _ hphase => exact .inl hphase
      | ends m r hrest _ _ hphase =>
        have hok := hrunning.phasesOk_pastZeros hc
        rw [hrest] at hok
        rw [hphase]
        exact hok.head

end Sys2Proof.Machine
end

section
/-! PROOFS. The ready wait (43_ready_busy.md R156 to R158): a POLL passes on in the first cycle in which RB_S is 1;
until then it holds the sequencer, for ever if the device never becomes ready. -/

namespace Sys2Proof.Machine

/-! ### A POLL in a sequence -/

/-- A running operation in a POLL has POLLST at PollWait (10_state.md R33) and nothing to count (R34). -/
theorem State.Running.at_poll {s : State} {c : CurOp} {q : Option Phase} (h : s.Running c)
    (hm : c.seq[s.seqPc]? = some ⟨.poll, q⟩) : s.pollSt = .wait ∧ s.dlyCnt = 0 := by
  obtain ⟨_, hpoll, hdly⟩ := running_iff.1 h
  rw [hm] at hpoll hdly
  exact ⟨hpoll, hdly⟩

/-- Settles O43: the invariant loads POLLST with the POLL; at RB_S = 0 the POLL holds, at RB_S = 1 it passes on. -/
theorem pollCycle : Obligations.PollCycle := by
  unfold Obligations.PollCycle
  intro s c j next hq hc hm hnext
  refine ⟨fun hinv => ?_, fun hlow hcnt => ?_, fun hhigh => ?_⟩
  · obtain ⟨_, hrunning⟩ := (inv_running hc).1 hinv
    obtain ⟨hwait, _⟩ := hrunning.at_poll hm
    exact hwait
  · rw [step_to_hold hq hc hm nofun hlow, hcnt]
    rfl
  · exact step_to_next hq hc hm nofun hhigh nofun hnext

/-! ### WAITRDY -/

/-- Settles O14: the accepted sequence is one POLL, whose run `run_poll` gives. -/
theorem waitrdyResult : Obligations.WaitrdyResult := by
  unfold Obligations.WaitrdyResult
  intro s n hb hq hlow hhigh
  have haccept : exec .waitrdy s = .next (s.accept .waitrdy waitReady .plain) := exec_accepts hb trivial
  have hrun := run_poll n (s.accept .waitrdy waitReady .plain) rfl rfl rfl rfl rfl hq hlow hhigh
  exact ⟨_, haccept, rfl, hrun.trans (congrArg _ (ranFor_of s .waitrdy waitReady (n + 1)))⟩

/-! ### A device that never becomes ready -/

/-- A synchroniser that holds one level only stays as it is when that level is shifted in. -/
theorem dropLast_cons_of_forall_eq {b : Bool} {l : List Bool} (h : ∀ x ∈ l, x = b) : (b :: l).dropLast = l := by
  obtain ⟨n, rfl⟩ : ∃ n, l = List.replicate n b := ⟨_, List.eq_replicate_of_mem h⟩
  rw [← List.replicate_succ, List.dropLast_replicate, Nat.add_sub_cancel]

/-- RB_S is 0 while every stage of the synchroniser is. -/
theorem rbS_of_low {s : State} (h : ∀ b ∈ s.rbSync, b = false) : s.rbS = false :=
  (List.mem_cons.1 List.getLastD_mem_cons).elim id (h _)

/-- At RB_S = 0 the cycle of a POLL changes nothing (43_ready_busy.md R156). -/
theorem seqCycle_poll_low {s : State} {c : CurOp} {q : Option Phase} (levels : Latch) (hc : s.cur = some c)
    (hm : c.seq[s.seqPc]? = some ⟨.poll, q⟩) (hcnt : s.dlyCnt = 0) (hlow : s.rbS = false) :
    s.seqCycle levels = .next s := by
  have hcount : s.dlyCnt - 1 = s.dlyCnt := by omega
  rw [seqCycle_at levels hc (drop_eq_cons hm) (zeroRun_cons_eq_zero.2 nofun),
    microCycle_hold (m := ⟨.poll, q⟩) levels hlow, hcount]

/-- A cycle without reset in a POLL, the synchroniser all 0 and `rb` low: whatever the host does, only OVERRUN, the read
port and the clock move. -/
theorem step_hung {s : State} {c : CurOp} {q : Option Phase} (hc : s.cur = some c)
    (hm : c.seq[s.seqPc]? = some ⟨.poll, q⟩) (hcnt : s.dlyCnt = 0) (hsync : ∀ b ∈ s.rbSync, b = false)
    (hr : s.input.rst = false) (hrb : s.input.rb = false) :
    ∃ (o : Bool) (r : Word), step s = .next { s with
      overrun := o, rData := r, inputs := s.inputs.tail, cycle := s.cycle + 1 } := by
  obtain ⟨o, r, hstep⟩ := step_busy hc hr
  have hcycle := seqCycle_poll_low (s := { s with overrun := o, rData := r }) s.input.levels hc hm hcnt
    (rbS_of_low hsync)
  refine ⟨o, r, ?_⟩
  rw [hstep, hcycle]
  simp only [andThen, State.tick, hrb, dropLast_cons_of_forall_eq hsync]

/-- Any number of such cycles: the state after each of them is as before in all that `step_hung` asks of it. -/
theorem run_hung {c : CurOp} {q : Option Phase} (n : Nat) {s : State} (hc : s.cur = some c)
    (hm : c.seq[s.seqPc]? = some ⟨.poll, q⟩) (hcnt : s.dlyCnt = 0) (hsync : ∀ b ∈ s.rbSync, b = false)
    (hin : s.NoResetFor n) (hrb : ∀ i ∈ s.inputs.take n, i.rb = false) :
    ∃ (o : Bool) (r : Word), runSteps n s = .next { s with
      overrun := o, rData := r, inputs := s.inputs.drop n, cycle := s.cycle + n } := by
  induction n generalizing s with
  | zero => exact ⟨s.overrun, s.rData, rfl⟩
  | succ n ih =>
    obtain ⟨i, rest, hi, hii, hr⟩ := NoResetFor.head hin
    rw [hi] at hrb
    obtain ⟨hlow, hrest⟩ := List.forall_mem_cons.1 hrb
    obtain ⟨o, r, hstep⟩ := step_hung hc hm hcnt hsync (hii ▸ hr) (hii ▸ hlow)
    obtain ⟨o', r', hrun⟩ := ih
      (s := { s with overrun := o, rData := r, inputs := s.inputs.tail, cycle := s.cycle + 1 })
      hc hm hcnt hsync (NoResetFor.tail hin rfl) (by rwa [hi])
    refine ⟨o', r', ?_⟩
    rw [runSteps_succ n hstep, hrun, List.drop_tail, Nat.add_assoc, Nat.add_comm 1 n]

/-- Settles O44: the invariant says that a POLL has nothing to count, the rest is `run_hung`. -/
theorem hangForever : Obligations.HangForever := by
  unfold Obligations.HangForever
  intro n s c q hinv hin hc hm hsync hrb
  obtain ⟨_, hrunning⟩ := (inv_running hc).1 hinv
  obtain ⟨_, hcnt⟩ := hrunning.at_poll hm
  exact run_hung n hc hm hcnt hsync hin hrb

end Sys2Proof.Machine
end

section
/-! PROOFS. The device lifecycle (44_lifecycle.md R165 to R167): what INIT, RESET and RESETLUN leave on a ready device,
the bus cycles they show, and their pins cycle by cycle. -/

namespace Sys2Proof.Machine

/-! ### INIT in two parts -/

/-- INIT drives the idle lines in two writes of the pins; what follows finds the lines at idle (44_lifecycle.md R165). -/
theorem initSeq_eq (c : Config) :
    initSeq c = plainStep (.lines 0x3FFF#14 (idleWord c)) :: plainStep (.dirAll 0x3FFF#14) ::
      (wait c .por ++ waitReady ++ deviceReset c) := rfl

/-- LINES under the mask of every line (40_bus_interface.md R112). -/
theorem muxLines_all (val old : Latch) : muxLines 0x3FFF#14 val old = val := by
  have hnone : ~~~(0x3FFF#14) = 0#14 := by decide
  have hall : 0x3FFF#14 = BitVec.allOnes 14 := by decide
  rw [muxLines, hnone, BitVec.and_zero, BitVec.zero_or, hall, BitVec.and_allOnes]

/-- DIRALL with every line driven (10_state.md R24). -/
theorem dirWithAll_all : dirWithAll 0x3FFF#14 = 0x3FFF#15 := by decide

/-- IDLE is the idle word of the traces with write-protect at its parameter (10_state.md R27). -/
theorem idleWord_eq_lineWord (c : Config) : idleWord c = lineWord c.wpIdle 0x3300#14 c.dataIdle := by
  rw [idleWord, lineWord]
  cases c.wpIdle <;> rfl

/-- The lines of IDLE are at idle. -/
theorem idleLines_idleWord (c : Config) : idleLines c (idleWord c) = idleWord c := by
  rw [idleWord_eq_lineWord, lineWord_idle c _ _ (by decide)]

/-! ### Cycles, captures and effect of the sequences -/

section
variable (c : Config) (a : List Byte)

@[simp] theorem seqCost_deviceReset : seqCost (deviceReset c) = cmdCycles c + c.tWb + 1 := by
  simp [deviceReset, delayOf, Nat.add_assoc]

@[simp] theorem seqCost_resetLunSeq : seqCost (resetLunSeq c a) = cmdCycles c + addrCycles c a.length + c.tWb + 1 := by
  simp [resetLunSeq, delayOf, Nat.add_assoc]

@[simp] theorem seqCost_initSeq : seqCost (initSeq c) = 2 + c.tPor + 1 + cmdCycles c + c.tWb + 1 := by
  simp only [initSeq_eq, plainStep, seqCost_cons, seqCost_append, seqCost_wait, seqCost_waitReady, seqCost_deviceReset,
    microCost, delayOf]
  omega

@[simp] theorem capCount_deviceReset : capCount (deviceReset c) = 0 := by
  simp [deviceReset]

@[simp] theorem capCount_resetLunSeq : capCount (resetLunSeq c a) = 0 := by
  simp [resetLunSeq]

@[simp] theorem capCount_initSeq : capCount (initSeq c) = 0 := by
  simp [initSeq_eq, plainStep]

variable (ins : List Input) (s : State) (o : Latch) (d : Lines15) (p : Phase) (rx : List Byte)

/-- reset() leaves the lines at idle and PHASE Idle (44_lifecycle.md R166). -/
@[simp] theorem runMicros_deviceReset :
    runMicros (deviceReset c) ins (s.onPins o d p rx) = s.onPins (idleLines c o) d .idle rx := by
  simp [deviceReset, runMicros_append]

/-- So does resetLUN (44_lifecycle.md R167). -/
@[simp] theorem runMicros_resetLunSeq :
    runMicros (resetLunSeq c a) ins (s.onPins o d p rx) = s.onPins (idleLines c o) d .idle rx := by
  simp [resetLunSeq, runMicros_append]

/-- INIT leaves BUS_OUT = IDLE and every line driven, whatever the lines and the direction were
(44_lifecycle.md R165). -/
@[simp] theorem runMicros_initSeq :
    runMicros (initSeq c) ins (s.onPins o d p rx) = s.onPins (idleWord c) 0x3FFF#15 .idle rx := by
  simp only [initSeq_eq, plainStep, runMicros_cons, effectOf_lines, effectOf_dirAll, muxLines_all, dirWithAll_all,
    runMicros_append, runMicros_wait, runMicros_waitReady, runMicros_deviceReset, idleLines_idleWord]

end

/-! ### What the operations leave -/

/-- An operation that captures nothing, on a ready device: after the cycles of its sequence it is complete, its pins
where the sequence leaves them. -/
theorem completesIn_onPins {i : Instr} {s : State} {n : Nat} {o : Latch} {d : Lines15} (hb : s.busy = false)
    (hd : DomainOk i s) (hk : completionOf i = .plain) (hcost : seqCost (expand i s) = n) (hpos : 1 ≤ n)
    (hr : s.ReadyFor n) (hcap : capCount (expand i s) = 0)
    (hrun : ∀ t : State, runMicros (expand i s) s.inputs (t.onPins s.busOut s.dir s.phase []) = t.onPins o d .idle []) :
    CompletesIn i s n { s.ranFor n with busOut := o, dir := d, phase := .idle } := by
  obtain ⟨hq, _⟩ := id hr
  refine completes_of hb hd (hcost ▸ Nat.max_eq_right (hcost ▸ hpos)) hq (.inr hr) (hcap.trans_le (Nat.zero_le _)) ?_
  rw [accept_onPins, hrun, hk]
  rfl

/-- Settles O20: INIT overwrites the pins before its reset(). -/
theorem initResult : Obligations.InitResult := by
  unfold Obligations.InitResult
  rintro s n hb rfl hr
  exact completesIn_onPins (i := .init) hb trivial rfl (seqCost_initSeq s.cfg) (Nat.le_add_left ..) hr
    (capCount_initSeq s.cfg) fun t => runMicros_initSeq s.cfg _ t ..

/-- Settles O21: both sequences end with a phase operation, which restores the lines to idle, and a ready wait. -/
theorem resetResult : Obligations.ResetResult := by
  unfold Obligations.ResetResult
  refine fun s n hb hr => ⟨?_, fun hlen => ?_⟩
  · rintro rfl
    exact completesIn_onPins (i := .reset) hb trivial rfl (seqCost_deviceReset s.cfg) (Nat.le_add_left ..) hr
      (capCount_deviceReset s.cfg) fun t => runMicros_deviceReset s.cfg _ t ..
  · rintro rfl
    have hcost : seqCost (expand .resetlun s) = cmdCycles s.cfg + addrCycles s.cfg 3 + s.cfg.tWb + 1 := by
      rw [← addressBytes_length hlen]
      exact seqCost_resetLunSeq s.cfg _
    exact completesIn_onPins (i := .resetlun) hb hlen rfl hcost (Nat.le_add_left ..) hr
      (capCount_resetLunSeq s.cfg _) fun t => runMicros_resetLunSeq s.cfg _ _ t ..

/-! ### Their pins cycle by cycle -/

theorem draws_resetLunSeq (c : Config) (wp : Bool) (a : List Byte) :
    DrawsAs c wp (resetLunSeq c a) (commandTrace c wp 0xFA#8 ++ addressTrace c wp a ++ holdTrace c wp (c.tWb + 1)) := by
  rw [resetLunSeq, List.append_assoc _ (wait c .wb)]
  exact (DrawsAs.append (draw_sendCommand ..) (draw_sendAddress ..)).append (draws_wait_ready c wp .wb)

/-- The pins in INIT, from any lines and direction: the lines take IDLE first, then they are driven. -/
theorem pinsRun_initSeq (c : Config) (p : Pins) :
    pinsRun p (initSeq c) = [{ out := lineWord c.wpIdle 0x3300#14 c.dataIdle, dir := p.dir }] ++
      holdTrace c c.wpIdle (1 + c.tPor + 1) ++ resetTrace c c.wpIdle := by
  have hlines : pinsAfter p (.lines 0x3FFF#14 (idleWord c)) = ⟨lineWord c.wpIdle 0x3300#14 c.dataIdle, p.dir⟩ := by
    rw [pinsAfter, muxLines_all, idleWord_eq_lineWord]
  have hdriven : pinsAfter ⟨lineWord c.wpIdle 0x3300#14 c.dataIdle, p.dir⟩ (.dirAll 0x3FFF#14) =
      driving c.wpIdle 0x3300#14 c.dataIdle := congrArg (Pins.mk _) dirWithAll_all
  obtain ⟨hrest, _⟩ := (draws_wait_ready c c.wpIdle .por).append (draws_deviceReset c c.wpIdle)
  rw [Nat.add_assoc, holdTrace_add c _ 1]
  simp only [initSeq_eq, plainStep, pinsRun, hlines, hdriven, hrest]
  rfl

section
variable {s : State} (hb : s.busy = false)
include hb

/-- INIT draws its pins from any lines and direction (44_lifecycle.md R165). -/
theorem init_draws :
    DrawsReady .init s ([{ out := lineWord s.cfg.wpIdle 0x3300#14 s.cfg.dataIdle, dir := s.dir }] ++
      holdTrace s.cfg s.cfg.wpIdle (1 + s.cfg.tPor + 1) ++ resetTrace s.cfg s.cfg.wpIdle) := fun hready =>
  draws_of (i := .init) hb trivial ((capCount_initSeq s.cfg).trans_le (Nat.zero_le _)) (pinsRun_initSeq s.cfg s.pins)
    (List.cons_ne_nil _ _) (.inr hready)

variable {wp : Bool} (hl : s.IdleLines wp)
include hl

theorem reset_draws : DrawsReady .reset s (resetTrace s.cfg wp) := fun hready =>
  draws_from_idle (i := .reset) hb hl trivial ((capCount_deviceReset s.cfg).trans_le (Nat.zero_le _))
    (draws_deviceReset s.cfg wp) (List.cons_ne_nil _ _) (.inr hready)

theorem resetlun_draws (hlen : 3 ≤ s.aLen) :
    DrawsReady .resetlun s (commandTrace s.cfg wp 0xFA#8 ++ addressTrace s.cfg wp (addressBytes s 3) ++
      holdTrace s.cfg wp (s.cfg.tWb + 1)) := fun hready =>
  draws_from_idle (i := .resetlun) hb hl hlen ((capCount_resetLunSeq s.cfg _).trans_le (Nat.zero_le _))
    (draws_resetLunSeq s.cfg wp _) (List.cons_ne_nil _ _) (.inr hready)

end

/-- Settles O33: the bus cycles of each sequence, and its pins, those of INIT from any lines and direction. -/
theorem lifecycleShow : Obligations.LifecycleShow := by
  unfold Obligations.LifecycleShow
  refine fun s hb => ⟨⟨?_, init_draws hb⟩, fun (hd : s.pins.dir = dirOut) => ⟨?_, fun hlen => ?_⟩, fun wp hl =>
    ⟨reset_draws hb hl, resetlun_draws hb hl⟩⟩
  · exact shows_of (i := .init) hb trivial (wire_initSeq s.cfg)
  · obtain ⟨hwire, _⟩ := wire_deviceReset s.cfg hd
    exact shows_of (i := .reset) hb trivial hwire
  · exact shows_of (i := .resetlun) hb hlen (wire_resetLunSeq s.cfg (addressBytes s 3) hd)

end Sys2Proof.Machine
end

section
/-! PROOFS. Identification and status (45_ident_status.md R175 to R181): each operation is an opening, which leaves the
lines at idle, and a receiveData; what they leave on a ready device, the bus cycles they show, and their pins cycle by
cycle. -/

namespace Sys2Proof.Machine

/-! ### An opening and a receiveData -/

/-- What stands before the receiveData of an operation: it takes `o` cycles, captures nothing, and leaves the lines at
idle and PHASE Idle. -/
structure OpensIn (c : Config) (q : List MicroStep) (o : Nat) : Prop where
  cost : seqCost q = o
  captures : capCount q = 0
  restores : ∀ (ins : List Input) (s : State) (out : Latch) (d : Lines15) (p : Phase) (rx : List Byte),
    runMicros q ins (s.onPins out d p rx) = s.onPins (idleLines c out) d .idle rx

theorem OpensIn.seqCost_receive {c : Config} {q : List MicroStep} {o : Nat} (h : OpensIn c q o) (k : Nat) :
    seqCost (q ++ receiveData c k) = o + recvCycles c k := by
  rw [seqCost_append, h.cost, seqCost_receiveData]

theorem OpensIn.capCount_receive {c : Config} {q : List MicroStep} {o : Nat} (h : OpensIn c q o) (k : Nat) :
    capCount (q ++ receiveData c k) = k := by
  rw [capCount_append, h.captures, capCount_receiveData, Nat.zero_add]

/-- An opening and a receiveData leave the bytes sampled after the opening (42_phase_engine.md R139). -/
theorem OpensIn.runMicros_receive {s : State} {q : List MicroStep} {o : Nat} (h : OpensIn s.cfg q o) (t : State)
    (k : Nat) :
    runMicros (q ++ receiveData s.cfg k) s.inputs (t.onPins s.busOut s.dir s.phase []) =
      t.onPins (idleLines s.cfg s.busOut) (dirWithData .output s.dir) .idle (s.samples o k) := by
  rw [runMicros_append, h.restores, runMicros_receiveData, idleLines_idleLines, List.nil_append, h.cost, List.drop_drop,
    loopBytes_samples s o k (o + 3) rfl]

/-- An operation that is an opening and a receiveData, on a ready device: it completes after the cycles of the two, and
its completion action finds the bytes in RXBUF. -/
theorem OpensIn.completesIn {i : Instr} {s u : State} {q : List MicroStep} {o k n : Nat} (h : OpensIn s.cfg q o)
    (hseq : expand i s = q ++ receiveData s.cfg k) (hb : s.busy = false) (hd : DomainOk i s) (hroom : k ≤ s.cfg.rxDepth)
    (hn : n = o + recvCycles s.cfg k) (hr : s.ReadyFor n)
    (hu : { ((s.accept (runningOp i) (expand i s) (completionOf i)).onPins (idleLines s.cfg s.busOut)
              (dirWithData .output s.dir) .idle (s.samples o k)).complete (completionOf i) with
            rbSync := syncAfter s.rbSync (s.inputs.take n)
            inputs := s.inputs.drop n
            cycle := s.cycle + n } = u) : CompletesIn i s n u := by
  obtain ⟨hq, _⟩ := id hr
  have hcost : seqCost (expand i s) = n := by rw [hseq, h.seqCost_receive, hn]
  have hpos : 1 ≤ n := by rw [hn, recvCycles]; omega
  have hcap : capCount (expand i s) = k := by rw [hseq, h.capCount_receive]
  have hrun := h.runMicros_receive (s.accept (runningOp i) (expand i s) (completionOf i)) k
  rw [← hseq, ← accept_onPins] at hrun
  exact completes_of hb hd (hcost ▸ Nat.max_eq_right (hcost ▸ hpos)) hq (.inr hr) (hcap.trans_le hroom) (hrun ▸ hu)

/-! ### The openings -/

/-- The opening of an ID read (45_ident_status.md R175 to R177). -/
def readIdOpening (c : Config) (column : Byte) : List MicroStep :=
  waitReady ++ sendCommand c 0x90#8 ++ sendAddress c [column] ++ wait c .adl

/-- The opening of readUniqueId (45_ident_status.md R178). -/
def readUniqueIdOpening (c : Config) : List MicroStep :=
  sendCommand c 0xED#8 ++ sendAddress c [0x00#8] ++ wait c .wb ++ wait c .ar ++ wait c .row ++ waitReady

/-- The opening of readStatus (45_ident_status.md R180). -/
def readStatusOpening (c : Config) : List MicroStep := sendCommand c 0x70#8 ++ wait c .whr

/-- The opening of readStatusEnhanced (45_ident_status.md R181; log 13). -/
def readStatusEnhancedOpening (c : Config) (a : List Byte) : List MicroStep :=
  sendCommand c 0x78#8 ++ sendAddress c a ++ wait c .whr

section
variable (c : Config)

theorem readId_eq (column : Byte) (n : Nat) : readId c column n = readIdOpening c column ++ receiveData c n := rfl

theorem readUniqueIdSeq_eq : readUniqueIdSeq c = readUniqueIdOpening c ++ receiveData c 32 := rfl

theorem readStatus_eq : readStatus c = readStatusOpening c ++ receiveData c 1 := rfl

theorem readStatusEnhancedSeq_eq (a : List Byte) :
    readStatusEnhancedSeq c a = readStatusEnhancedOpening c a ++ receiveData c 1 := rfl

theorem readIdOpening_opensIn (column : Byte) :
    OpensIn c (readIdOpening c column) (1 + cmdCycles c + addrCycles c 1 + c.tAdl) where
  cost := by simp [readIdOpening, delayOf, Nat.add_assoc]
  captures := by simp [readIdOpening]
  restores := by simp [readIdOpening, runMicros_append]

theorem readUniqueIdOpening_opensIn :
    OpensIn c (readUniqueIdOpening c) (cmdCycles c + addrCycles c 1 + c.tWb + c.tAr + c.tRow + 1) where
  cost := by simp [readUniqueIdOpening, delayOf, Nat.add_assoc]
  captures := by simp [readUniqueIdOpening]
  restores := by simp [readUniqueIdOpening, runMicros_append]

theorem readStatusOpening_opensIn : OpensIn c (readStatusOpening c) (cmdCycles c + c.tWhr) where
  cost := by simp [readStatusOpening, delayOf]
  captures := by simp [readStatusOpening]
  restores := by simp [readStatusOpening, runMicros_append]

theorem readStatusEnhancedOpening_opensIn (a : List Byte) :
    OpensIn c (readStatusEnhancedOpening c a) (cmdCycles c + addrCycles c a.length + c.tWhr) where
  cost := by simp [readStatusEnhancedOpening, delayOf, Nat.add_assoc]
  captures := by simp [readStatusEnhancedOpening]
  restores := by simp [readStatusEnhancedOpening, runMicros_append]

end

/-! ### The ID reads -/

/-- Settles O22: the three operations are readId with a column and a number of bytes of their own, none above 32. -/
theorem idReadResult : Obligations.IdReadResult := by
  unfold Obligations.IdReadResult
  rintro s i k o n hb hdepth hik rfl hn hr
  obtain ⟨column, hseq, hk, hdom, hkind⟩ : ∃ column, expand i s = readId s.cfg column k ∧ k ≤ 32 ∧ DomainOk i s ∧
      completionOf i = .plain := by
    simp only [List.mem_cons, Prod.mk.injEq, List.not_mem_nil, or_false] at hik
    rcases hik with ⟨rfl, rfl⟩ | ⟨rfl, rfl⟩ | ⟨rfl, rfl⟩
    · exact ⟨0x00#8, rfl, by decide, trivial, rfl⟩
    · exact ⟨0x20#8, rfl, by decide, trivial, rfl⟩
    · exact ⟨0x40#8, rfl, by decide, trivial, rfl⟩
  refine (readIdOpening_opensIn s.cfg column).completesIn (hseq.trans (readId_eq ..)) hb hdom (hk.trans hdepth) hn hr ?_
  rw [hkind]
  exact ranReceived_of ..

/-! ### The unique ID -/

/-- A pair is valid when its bytes are complements (10_state.md R48). -/
theorem uidPairValid_iff {rx : List Byte} {i : Nat} :
    uidPairValid rx i = true ↔ rx.getD i 0#8 ^^^ rx.getD (16 + i) 0#8 = 0xFF#8 := beq_iff_eq

/-- The check finds nothing where every pair is valid (45_ident_status.md R179). -/
theorem uidMismatch_eq_none {rx : List Byte} (h : ∀ i, i < 16 → uidPairValid rx i = true) : uidMismatch rx = none := by
  rw [uidMismatch, List.find?_range_eq_none]
  intro i hi
  rw [h i hi]
  rfl

/-- The check finds the first pair that is not valid (45_ident_status.md R179). -/
theorem uidMismatch_eq_some {rx : List Byte} {i : Nat} (hi : i < 16) (h : uidPairValid rx i = false)
    (hbefore : ∀ j, j < i → uidPairValid rx j = true) : uidMismatch rx = some i := by
  rw [uidMismatch, List.find?_range_eq_some]
  refine ⟨by rw [h]; rfl, List.mem_range.2 hi, fun j hj => ?_⟩
  rw [hbefore j hj]
  rfl

/-- UIDIDX is bits 12:8 of RES (10_state.md R42). -/
theorem resWithUidIdx_zero {i : Nat} (hi : i < 16) : resWithUidIdx 0#16 i = BitVec.ofNat 16 (256 * i) := by
  interval_cases i <;> rfl

/-- readUniqueId on a ready device leaves the first 16 of its 32 bytes and the result of the check
(45_ident_status.md R178, R179). -/
theorem rduid_completesIn {s : State} {n : Nat} (hb : s.busy = false) (hdepth : 32 ≤ s.cfg.rxDepth) {o : Nat}
    (ho : o = cmdCycles s.cfg + addrCycles s.cfg 1 + s.cfg.tWb + s.cfg.tAr + s.cfg.tRow + 1)
    (hn : n = o + recvCycles s.cfg 32) (hr : s.ReadyFor n) :
    CompletesIn .rduid s n { s.ranReceived n ((s.samples o 32).take 16) with
      uidWarn := (uidMismatch (s.samples o 32)).isSome
      res := resWithUidIdx 0#16 ((uidMismatch (s.samples o 32)).getD 0) } :=
  (ho ▸ readUniqueIdOpening_opensIn s.cfg).completesIn (i := .rduid) (readUniqueIdSeq_eq s.cfg) hb trivial hdepth hn hr
    (ranUid_of ..)

/-- Settles O23: the check finds no pair, or the first that is not valid. -/
theorem rduidResult : Obligations.RduidResult := by
  unfold Obligations.RduidResult
  rintro s o n rx hb hdepth ho hn hr rfl
  have hrun := rduid_completesIn hb hdepth ho hn hr
  refine ⟨fun hall => ?_, fun i hi hbad hbefore => ?_⟩
  · rw [uidMismatch_eq_none fun i hi => uidPairValid_iff.2 (hall i hi)] at hrun
    exact hrun
  · rw [uidMismatch_eq_some hi (Bool.eq_false_iff.2 (mt uidPairValid_iff.1 hbad))
      fun j hj => uidPairValid_iff.2 (hbefore j hj)] at hrun
    rw [← resWithUidIdx_zero hi]
    exact hrun

/-! ### The status byte -/

/-- The one byte of receiveData(1). -/
theorem samples_one (s : State) (o : Nat) : s.samples o 1 = [s.sample (o + 4 + s.cfg.tSample)] := by
  simp [State.samples]

/-- An operation that is an opening and a receiveData of one byte, its status byte, on a ready device
(45_ident_status.md R180). -/
theorem OpensIn.completesIn_status {i : Instr} {s : State} {q : List MicroStep} {o n : Nat} (h : OpensIn s.cfg q o)
    (hseq : expand i s = q ++ receiveData s.cfg 1) (hk : completionOf i = .status) (hb : s.busy = false)
    (hd : DomainOk i s) (hdepth : 32 ≤ s.cfg.rxDepth) (hn : n = o + recvCycles s.cfg 1) (hr : s.ReadyFor n) :
    CompletesIn i s n { s.ranReceived n [s.sample (o + 4 + s.cfg.tSample)] with
      res := (s.sample (o + 4 + s.cfg.tSample)).setWidth 16 } := by
  refine h.completesIn hseq hb hd ((by decide : 1 ≤ 32).trans hdepth) hn hr ?_
  rw [hk, samples_one, ← resWithByte_zero]
  exact ranStatus_of ..

/-- Settles O24: both read one status byte, each after its own opening. -/
theorem statusResult : Obligations.StatusResult := by
  unfold Obligations.StatusResult
  refine fun s n b hb hdepth => ⟨?_, fun hlen => ?_⟩
  · rintro rfl hr rfl
    exact (readStatusOpening_opensIn s.cfg).completesIn_status (i := .rdstatus) (readStatus_eq s.cfg) rfl hb trivial
      hdepth rfl hr
  · rintro rfl hr rfl
    have hopen := readStatusEnhancedOpening_opensIn s.cfg (addressBytes s 3)
    rw [addressBytes_length hlen] at hopen
    exact hopen.completesIn_status (i := .rdstatuse) (readStatusEnhancedSeq_eq s.cfg _) rfl hb hlen hdepth
      (by rw [statusCycles]; omega) hr

/-! ### The bus cycles -/

section
variable (c : Config) {p : Pins} (hd : p.dir = dirOut)
include hd

/-- readUniqueId shows 0xED, the address 0x00 and 32 data-in cycles (45_ident_status.md R178). -/
theorem wire_readUniqueIdSeq :
    wire p (readUniqueIdSeq c) = [.command 0xED#8, .address 0x00#8] ++ dataInCycles 32 := by
  simp [readUniqueIdSeq, wire_append, wire_sendCommand, pinsEnd_sendCommand, wire_sendAddress,
    wire_receiveData, Pins.rest_re, addressCycles, hd]

/-- readStatusEnhanced shows 0x78, its address and one data-in cycle (45_ident_status.md R181; log 13). -/
theorem wire_readStatusEnhancedSeq (a : List Byte) :
    wire p (readStatusEnhancedSeq c a) = [.command 0x78#8] ++ addressCycles a ++ [.dataIn] := by
  simp [readStatusEnhancedSeq, wire_append, wire_sendCommand, pinsEnd_sendCommand, wire_sendAddress,
    wire_receiveData, Pins.rest_re, dataInCycles, hd]

end

/-! ### The pins cycle by cycle -/

section
variable (c : Config) (wp : Bool)

theorem draws_readUniqueIdSeq :
    DrawsAs c wp (readUniqueIdSeq c) (commandTrace c wp 0xED#8 ++ addressTrace c wp [0x00#8] ++
      holdTrace c wp (c.tWb + c.tAr + c.tRow + 1) ++ receiveTrace c wp 32) := by
  have hhold : DrawsAs c wp (wait c .wb ++ wait c .ar ++ wait c .row ++ waitReady)
      (holdTrace c wp (c.tWb + c.tAr + c.tRow + 1)) := by
    simp only [holdTrace_add]
    exact ((DrawsAs.append (draw_wait c wp .wb) (draw_wait c wp .ar)).append (draw_wait c wp .row)).append
      (draw_waitReady c wp)
  have hseq : readUniqueIdSeq c = sendCommand c 0xED#8 ++ sendAddress c [0x00#8] ++
      (wait c .wb ++ wait c .ar ++ wait c .row ++ waitReady) ++ receiveData c 32 := by
    simp only [readUniqueIdSeq, List.append_assoc]
  rw [hseq]
  exact ((DrawsAs.append (draw_sendCommand ..) (draw_sendAddress ..)).append hhold).append (draw_receiveData ..)

theorem draws_readStatusEnhancedSeq (a : List Byte) :
    DrawsAs c wp (readStatusEnhancedSeq c a) (commandTrace c wp 0x78#8 ++ addressTrace c wp a ++
      holdTrace c wp c.tWhr ++ receiveTrace c wp 1) :=
  ((DrawsAs.append (draw_sendCommand ..) (draw_sendAddress ..)).append (draw_wait c wp .whr)).append
    (draw_receiveData ..)

end

/-- From idle lines and on a ready device, an operation that is an opening and a receiveData draws the pins of its
sequence. -/
theorem OpensIn.drawsReady {i : Instr} {s : State} {q : List MicroStep} {o k : Nat} {wp : Bool} {tr : List Pins}
    (h : OpensIn s.cfg q o) (hseq : expand i s = q ++ receiveData s.cfg k) (hb : s.busy = false) (hl : s.IdleLines wp)
    (hd : DomainOk i s) (hroom : k ≤ s.cfg.rxDepth) (htr : DrawsAs s.cfg wp (expand i s) tr) : DrawsReady i s tr := by
  intro hready
  have hcap : capCount (expand i s) = k := by rw [hseq, h.capCount_receive]
  have hlen : tr.length = o + recvCycles s.cfg k := by
    obtain ⟨hrun, _⟩ := htr
    rw [← hrun, pinsRun_length, hseq, h.seqCost_receive]
  have hne : tr ≠ [] := List.ne_nil_of_length_pos (by rw [hlen, recvCycles]; omega)
  exact draws_from_idle hb hl hd (hcap.trans_le hroom) htr hne (.inr hready)

/-- Settles O34: the bus cycles of each sequence, and its pins from idle lines. -/
theorem identStatusShow : Obligations.IdentStatusShow := by
  unfold Obligations.IdentStatusShow
  refine fun s hb => ⟨fun (hd : s.pins.dir = dirOut) => ?_, fun wp hl hdepth => ?_⟩
  · obtain ⟨hstatus, _⟩ := wire_readStatus s.cfg hd
    exact ⟨shows_of (i := .rdmfid) hb trivial (wire_readId s.cfg _ _ hd),
      shows_of (i := .rdonfiid) hb trivial (wire_readId s.cfg _ _ hd),
      shows_of (i := .rdjedecid) hb trivial (wire_readId s.cfg _ _ hd),
      shows_of (i := .rduid) hb trivial (wire_readUniqueIdSeq s.cfg hd),
      shows_of (i := .rdstatus) hb trivial hstatus,
      fun hlen => shows_of (i := .rdstatuse) hb hlen (wire_readStatusEnhancedSeq s.cfg hd (addressBytes s 3))⟩
  · have hroom : ∀ k, k ≤ 32 → k ≤ s.cfg.rxDepth := fun k hk => hk.trans hdepth
    have hid := readIdOpening_opensIn s.cfg
    exact ⟨(hid _).drawsReady (i := .rdmfid) (readId_eq ..) hb hl trivial (hroom 8 (by decide)) (draws_readId ..),
      (hid _).drawsReady (i := .rdonfiid) (readId_eq ..) hb hl trivial (hroom 4 (by decide)) (draws_readId ..),
      (hid _).drawsReady (i := .rdjedecid) (readId_eq ..) hb hl trivial (hroom 5 (by decide)) (draws_readId ..),
      (readUniqueIdOpening_opensIn s.cfg).drawsReady (i := .rduid) (readUniqueIdSeq_eq _) hb hl trivial hdepth
        (draws_readUniqueIdSeq ..),
      (readStatusOpening_opensIn s.cfg).drawsReady (i := .rdstatus) (readStatus_eq _) hb hl trivial
        (hroom 1 (by decide)) (draws_readStatus ..),
      fun hlen => (readStatusEnhancedOpening_opensIn s.cfg _).drawsReady (i := .rdstatuse)
        (readStatusEnhancedSeq_eq ..) hb hl hlen (hroom 1 (by decide)) (draws_readStatusEnhancedSeq ..)⟩

end Sys2Proof.Machine
end

section
/-! PROOFS. The Array Operations as compositions: openings and pauses one after another, which leave the lines at idle
(42_phase_engine.md R141), and receiving sequences, which leave their bytes in RXBUF too. -/

namespace Sys2Proof.Machine

/-! ### Openings and pauses -/

/-- A delay or a ready wait: it takes `k` cycles, captures nothing and writes nothing. -/
structure PausesFor (q : List MicroStep) (k : Nat) : Prop where
  cost : seqCost q = k
  captures : capCount q = 0
  still : ∀ (ins : List Input) (s : State), runMicros q ins s = s

theorem dly_pausesFor (k : Nat) : PausesFor [plainStep (.dly k)] k :=
  ⟨by simp [plainStep, microCost], by simp [plainStep], fun ins s => runMicros_dly s ins k⟩

theorem wait_pausesFor (c : Config) (e : Delay) : PausesFor (wait c e) (delayOf c e) := dly_pausesFor _

theorem waitReady_pausesFor : PausesFor waitReady 1 := ⟨rfl, rfl, fun _ _ => rfl⟩

section
variable (c : Config)

theorem sendCommand_opensIn (b : Byte) : OpensIn c (sendCommand c b) (cmdCycles c) :=
  ⟨seqCost_sendCommand c b, capCount_sendCommand c b, fun ins s o d p rx => runMicros_sendCommand c s o d p rx ins b⟩

theorem sendAddress_opensIn (a : List Byte) : OpensIn c (sendAddress c a) (addrCycles c a.length) :=
  ⟨seqCost_sendAddress c a, capCount_sendAddress c a, fun ins s o d p rx => runMicros_sendAddress c s o d p rx ins a⟩

theorem sendData_opensIn (d : List Byte) : OpensIn c (sendData c d) (dataCycles c d.length) :=
  ⟨seqCost_sendData c d, capCount_sendData c d, fun ins s o e p rx => runMicros_sendData c s o e p rx ins d⟩

end

section
variable {c : Config} {q r : List MicroStep} {m n : Nat}

theorem OpensIn.append (h : OpensIn c q m) (h' : OpensIn c r n) : OpensIn c (q ++ r) (m + n) where
  cost := by rw [seqCost_append, h.cost, h'.cost]
  captures := by rw [capCount_append, h.captures, h'.captures]
  restores ins s out d p rx := by rw [runMicros_append, h.restores, h'.restores, idleLines_idleLines]

theorem OpensIn.pause (h : OpensIn c q m) (h' : PausesFor r n) : OpensIn c (q ++ r) (m + n) where
  cost := by rw [seqCost_append, h.cost, h'.cost]
  captures := by rw [capCount_append, h.captures, h'.captures]
  restores ins s out d p rx := by rw [runMicros_append, h'.still, h.restores]

theorem PausesFor.append (h : PausesFor q m) (h' : OpensIn c r n) : OpensIn c (q ++ r) (m + n) where
  cost := by rw [seqCost_append, h.cost, h'.cost]
  captures := by rw [capCount_append, h.captures, h'.captures]
  restores ins s out d p rx := by rw [runMicros_append, h.still, h'.restores]

theorem OpensIn.of_cost (h : OpensIn c q m) (hn : n = m) : OpensIn c q n := hn ▸ h

/-- Openings of the same cycles, one for each element of a list, before another one. -/
theorem OpensIn.flatMap_append {α : Type} {l : List α} {f : α → List MicroStep} (h : ∀ x ∈ l, OpensIn c (f x) m)
    (h' : OpensIn c r n) : OpensIn c (l.flatMap f ++ r) (l.length * m + n) := by
  induction l with
  | nil => simpa using h'
  | cons x l ih =>
    have hrest := ih fun y hy => h y (List.mem_cons_of_mem x hy)
    rw [List.flatMap_cons, List.append_assoc]
    exact ((h x List.mem_cons_self).append hrest).of_cost (by rw [List.length_cons, Nat.succ_mul]; omega)

end

/-! ### The sequences -/

section
variable (c : Config) (a : List Byte)

/-- readPage (46_array_ops.md R190). -/
theorem readPage_opensIn :
    OpensIn c (readPage c a) (1 + cmdCycles c + addrCycles c a.length + cmdCycles c + c.tWb + 1) :=
  ((((waitReady_pausesFor.append (sendCommand_opensIn c _)).append (sendAddress_opensIn c a)).append
    (sendCommand_opensIn c _)).pause (wait_pausesFor c .wb)).pause waitReady_pausesFor

/-- changeReadColumn (46_array_ops.md R191). -/
theorem changeReadColumnSeq_opensIn :
    OpensIn c (changeReadColumnSeq c a) (c.tRtc + cmdCycles c + addrCycles c a.length + cmdCycles c + c.tCcs) :=
  ((((wait_pausesFor c .rtc).append (sendCommand_opensIn c _)).append (sendAddress_opensIn c a)).append
    (sendCommand_opensIn c _)).pause (wait_pausesFor c .ccs)

/-- changeWriteColumn and changeRowAddress, which differ in the delay after the address alone (46_array_ops.md R192,
R193; log 16). -/
def changeWriteSeq (e : Delay) : List MicroStep := wait c .ww ++ sendCommand c 0x85#8 ++ sendAddress c a ++ wait c e

theorem changeWriteColumnSeq_eq : changeWriteColumnSeq c a = changeWriteSeq c a .ccs := rfl

theorem changeRowAddressSeq_eq : changeRowAddressSeq c a = changeWriteSeq c a .row := rfl

theorem changeWriteSeq_opensIn (e : Delay) :
    OpensIn c (changeWriteSeq c a e) (c.tWw + cmdCycles c + addrCycles c a.length + delayOf c e) :=
  (((wait_pausesFor c .ww).append (sendCommand_opensIn c _)).append (sendAddress_opensIn c a)).pause
    (wait_pausesFor c e)

/-- A page of a program operation (46_array_ops.md R194, R195). -/
theorem programBody_opensIn {a : List Byte} (ha : a.length = 5) (d : List Byte) (b : Byte) :
    OpensIn c (programBody c a d b) (programCycles c d.length) := by
  have hbody := ((((((sendCommand_opensIn c 0x80#8).append (sendAddress_opensIn c a)).pause
    (wait_pausesFor c .adl)).append (sendData_opensIn c d)).append (sendCommand_opensIn c b)).pause
    (wait_pausesFor c .wb)).pause waitReady_pausesFor
  refine hbody.of_cost ?_
  rw [programCycles, ha, delayOf, delayOf]
  omega

/-- The opening of the erase operations before its confirm byte (46_array_ops.md R196, R197). -/
def eraseSetup : List MicroStep := waitReady ++ sendCommand c 0x60#8 ++ sendAddress c a

theorem eraseOpening_eq : eraseOpening c a = eraseSetup c a ++ sendCommand c 0xD0#8 := rfl

theorem eraseSetup_opensIn : OpensIn c (eraseSetup c a) (1 + cmdCycles c + addrCycles c a.length) :=
  (waitReady_pausesFor.append (sendCommand_opensIn c _)).append (sendAddress_opensIn c a)

theorem eraseOpening_opensIn :
    OpensIn c (eraseOpening c a) (1 + cmdCycles c + addrCycles c a.length + cmdCycles c) :=
  (eraseSetup_opensIn c a).append (sendCommand_opensIn c _)

theorem deviceReset_opensIn : OpensIn c (deviceReset c) (cmdCycles c + c.tWb + 1) :=
  ((sendCommand_opensIn c _).pause (wait_pausesFor c .wb)).pause waitReady_pausesFor

/-- partialEraseBlock (46_array_ops.md R197). -/
theorem partialEraseSeq_opensIn (k : Nat) :
    OpensIn c (partialEraseSeq c a k) (1 + cmdCycles c + addrCycles c a.length + cmdCycles c + k * c.peIterCycles +
      (cmdCycles c + c.tWb + 1)) :=
  ((eraseOpening_opensIn c a).pause (dly_pausesFor _)).append (deviceReset_opensIn c)

end

/-! ### What they wait for -/

theorem unsynced_append {q r : List MicroStep} (hq : ∀ m ∈ q, Unsynced m) (hr : ∀ m ∈ r, Unsynced m) :
    ∀ m ∈ q ++ r, Unsynced m :=
  List.forall_mem_append.2 ⟨hq, hr⟩

theorem unsynced_wait (c : Config) (e : Delay) : ∀ m ∈ wait c e, Unsynced m := (all_wait c _ e).2 (unsynced_dly ..)

section
variable (c : Config) (a : List Byte)

theorem unsynced_changeReadColumnSeq : ∀ m ∈ changeReadColumnSeq c a, Unsynced m :=
  unsynced_append (unsynced_append (unsynced_append (unsynced_append (unsynced_wait c _) (unsynced_sendCommand c _))
    (unsynced_sendAddress c a)) (unsynced_sendCommand c _)) (unsynced_wait c _)

theorem unsynced_changeWriteSeq (e : Delay) : ∀ m ∈ changeWriteSeq c a e, Unsynced m :=
  unsynced_append (unsynced_append (unsynced_append (unsynced_wait c _) (unsynced_sendCommand c _))
    (unsynced_sendAddress c a)) (unsynced_wait c e)

end

/-! ### The operations that receive nothing -/

/-- An operation that is an opening: after its cycles it is complete, its lines at idle. -/
theorem OpensIn.completesIn_ranIdle {i : Instr} {s : State} {n : Nat} (h : OpensIn s.cfg (expand i s) n) (hpos : 1 ≤ n)
    (hk : completionOf i = .plain) (hb : s.busy = false) (hd : DomainOk i s) (hq : s.QuietFor n)
    (hr : (∀ m ∈ expand i s, Unsynced m) ∨ s.ReadyFor n) : CompletesIn i s n (s.ranIdle n) := by
  refine completes_of hb hd (h.cost ▸ Nat.max_eq_right (h.cost ▸ hpos)) hq hr (h.captures.trans_le (Nat.zero_le _)) ?_
  rw [accept_onPins, h.restores, hk]
  exact ranIdle_of ..

theorem one_le_cmdCycles (c : Config) : 1 ≤ cmdCycles c := by rw [cmdCycles]; omega

/-- Settles O25: readPage is an opening. -/
theorem rdpageResult : Obligations.RdpageResult := by
  unfold Obligations.RdpageResult
  intro s n hb hlen hn hr
  have hopen : OpensIn s.cfg (expand .rdpage s) n :=
    (readPage_opensIn s.cfg _).of_cost (by rw [addressBytes_length hlen]; omega)
  obtain ⟨hq, _⟩ := id hr
  exact hopen.completesIn_ranIdle (by omega) rfl hb hlen hq (.inr hr)

/-- Settles O26: the three sequences are openings without a POLL. -/
theorem changeResult : Obligations.ChangeResult := by
  unfold Obligations.ChangeResult
  intro s n hb hq
  have hpos := one_le_cmdCycles s.cfg
  refine ⟨fun hlen hn => ?_, fun hlen hn => ?_, fun hlen hn => ?_⟩
  · have hopen : OpensIn s.cfg (expand .chgrdcol s) n :=
      (changeReadColumnSeq_opensIn s.cfg _).of_cost (by rw [addressBytes_length hlen]; omega)
    exact hopen.completesIn_ranIdle (by omega) rfl hb hlen hq (.inl (unsynced_changeReadColumnSeq s.cfg _))
  · have hopen : OpensIn s.cfg (expand .chgwrcol s) n :=
      (changeWriteSeq_opensIn s.cfg _ .ccs).of_cost (by rw [addressBytes_length hlen, delayOf]; omega)
    exact hopen.completesIn_ranIdle (by omega) rfl hb hlen hq (.inl (unsynced_changeWriteSeq s.cfg _ .ccs))
  · have hopen : OpensIn s.cfg (expand .chgrow s) n :=
      (changeWriteSeq_opensIn s.cfg _ .row).of_cost (by rw [addressBytes_length hlen, delayOf]; omega)
    exact hopen.completesIn_ranIdle (by omega) rfl hb hlen hq (.inl (unsynced_changeWriteSeq s.cfg _ .row))

/-! ### The operations that end with a status read -/

/-- An operation that is an opening and a readStatus, on a ready device: RES takes the status byte and FAIL its bit 0
(46_array_ops.md R199). -/
theorem OpensIn.completesIn_statusFail {i : Instr} {s : State} {q : List MicroStep} {o n : Nat} {b : Byte}
    (h : OpensIn s.cfg q o) (hseq : expand i s = q ++ readStatus s.cfg) (hk : completionOf i = .statusFail)
    (hb : s.busy = false) (hd : DomainOk i s) (hdepth : 32 ≤ s.cfg.rxDepth) (hn : n = o + statusCycles s.cfg)
    (hr : s.ReadyFor n) (hbyte : b = s.sample (o + cmdCycles s.cfg + s.cfg.tWhr + 4 + s.cfg.tSample)) :
    CompletesIn i s n { s.ranReceived n [b] with res := b.setWidth 16, fail := b.getLsbD 0 } := by
  have hopen := h.append (readStatusOpening_opensIn s.cfg)
  rw [← Nat.add_assoc] at hopen
  refine hopen.completesIn (k := 1) (by rw [hseq, readStatus_eq, List.append_assoc]) hb hd
    ((by decide : 1 ≤ 32).trans hdepth) (by rw [hn, statusCycles]; omega) hr ?_
  rw [hk, samples_one, ← hbyte]
  have hfail : (resWithByte 0#16 b).getLsbD 0 = b.getLsbD 0 := by rw [resWithByte_zero, BitVec.getLsbD_setWidth]; rfl
  rw [← hfail, ← resWithByte_zero]
  exact ranStatusFail_of ..

/-- Settles O27: the page is an opening. -/
theorem progpageResult : Obligations.ProgpageResult := by
  unfold Obligations.ProgpageResult
  rintro s o n b hb hdepth hlen rfl hn hr hbyte
  have hopen := programBody_opensIn s.cfg (addressBytes_length hlen) s.txbuf 0x10#8
  exact hopen.completesIn_statusFail (i := .progpage) rfl rfl hb hlen hdepth hn hr hbyte

/-- The address bytes of a page, where ABUF holds those of all pages up to it (46_array_ops.md R195). -/
theorem pageAddress_length {s : State} {p : Nat} (h : 5 * (p + 1) ≤ s.aLen) : (pageAddress s p).length = 5 := by
  rw [State.aLen] at h
  rw [pageAddress, List.length_take, List.length_drop]
  omega

/-- The pages of programPageCache, each with its own address and the last with its own confirm byte: an opening
(46_array_ops.md R195). -/
theorem programPages_opensIn {s : State} {n : Nat} (hlen : 5 * (n + 1) ≤ s.aLen) :
    OpensIn s.cfg ((List.range n).flatMap (fun p => programBody s.cfg (pageAddress s p) s.txbuf 0x15#8) ++
      programBody s.cfg (pageAddress s n) s.txbuf 0x10#8) ((n + 1) * programCycles s.cfg s.txLen) := by
  have hpage : ∀ p ∈ List.range n,
      OpensIn s.cfg (programBody s.cfg (pageAddress s p) s.txbuf 0x15#8) (programCycles s.cfg s.txLen) := by
    intro p hp
    have hp := List.mem_range.1 hp
    exact programBody_opensIn s.cfg (pageAddress_length (by omega)) s.txbuf _
  have hpages := OpensIn.flatMap_append hpage (programBody_opensIn s.cfg (pageAddress_length hlen) s.txbuf 0x10#8)
  rw [List.length_range] at hpages
  rw [Nat.succ_mul]
  exact hpages

/-- Settles O28: the pages together are an opening, of PAGES times the cycles of one. -/
theorem progcacheResult : Obligations.ProgcacheResult := by
  unfold Obligations.ProgcacheResult
  rintro s o n b hb hdepth hpos hmax hlen rfl hn hr hbyte
  have hpages : s.pages.toNat - 1 + 1 = s.pages.toNat := Nat.sub_add_cancel hpos
  have hopen := programPages_opensIn (n := s.pages.toNat - 1) (hpages.symm ▸ hlen)
  rw [hpages] at hopen
  exact hopen.completesIn_statusFail (i := .progcache) rfl rfl hb ⟨hpos, hmax, hlen⟩ hdepth hn hr hbyte

/-- Settles O29: the erase with its wait is an opening. -/
theorem eraseResult : Obligations.EraseResult := by
  unfold Obligations.EraseResult
  rintro s o n b hb hdepth hlen ho hn hr hbyte
  have hopen := (((eraseOpening_opensIn s.cfg (addressBytes s 3)).pause (wait_pausesFor s.cfg .wb)).pause
    waitReady_pausesFor).of_cost (n := o) (by rw [addressBytes_length hlen, delayOf]; omega)
  exact hopen.completesIn_statusFail (i := .erase) rfl rfl hb hlen hdepth hn hr hbyte

end Sys2Proof.Machine
end

section
/-! PROOFS. partialEraseBlock (46_array_ops.md R197): what it leaves, and the cycles in which its confirm byte and its
device reset command are latched, found on the pins along its sequence. -/

namespace Sys2Proof.Machine

/-! ### The pins before and after a cycle of a run -/

/-- A run that answers a next state has done so on the way. -/
theorem runSteps_of_add {s u : State} {a b : Nat} (h : runSteps (a + b) s = .next u) : ∃ t, runSteps a s = .next t := by
  induction a generalizing s with
  | zero => exact ⟨s, rfl⟩
  | succ a ih =>
    rw [Nat.succ_add] at h
    obtain ⟨v, hs, hv⟩ := runSteps_succ_inv h
    obtain ⟨t, ht⟩ := ih hv
    exact ⟨t, (runSteps_succ a hs).trans ht⟩

/-- The pins at the start of each cycle: those of the first state, then those after each cycle. -/
theorem pins_cons_pinTrace_getElem? {s u : State} {k n : Nat} (hk : k ≤ n) (h : runSteps k s = .next u) :
    (s.pins :: pinTrace n s)[k]? = some u.pins := by
  cases k with
  | zero => rw [← Host.Outcome.next.inj h]; rfl
  | succ k => rw [List.getElem?_cons_succ]; exact pinTrace_getElem? hk h

/-- The bus cycle at the end of a cycle of an operation whose pins are known. -/
theorem Draws.edgeAt_eq {i : Instr} {s t : State} {tr : List Pins} {k : Nat} {x y : Pins} (h : Draws i s tr)
    (hin : s.NoResetFor tr.length) (he : exec i s = .next t) (hx : (t.pins :: tr)[k]? = some x)
    (hy : tr[k]? = some y) : t.edgeAt k = busCycle x y := by
  obtain ⟨hk, _⟩ := List.getElem?_eq_some_iff.1 hy
  obtain ⟨t', w, he', _, htrace, hrun, _⟩ := h hin
  obtain rfl : t' = t := Host.Outcome.next.inj (he'.symm.trans he)
  obtain ⟨v, hv⟩ : ∃ v, runSteps (k + 1) t' = .next v :=
    runSteps_of_add (b := tr.length - (k + 1)) (by rwa [Nat.add_sub_cancel' hk])
  obtain ⟨u, hu⟩ := runSteps_of_add hv
  have hxu := pins_cons_pinTrace_getElem? hk.le hu
  have hyv := pinTrace_getElem? hk hv
  rw [htrace] at hxu hyv
  obtain rfl : x = u.pins := Option.some.inj (hx.symm.trans hxu)
  obtain rfl : y = v.pins := Option.some.inj (hy.symm.trans hyv)
  simp only [State.edgeAt, hu, hv]

/-- The pins at the start of the cycle that follows the first part of a sequence. -/
theorem cons_pinsRun_getElem? (p : Pins) (a r : List MicroStep) :
    (p :: pinsRun p (a ++ r))[seqCost a]? = some (pinsEnd p a) := by
  induction a generalizing p with
  | nil => rfl
  | cons m a ih =>
    obtain ⟨op, q⟩ := m
    rw [seqCost_cons, List.cons_append, pinsEnd_cons]
    cases op with
    | dly k =>
      have hcons : p :: (List.replicate k p ++ pinsRun p (a ++ r)) =
          List.replicate k p ++ p :: pinsRun p (a ++ r) := by
        rw [← List.cons_append, ← List.replicate_succ, List.replicate_succ', List.append_assoc]
        rfl
      rw [pinsRun, hcons, List.getElem?_append_right (by simp [microCost]), List.length_replicate, microCost,
        Nat.add_sub_cancel_left]
      exact ih p
    | _ => rw [microCost, Nat.add_comm, List.getElem?_cons_succ]; exact ih _

/-- The pins after that cycle, where it is one of LINES. -/
theorem pinsRun_getElem?_lines (p : Pins) (a r : List MicroStep) (mask val : Latch) :
    (pinsRun p (a ++ plainStep (.lines mask val) :: r))[seqCost a]? =
      some (pinsAfter (pinsEnd p a) (.lines mask val)) := by
  rw [pinsRun_append, List.getElem?_append_right (pinsRun_length p a).le, pinsRun_length, Nat.sub_self]
  rfl

/-! ### The latching edge of a command cycle -/

/-- The micro-operations of sendCommand before its latching edge, the rise of WE (42_phase_engine.md R136). -/
def commandLead (c : Config) (b : Byte) : List MicroStep := (sendCommand c b).take 3

theorem sendCommand_eq_lead (c : Config) (b : Byte) :
    sendCommand c b = commandLead c b ++ plainStep (.lines mWE mWE) :: (sendCommand c b).drop 4 := rfl

theorem seqCost_commandLead (c : Config) (b : Byte) : seqCost (commandLead c b) = 2 + c.tSetup := by
  simp only [commandLead, sendCommand, List.take_succ_cons, List.take_zero, phaseStep, plainStep, seqCost_cons,
    seqCost_nil, microCost]
  omega

/-- The rise of WE latches the byte, from any lines (42_phase_engine.md R136). -/
theorem busCycle_commandLead (c : Config) (b : Byte) {p : Pins} (hd : p.dir = dirOut) :
    busCycle (pinsEnd p (commandLead c b)) (pinsAfter (pinsEnd p (commandLead c b)) (.lines mWE mWE)) =
      some (.command b) := by
  simp only [commandLead, sendCommand, List.take_succ_cons, List.take_zero, phaseStep, plainStep, pinsEnd_cons,
    pinsEnd_nil, pinsAfter, busCycle, muxLines_getLsbD, hd]
  simp
  rw [muxLines_data_keep _ _ (by decide), muxLines_data_write _ _ (by decide), setWidth_setWidth_byte]

/-- An operation on a ready device, with a sendCommand in its sequence that finds every line driven: the cycle in which
its byte is latched. -/
theorem edgeAt_command {i : Instr} {s t : State} {pre post : List MicroStep} {b : Byte} {n : Nat} (hb : s.busy = false)
    (hd : DomainOk i s) (hopen : OpensIn s.cfg (expand i s) n) (hr : s.ReadyFor n) (he : exec i s = .next t)
    (hseq : expand i s = pre ++ sendCommand s.cfg b ++ post) (hdir : (pinsEnd s.pins pre).dir = dirOut) :
    t.edgeAt (seqCost pre + (2 + s.cfg.tSetup)) = some (.command b) := by
  obtain rfl : _ = t := Host.Outcome.next.inj ((exec_accepts hb hd).symm.trans he)
  have hlead : expand i s = pre ++ commandLead s.cfg b ++
      plainStep (.lines mWE mWE) :: ((sendCommand s.cfg b).drop 4 ++ post) := by
    rw [hseq, sendCommand_eq_lead, List.append_assoc, List.append_assoc, List.append_assoc]
    rfl
  have hlen : (pinsRun s.pins (expand i s)).length = n := by rw [pinsRun_length, hopen.cost]
  have hx := cons_pinsRun_getElem? s.pins (pre ++ commandLead s.cfg b)
    (plainStep (.lines mWE mWE) :: ((sendCommand s.cfg b).drop 4 ++ post))
  have hy := pinsRun_getElem?_lines s.pins (pre ++ commandLead s.cfg b) ((sendCommand s.cfg b).drop 4 ++ post) mWE mWE
  rw [← hlead, seqCost_append, seqCost_commandLead, pinsEnd_append] at hx hy
  obtain ⟨hq, hready⟩ := hr
  have hdraws : Draws i s (pinsRun s.pins (expand i s)) :=
    draws_of hb hd (hopen.captures.trans_le (Nat.zero_le _)) rfl (List.ne_nil_of_mem (List.mem_of_getElem? hy))
      (.inr (hlen ▸ hready))
  rw [hdraws.edgeAt_eq (hlen ▸ QuietFor.noReset hq) he hx hy]
  exact busCycle_commandLead s.cfg b hdir

/-! ### PERASE -/

/-- After the address the lines are still driven. -/
theorem pinsEnd_eraseSetup_dir (c : Config) (a : List Byte) {p : Pins} (hd : p.dir = dirOut) :
    (pinsEnd p (eraseSetup c a)).dir = dirOut := by
  simp [eraseSetup, pinsEnd_append, pinsEnd_sendCommand, wire_sendAddress, hd]

theorem pinsEnd_dly (p : Pins) (k : Nat) : pinsEnd p [plainStep (.dly k)] = p := rfl

/-- Settles O30: the sequence is an opening, and each of the two command bytes is latched in its own sendCommand, where
the pieces before it end. -/
theorem peraseResult : Obligations.PeraseResult := by
  unfold Obligations.PeraseResult
  intro s n o hb hlen hdly hn ho hr
  have hdom : DomainOk .perase s := ⟨hlen, hdly⟩
  have haddr := addressBytes_length hlen
  have hopen : OpensIn s.cfg (expand .perase s) n :=
    (partialEraseSeq_opensIn s.cfg _ _).of_cost (by rw [haddr]; omega)
  obtain ⟨hq, _⟩ := id hr
  refine ⟨hopen.completesIn_ranIdle (by omega) rfl hb hdom hq (.inr hr), fun (hdir : s.pins.dir = dirOut) =>
    ⟨_, exec_accepts hb hdom, ?_, ?_⟩⟩
  · have hconfirm := edgeAt_command (b := 0xD0#8) hb hdom hopen hr (exec_accepts hb hdom)
      (pre := eraseSetup s.cfg (addressBytes s 3))
      (post := [plainStep (.dly (s.len.toNat * s.cfg.peIterCycles))] ++ deviceReset s.cfg)
      (List.append_assoc ..) (pinsEnd_eraseSetup_dir s.cfg _ hdir)
    rwa [(eraseSetup_opensIn s.cfg _).cost, haddr, ← Nat.add_assoc, ← ho] at hconfirm
  · obtain ⟨_, hend⟩ := wire_eraseOpening s.cfg (addressBytes s 3) hdir
    have hreset := edgeAt_command (b := 0xFF#8) hb hdom hopen hr (exec_accepts hb hdom)
      (pre := eraseOpening s.cfg (addressBytes s 3) ++ [plainStep (.dly (s.len.toNat * s.cfg.peIterCycles))])
      (post := wait s.cfg .wb ++ waitReady)
      (by simp only [expand, runningOp, partialEraseSeq, deviceReset, List.append_assoc])
      (by rw [pinsEnd_append, pinsEnd_dly, hend]; exact hdir)
    rw [((eraseOpening_opensIn s.cfg _).pause (dly_pausesFor _)).cost, haddr] at hreset
    convert hreset using 2
    rw [ho, cmdCycles]
    omega

end Sys2Proof.Machine
end

section
/-! PROOFS. readPageCacheSequential (46_array_ops.md R198): sequences that end with a receiveData one after another,
each of which appends its bytes to RXBUF. -/

namespace Sys2Proof.Machine

/-! ### Sequences that receive -/

/-- A sequence that takes `n` cycles, captures `k` bytes, and leaves the lines at idle, PHASE Idle, the data field
driven and its bytes, those of its own cycles, at the end of RXBUF. -/
structure ReceivesIn (c : Config) (q : List MicroStep) (n k : Nat) (bytes : List Input → List Byte) : Prop where
  cost : seqCost q = n
  captures : capCount q = k
  receives : ∀ (ins : List Input) (s : State) (out : Latch) (d : Lines15) (p : Phase) (rx : List Byte),
    runMicros q ins (s.onPins out d p rx) =
      s.onPins (idleLines c out) (dirWithData .output d) .idle (rx ++ bytes ins)

theorem dirWithData_output_output (d : Lines15) :
    dirWithData .output (dirWithData .output d) = dirWithData .output d := by
  simp only [dirWithData, BitVec.or_assoc, BitVec.or_self]

section
variable {c : Config} {q r : List MicroStep} {o n n' k k' : Nat} {f g : List Input → List Byte}

/-- An opening and a receiveData. -/
theorem OpensIn.receive (h : OpensIn c q o) (k : Nat) :
    ReceivesIn c (q ++ receiveData c k) (o + recvCycles c k) k fun ins => loopBytes c (ins.drop (o + 3)) k where
  cost := h.seqCost_receive k
  captures := h.capCount_receive k
  receives ins s out d p rx := by
    rw [runMicros_append, h.restores, runMicros_receiveData, idleLines_idleLines, h.cost, List.drop_drop]

/-- An opening before a sequence that receives. -/
theorem OpensIn.append_receives (h : OpensIn c q o) (h' : ReceivesIn c r n k f) :
    ReceivesIn c (q ++ r) (o + n) k fun ins => f (ins.drop o) where
  cost := by rw [seqCost_append, h.cost, h'.cost]
  captures := by rw [capCount_append, h.captures, h'.captures, Nat.zero_add]
  receives ins s out d p rx := by
    rw [runMicros_append, h.restores, h'.receives, idleLines_idleLines, h.cost]

theorem ReceivesIn.append (h : ReceivesIn c q n k f) (h' : ReceivesIn c r n' k' g) :
    ReceivesIn c (q ++ r) (n + n') (k + k') fun ins => f ins ++ g (ins.drop n) where
  cost := by rw [seqCost_append, h.cost, h'.cost]
  captures := by rw [capCount_append, h.captures, h'.captures]
  receives ins s out d p rx := by
    rw [runMicros_append, h.receives, h'.receives, idleLines_idleLines, dirWithData_output_output, h.cost,
      List.append_assoc]

/-- The same sequence a number of times, before another one. -/
theorem ReceivesIn.replicate_append (h : ReceivesIn c q n k f) (h' : ReceivesIn c r n' k' g) (m : Nat) :
    ReceivesIn c ((List.replicate m q).flatten ++ r) (m * n + n') (m * k + k') fun ins =>
      (List.range m).flatMap (fun j => f (ins.drop (j * n))) ++ g (ins.drop (m * n)) := by
  induction m with
  | zero => simpa using h'
  | succ m ih =>
    have hstep := h.append ih
    have hlist : q ++ ((List.replicate m q).flatten ++ r) = (List.replicate (m + 1) q).flatten ++ r := by
      rw [List.replicate_succ, List.flatten_cons, List.append_assoc]
    have hsum : ∀ a b : Nat, a + (m * a + b) = (m + 1) * a + b := fun a b => by rw [Nat.succ_mul]; omega
    rw [hlist, hsum, hsum] at hstep
    convert hstep using 2 with ins
    have hdrop : ∀ j, (j + 1) * n = n + j * n := fun j => by rw [Nat.succ_mul, Nat.add_comm]
    simp only [List.range_succ_eq_map, List.flatMap_cons, List.flatMap_map, Nat.zero_mul, List.drop_zero,
      List.drop_drop, hdrop, List.append_assoc]

end

/-- An operation that receives its bytes and writes no more, on a ready device. -/
theorem ReceivesIn.completesIn {i : Instr} {s : State} {n k : Nat} {f : List Input → List Byte}
    (h : ReceivesIn s.cfg (expand i s) n k f) (hpos : 1 ≤ n) (hk : completionOf i = .plain) (hb : s.busy = false)
    (hd : DomainOk i s) (hroom : k ≤ s.cfg.rxDepth) (hr : s.ReadyFor n) :
    CompletesIn i s n (s.ranReceived n (f s.inputs)) := by
  obtain ⟨hq, _⟩ := id hr
  refine completes_of hb hd (h.cost ▸ Nat.max_eq_right (h.cost ▸ hpos)) hq (.inr hr) (h.captures.trans_le hroom) ?_
  rw [accept_onPins, h.receives, hk, List.nil_append]
  exact ranReceived_of ..

/-! ### The pages -/

/-- A page of the cache read before its receiveData (46_array_ops.md R198). -/
def cacheNextOpening (c : Config) : List MicroStep := sendCommand c 0x31#8 ++ wait c .wb ++ waitReady

theorem cacheNext_eq (c : Config) : cacheNext c = cacheNextOpening c ++ receiveData c c.pageSize := rfl

theorem cacheNextOpening_opensIn (c : Config) : OpensIn c (cacheNextOpening c) (cmdCycles c + c.tWb + 1) :=
  ((sendCommand_opensIn c _).pause (wait_pausesFor c .wb)).pause waitReady_pausesFor

theorem readCacheSeq_eq (c : Config) (a : List Byte) (n : Nat) :
    readCacheSeq c a n = readPage c a ++ ((List.replicate (n - 1) (cacheNext c)).flatten ++
      (sendCommand c 0x3F#8 ++ receiveData c c.pageSize)) := by
  simp only [readCacheSeq, List.append_assoc]

/-- A cache read of `m + 1` pages: the first page stands ready after `rp` cycles, each page but the last takes `pg`
cycles, and its receiveData begins after its opening, that of the last after a command cycle (46_array_ops.md R198). -/
theorem readCacheSeq_receivesIn (c : Config) {a : List Byte} (ha : a.length = 5) {rp pg m : Nat}
    (hrp : rp = 1 + 2 * cmdCycles c + addrCycles c 5 + c.tWb + 1)
    (hpg : pg = cmdCycles c + c.tWb + 1 + recvCycles c c.pageSize) :
    ReceivesIn c (readCacheSeq c a (m + 1)) (rp + (m * pg + (cmdCycles c + recvCycles c c.pageSize)))
      (m * c.pageSize + c.pageSize) fun ins =>
        (List.range m).flatMap (fun j =>
          loopBytes c (ins.drop (rp + j * pg + (cmdCycles c + c.tWb + 1 + 3))) c.pageSize) ++
        loopBytes c (ins.drop (rp + m * pg + (cmdCycles c + 3))) c.pageSize := by
  have hopen : OpensIn c (readPage c a) rp := (readPage_opensIn c a).of_cost (by rw [ha]; omega)
  have hnext := (cacheNextOpening_opensIn c).receive c.pageSize
  have hlast := (sendCommand_opensIn c 0x3F#8).receive c.pageSize
  have hall := hopen.append_receives (hnext.replicate_append hlast m)
  rw [← cacheNext_eq, ← hpg] at hall
  rw [readCacheSeq_eq, Nat.add_sub_cancel]
  simpa only [List.drop_drop, Nat.add_assoc] using hall

/-- Settles O31: the receiveData of each page finds its bytes in the cycles that the pages before it leave. -/
theorem rdcacheseqResult : Obligations.RdcacheseqResult := by
  unfold Obligations.RdcacheseqResult
  intro s rp pg n hb hlen hpos hmax hroom hrp hpg hn hr
  have hdom : DomainOk .rdcacheseq s := ⟨hlen, hpos, hmax, hroom⟩
  obtain ⟨m, hm⟩ := Nat.exists_eq_add_one.2 hpos
  have hseq : expand .rdcacheseq s = readCacheSeq s.cfg (addressBytes s 5) (m + 1) :=
    congrArg (readCacheSeq s.cfg (addressBytes s 5)) hm
  have hreceives := readCacheSeq_receivesIn s.cfg (addressBytes_length hlen) (m := m) hrp hpg
  rw [hm, Nat.succ_mul] at hroom
  rw [hm, Nat.add_sub_cancel] at hn ⊢
  rw [← hseq, ← Nat.add_assoc, ← Nat.add_assoc, ← hn] at hreceives
  have hbytes : ∀ j, loopBytes s.cfg (s.inputs.drop (rp + j * pg + (cmdCycles s.cfg + s.cfg.tWb + 1 + 3)))
      s.cfg.pageSize = s.samples (rp + j * pg + cmdCycles s.cfg + s.cfg.tWb + 1) s.cfg.pageSize := fun j =>
    loopBytes_samples s _ _ _ (by omega)
  have hlast : loopBytes s.cfg (s.inputs.drop (rp + m * pg + (cmdCycles s.cfg + 3))) s.cfg.pageSize =
      s.samples (rp + m * pg + cmdCycles s.cfg) s.cfg.pageSize := loopBytes_samples s _ _ _ (by omega)
  have hrun := hreceives.completesIn (by omega) rfl hb hdom hroom hr
  simpa only [hbytes, hlast] using hrun

end Sys2Proof.Machine
end

section
/-! PROOFS. What the device sees of the Array Operations: the bus cycles of their sequences (30_encoding.md R87), and
their pins cycle by cycle from idle lines (46_array_ops.md R190 to R198). -/

namespace Sys2Proof.Machine

/-! ### The bus cycles -/

/-- A delay shows nothing. -/
theorem wire_dly_cons (p : Pins) (k : Nat) (r : List MicroStep) : wire p (plainStep (.dly k) :: r) = wire p r := by
  simp [plainStep, wire, pinsAfter]

section
variable (c : Config) (a : List Byte) {p : Pins} (hd : p.dir = dirOut)
include hd

/-- changeWriteColumn and changeRowAddress show 0x85 and their address (46_array_ops.md R192, R193). -/
theorem wire_changeWriteSeq (e : Delay) :
    wire p (changeWriteSeq c a e) = [BusCycle.command 0x85#8] ++ addressCycles a := by
  simp [changeWriteSeq, wire_append, wire_sendCommand, pinsEnd_sendCommand, wire_sendAddress, hd]

/-- programPage shows its page and a status read (46_array_ops.md R194). -/
theorem wire_programPageSeq (d : List Byte) :
    wire p (programPageSeq c a d) = [BusCycle.command 0x80#8] ++ addressCycles a ++ dataOutCycles d ++
      [BusCycle.command 0x10#8] ++ [BusCycle.command 0x70#8, BusCycle.dataIn] := by
  obtain ⟨hbody, hend⟩ := wire_programBody c a d 0x10#8 hd
  obtain ⟨hstatus, _⟩ := wire_readStatus c (p := p.rest c) hd
  rw [programPageSeq, wire_append, hbody, hend, hstatus]

/-- eraseBlock shows its opening and a status read (46_array_ops.md R196). -/
theorem wire_eraseSeq :
    wire p (eraseSeq c a) = [BusCycle.command 0x60#8] ++ addressCycles a ++ [BusCycle.command 0xD0#8] ++
      [BusCycle.command 0x70#8, BusCycle.dataIn] := by
  obtain ⟨hopen, hend⟩ := wire_eraseOpening c a hd
  obtain ⟨hstatus, _⟩ := wire_readStatus c (p := p.rest c) hd
  simp [eraseSeq, wire_append, hopen, hend, hstatus]

/-- partialEraseBlock shows its opening and the device reset (46_array_ops.md R197). -/
theorem wire_partialEraseSeq (k : Nat) :
    wire p (partialEraseSeq c a k) = [BusCycle.command 0x60#8] ++ addressCycles a ++
      [BusCycle.command 0xD0#8, BusCycle.command 0xFF#8] := by
  obtain ⟨hopen, hend⟩ := wire_eraseOpening c a hd
  obtain ⟨hreset, _⟩ := wire_deviceReset c (p := p.rest c) hd
  simp [partialEraseSeq, wire_append, wire_dly_cons, hopen, hend, hreset]

/-- readPageCacheSequential shows readPage, then each page after its command (46_array_ops.md R198). -/
theorem wire_readCacheSeq (n : Nat) :
    wire p (readCacheSeq c a n) = [BusCycle.command 0x00#8] ++ addressCycles a ++ [BusCycle.command 0x30#8] ++
      (List.replicate (n - 1) ([BusCycle.command 0x31#8] ++ dataInCycles c.pageSize)).flatten ++
      [BusCycle.command 0x3F#8] ++ dataInCycles c.pageSize := by
  obtain ⟨hread, hend⟩ := wire_readPage c a hd
  obtain ⟨hpages, hdir⟩ := wire_cachePages c (n - 1) (p := p.rest c) hd
  rw [readCacheSeq_eq, wire_append, hread, hend, wire_append, hpages, wire_append, wire_sendCommand c _ hdir,
    pinsEnd_sendCommand]
  obtain ⟨hlast, _⟩ := wire_receiveData c c.pageSize
    (p := (pinsEnd (p.rest c) (List.replicate (n - 1) (cacheNext c)).flatten).rest c) hdir (Pins.rest_re ..)
  rw [hlast]
  simp only [List.append_assoc]

end

/-- programPageCache shows each page with its own address, then one status read (46_array_ops.md R195). -/
theorem wire_programCacheSeq {s : State} (hd : s.pins.dir = dirOut) (n : Nat) :
    wire s.pins (programCacheSeq s n) = ((List.range (n - 1)).flatMap fun p =>
        [BusCycle.command 0x80#8] ++ addressCycles (pageAddress s p) ++ dataOutCycles s.txbuf ++
          [BusCycle.command 0x15#8]) ++
      ([BusCycle.command 0x80#8] ++ addressCycles (pageAddress s (n - 1)) ++ dataOutCycles s.txbuf ++
        [BusCycle.command 0x10#8]) ++ [BusCycle.command 0x70#8, BusCycle.dataIn] := by
  obtain ⟨hpages, hdir⟩ := wire_programPages s.cfg (pageAddress s) s.txbuf 0x15#8 (List.range (n - 1)) hd
  rw [programCacheSeq, List.append_assoc, wire_append, hpages, List.append_assoc]
  exact congrArg _ (wire_programPageSeq s.cfg _ hdir s.txbuf)

/-! ### The pins cycle by cycle -/

section
variable (c : Config) (wp : Bool) (a : List Byte)

theorem draws_changeReadColumnSeq :
    DrawsAs c wp (changeReadColumnSeq c a) (holdTrace c wp c.tRtc ++ commandTrace c wp 0x05#8 ++ addressTrace c wp a ++
      commandTrace c wp 0xE0#8 ++ holdTrace c wp c.tCcs) :=
  (((DrawsAs.append (draw_wait c wp .rtc) (draw_sendCommand ..)).append (draw_sendAddress ..)).append
    (draw_sendCommand ..)).append (draw_wait c wp .ccs)

theorem draws_changeWriteSeq (e : Delay) :
    DrawsAs c wp (changeWriteSeq c a e) (holdTrace c wp c.tWw ++ commandTrace c wp 0x85#8 ++ addressTrace c wp a ++
      holdTrace c wp (delayOf c e)) :=
  ((DrawsAs.append (draw_wait c wp .ww) (draw_sendCommand ..)).append (draw_sendAddress ..)).append
    (draw_wait c wp e)

theorem draws_eraseSeq :
    DrawsAs c wp (eraseSeq c a) (eraseTrace c wp a ++ holdTrace c wp (c.tWb + 1) ++ statusTrace c wp) := by
  rw [eraseSeq, List.append_assoc _ (wait c .wb)]
  exact ((draws_eraseOpening ..).append (draws_wait_ready c wp .wb)).append (draws_readStatus ..)

theorem draws_partialEraseSeq (k : Nat) :
    DrawsAs c wp (partialEraseSeq c a k)
      (eraseTrace c wp a ++ holdTrace c wp (k * c.peIterCycles) ++ resetTrace c wp) :=
  ((draws_eraseOpening ..).append (draws_dly ..)).append (draws_deviceReset ..)

theorem draws_cacheNext :
    DrawsAs c wp (cacheNext c) (commandTrace c wp 0x31#8 ++ holdTrace c wp (c.tWb + 1) ++
      receiveTrace c wp c.pageSize) := by
  rw [cacheNext, List.append_assoc _ (wait c .wb)]
  exact (DrawsAs.append (draw_sendCommand ..) (draws_wait_ready c wp .wb)).append (draw_receiveData ..)

theorem draws_readCacheSeq (n : Nat) :
    DrawsAs c wp (readCacheSeq c a n) (readPageTrace c wp a ++
      (List.replicate (n - 1) (commandTrace c wp 0x31#8 ++ holdTrace c wp (c.tWb + 1) ++
        receiveTrace c wp c.pageSize)).flatten ++ commandTrace c wp 0x3F#8 ++ receiveTrace c wp c.pageSize) :=
  (((draws_readPage ..).append ((draws_cacheNext c wp).replicate _)).append (draw_sendCommand ..)).append
    (draw_receiveData ..)

end

theorem draws_programCacheSeq (s : State) (wp : Bool) (n : Nat) :
    DrawsAs s.cfg wp (programCacheSeq s n) (((List.range (n - 1)).flatMap fun p =>
        programTrace s.cfg wp (pageAddress s p) s.txbuf 0x15#8) ++
      programTrace s.cfg wp (pageAddress s (n - 1)) s.txbuf 0x10#8 ++ statusTrace s.cfg wp) :=
  ((DrawsAs.flatMap _ fun _ => draws_programBody ..).append (draws_programBody ..)).append (draws_readStatus ..)

/-! ### The operations from idle lines -/

theorem capCount_readCacheSeq (c : Config) (a : List Byte) {n : Nat} (hn : 1 ≤ n) :
    capCount (readCacheSeq c a n) = n * c.pageSize := by
  obtain ⟨m, rfl⟩ := Nat.exists_eq_add_one.2 hn
  have hnext := (cacheNextOpening_opensIn c).capCount_receive c.pageSize
  have hlast := (sendCommand_opensIn c 0x3F#8).capCount_receive c.pageSize
  rw [← cacheNext_eq] at hnext
  rw [readCacheSeq_eq, capCount_append, capCount_append, (readPage_opensIn c a).captures, capCount_replicate, hnext,
    hlast, Nat.add_sub_cancel, Nat.zero_add, Nat.succ_mul]

/-- From idle lines an operation that is an opening draws the pins of its sequence. -/
theorem OpensIn.draws {i : Instr} {s : State} {n : Nat} {wp : Bool} {tr : List Pins} (h : OpensIn s.cfg (expand i s) n)
    (hb : s.busy = false) (hl : s.IdleLines wp) (hd : DomainOk i s) (htr : DrawsAs s.cfg wp (expand i s) tr)
    (hne : tr ≠ []) (hp : (∀ m ∈ expand i s, Unsynced m) ∨ s.DeviceReady tr.length) : Draws i s tr :=
  draws_from_idle hb hl hd (h.captures.trans_le (Nat.zero_le _)) htr hne hp

section
variable {s : State} {wp : Bool} (hb : s.busy = false) (hl : s.IdleLines wp)
include hb hl

theorem rdpage_draws (hlen : 5 ≤ s.aLen) : DrawsReady .rdpage s (readPageTrace s.cfg wp (addressBytes s 5)) :=
  fun hready => (readPage_opensIn s.cfg _).draws (i := .rdpage) hb hl hlen (draws_readPage ..) (List.cons_ne_nil _ _)
    (.inr hready)

theorem chgrdcol_draws (hlen : 2 ≤ s.aLen) :
    Draws .chgrdcol s (holdTrace s.cfg wp s.cfg.tRtc ++ commandTrace s.cfg wp 0x05#8 ++
      addressTrace s.cfg wp (addressBytes s 2) ++ commandTrace s.cfg wp 0xE0#8 ++ holdTrace s.cfg wp s.cfg.tCcs) :=
  (changeReadColumnSeq_opensIn s.cfg _).draws (i := .chgrdcol) hb hl hlen (draws_changeReadColumnSeq ..)
    (by simp [commandTrace]) (.inl (unsynced_changeReadColumnSeq s.cfg _))

theorem chgwrcol_draws (hlen : 2 ≤ s.aLen) :
    Draws .chgwrcol s (holdTrace s.cfg wp s.cfg.tWw ++ commandTrace s.cfg wp 0x85#8 ++
      addressTrace s.cfg wp (addressBytes s 2) ++ holdTrace s.cfg wp s.cfg.tCcs) :=
  (changeWriteSeq_opensIn s.cfg _ .ccs).draws (i := .chgwrcol) hb hl hlen (draws_changeWriteSeq ..)
    (by simp [commandTrace]) (.inl (unsynced_changeWriteSeq s.cfg _ .ccs))

theorem chgrow_draws (hlen : 5 ≤ s.aLen) :
    Draws .chgrow s (holdTrace s.cfg wp s.cfg.tWw ++ commandTrace s.cfg wp 0x85#8 ++
      addressTrace s.cfg wp (addressBytes s 5) ++ holdTrace s.cfg wp s.cfg.tRow) :=
  (changeWriteSeq_opensIn s.cfg _ .row).draws (i := .chgrow) hb hl hlen (draws_changeWriteSeq ..)
    (by simp [commandTrace]) (.inl (unsynced_changeWriteSeq s.cfg _ .row))

theorem perase_draws (hlen : 3 ≤ s.aLen) (hdly : s.len.toNat * s.cfg.peIterCycles < 2 ^ s.cfg.dlyW) :
    DrawsReady .perase s (eraseTrace s.cfg wp (addressBytes s 3) ++
      holdTrace s.cfg wp (s.len.toNat * s.cfg.peIterCycles) ++ resetTrace s.cfg wp) :=
  fun hready => (partialEraseSeq_opensIn s.cfg _ _).draws (i := .perase) hb hl ⟨hlen, hdly⟩ (draws_partialEraseSeq ..)
    (List.cons_ne_nil _ _) (.inr hready)

theorem rdcacheseq_draws (hlen : 5 ≤ s.aLen) (hpos : 1 ≤ s.pages.toNat) (hmax : s.pages.toNat ≤ s.cfg.maxPages)
    (hroom : s.pages.toNat * s.cfg.pageSize ≤ s.cfg.rxDepth) :
    DrawsReady .rdcacheseq s (readPageTrace s.cfg wp (addressBytes s 5) ++
      (List.replicate (s.pages.toNat - 1) (commandTrace s.cfg wp 0x31#8 ++ holdTrace s.cfg wp (s.cfg.tWb + 1) ++
        receiveTrace s.cfg wp s.cfg.pageSize)).flatten ++
      commandTrace s.cfg wp 0x3F#8 ++ receiveTrace s.cfg wp s.cfg.pageSize) := by
  intro hready
  have hcap : capCount (expand .rdcacheseq s) ≤ s.cfg.rxDepth :=
    (capCount_readCacheSeq s.cfg _ hpos).trans_le hroom
  exact draws_from_idle (i := .rdcacheseq) hb hl ⟨hlen, hpos, hmax, hroom⟩ hcap (draws_readCacheSeq ..)
    (List.cons_ne_nil _ _) (.inr hready)

/-- An operation that is an opening and a readStatus. -/
theorem OpensIn.draws_status {i : Instr} {q : List MicroStep} {o : Nat} {tr : List Pins} (h : OpensIn s.cfg q o)
    (hseq : expand i s = q ++ readStatus s.cfg) (hd : DomainOk i s) (hdepth : 32 ≤ s.cfg.rxDepth)
    (htr : DrawsAs s.cfg wp (expand i s) tr) : DrawsReady i s tr :=
  (h.append (readStatusOpening_opensIn s.cfg)).drawsReady (k := 1)
    (by rw [hseq, readStatus_eq, List.append_assoc]) hb hl hd ((by decide : 1 ≤ 32).trans hdepth) htr

theorem progpage_draws (hlen : 5 ≤ s.aLen) (hdepth : 32 ≤ s.cfg.rxDepth) :
    DrawsReady .progpage s (programTrace s.cfg wp (addressBytes s 5) s.txbuf 0x10#8 ++ statusTrace s.cfg wp) :=
  (programBody_opensIn s.cfg (addressBytes_length hlen) s.txbuf 0x10#8).draws_status (i := .progpage) hb hl rfl hlen
    hdepth ((draws_programBody ..).append (draws_readStatus ..))

theorem progcache_draws (hpos : 1 ≤ s.pages.toNat) (hmax : s.pages.toNat ≤ s.cfg.maxPages)
    (hlen : 5 * s.pages.toNat ≤ s.aLen) (hdepth : 32 ≤ s.cfg.rxDepth) :
    DrawsReady .progcache s (((List.range (s.pages.toNat - 1)).flatMap fun p =>
        programTrace s.cfg wp (pageAddress s p) s.txbuf 0x15#8) ++
      programTrace s.cfg wp (pageAddress s (s.pages.toNat - 1)) s.txbuf 0x10#8 ++ statusTrace s.cfg wp) := by
  have hpages : s.pages.toNat - 1 + 1 = s.pages.toNat := Nat.sub_add_cancel hpos
  exact (programPages_opensIn (n := s.pages.toNat - 1) (hpages.symm ▸ hlen)).draws_status (i := .progcache) hb hl rfl
    ⟨hpos, hmax, hlen⟩ hdepth (draws_programCacheSeq s wp _)

theorem erase_draws (hlen : 3 ≤ s.aLen) (hdepth : 32 ≤ s.cfg.rxDepth) :
    DrawsReady .erase s (eraseTrace s.cfg wp (addressBytes s 3) ++ holdTrace s.cfg wp (s.cfg.tWb + 1) ++
      statusTrace s.cfg wp) :=
  (((eraseOpening_opensIn s.cfg _).pause (wait_pausesFor s.cfg .wb)).pause waitReady_pausesFor).draws_status
    (i := .erase) hb hl rfl hlen hdepth (draws_eraseSeq ..)

end

/-- Settles O35: the bus cycles of each sequence, and its pins from idle lines. -/
theorem readsShow : Obligations.ReadsShow := by
  unfold Obligations.ReadsShow
  refine fun s hb => ⟨fun (hd : s.pins.dir = dirOut) =>
    ⟨fun hlen => ?_, fun hlen => ?_, fun hlen hpos hmax hroom => ?_⟩, fun wp hl =>
    ⟨rdpage_draws hb hl, chgrdcol_draws hb hl, rdcacheseq_draws hb hl⟩⟩
  · obtain ⟨hwire, _⟩ := wire_readPage s.cfg (addressBytes s 5) hd
    exact shows_of (i := .rdpage) hb hlen hwire
  · exact shows_of (i := .chgrdcol) hb hlen (wire_changeReadColumnSeq s.cfg _ hd)
  · exact shows_of (i := .rdcacheseq) hb ⟨hlen, hpos, hmax, hroom⟩ (wire_readCacheSeq s.cfg _ hd _)

/-- Settles O36: the bus cycles of each sequence, and its pins from idle lines. -/
theorem programsEraseShow : Obligations.ProgramsEraseShow := by
  unfold Obligations.ProgramsEraseShow
  refine fun s hb => ⟨fun (hd : s.pins.dir = dirOut) => ?_, fun wp hl => ⟨progpage_draws hb hl, progcache_draws hb hl,
    erase_draws hb hl, perase_draws hb hl, chgwrcol_draws hb hl, chgrow_draws hb hl⟩⟩
  exact ⟨fun hlen => shows_of (i := .progpage) hb hlen (wire_programPageSeq s.cfg _ hd _),
    fun hpos hmax hlen => shows_of (i := .progcache) hb ⟨hpos, hmax, hlen⟩ (wire_programCacheSeq hd _),
    fun hlen => shows_of (i := .erase) hb hlen (wire_eraseSeq s.cfg _ hd),
    fun hlen hdly => shows_of (i := .perase) hb ⟨hlen, hdly⟩ (wire_partialEraseSeq s.cfg _ hd _),
    fun hlen => shows_of (i := .chgwrcol) hb hlen (wire_changeWriteSeq s.cfg _ hd .ccs),
    fun hlen => shows_of (i := .chgrow) hb hlen (wire_changeWriteSeq s.cfg _ hd .row)⟩

end Sys2Proof.Machine
end


section
/-! PROOFS. Hardware reset (70_reset_and_hazards.md R240), and what no step changes: the configuration (10_state.md R44),
and, while an operation runs, its operands and the operation itself (R244). -/

namespace Sys2Proof.Machine

/-- Settles O49: a step with rst is `State.hwReset`, and each reset value stands in its definition or in `State.reset`. -/
theorem hardwareReset : Obligations.HardwareReset := by
  unfold Obligations.HardwareReset
  exact ⟨fun s hr => ⟨s.hwReset, step_rst hr, by and_intros <;> rfl⟩, by and_intros <;> rfl⟩

/-- The host's access, a start of an operation among them, leaves the configuration alone. -/
theorem hostCycle_cfg {s t : State} {i : Input} (hc : s.cur = none) (h : hostCycle s i = .next t) : t.cfg = s.cfg := by
  rcases hostCycle_idle (i := i) (s.busy_eq_false.2 hc) with ⟨w, _, _, _, _, he⟩ | ⟨w, f, _, _, he⟩ | ⟨_, he⟩ <;>
    obtain rfl : _ = t := Host.Outcome.next.inj (he.symm.trans h)
  · rw [latchOpw_idle w hc]; rfl
  · rw [latchOpw_idle w hc]; cases f <;> rfl
  · obtain ⟨⟨hcfg, _⟩, _⟩ := hostAccess_sameCore s i.host i.levels
    exact hcfg

/-- A cycle of a running operation keeps it in CUR_OP, or ends it with DONE (10_state.md R32). -/
theorem seqCycle_cur {s t : State} {c : CurOp} {levels : Latch} (hc : s.cur = some c)
    (h : s.seqCycle levels = .next t) : t.cur = some c ∨ (t.cur = none ∧ t.done = true) := by
  obtain ⟨_, hcur, _⟩ := settle_pins s c
  have hset : (s.settle c).cur = some c := hcur.trans hc
  rcases seqCycle_cases hc h with ⟨_, rfl⟩ | ⟨m, _, _, ⟨_, rfl⟩ | ⟨_, rfl⟩⟩
  · exact .inr ⟨rfl, rfl⟩
  · exact .inl hset
  · rw [State.advance]
    split
    · exact .inl ((effectOf_cur ..).trans hset)
    · exact .inr ⟨rfl, rfl⟩

/-- A step without rst of a running operation keeps it in CUR_OP, or ends it with DONE. -/
theorem step_cur {s t : State} {c : CurOp} (hc : s.cur = some c) (hr : s.input.rst = false) (h : step s = .next t) :
    t.cur = some c ∨ (t.cur = none ∧ t.done = true) := by
  obtain ⟨s1, u, _, ⟨o, r, rfl⟩, hu, rfl⟩ := step_busy_inv hc hr h
  have hcycle := seqCycle_cur (s := { s with overrun := o, rData := r }) hc hu
  exact hcycle

/-- A step without rst of a running operation leaves the host's registers and buffers alone (20_memory.md R62). -/
theorem step_operands {s t : State} {c : CurOp} (hc : s.cur = some c) (hr : s.input.rst = false)
    (h : step s = .next t) :
    t.cfg = s.cfg ∧ t.opw = s.opw ∧ t.abuf = s.abuf ∧ t.txbuf = s.txbuf ∧ t.len = s.len ∧ t.pages = s.pages := by
  obtain ⟨s1, u, _, ⟨o, r, rfl⟩, hu, rfl⟩ := step_busy_inv hc hr h
  obtain ⟨hregs, _⟩ := seqCycle_sameHost hu
  exact hregs

/-- No step changes the configuration, by cases on rst and on whether an operation runs. -/
theorem step_cfg {s t : State} (h : step s = .next t) : t.cfg = s.cfg := by
  cases hr : s.input.rst with
  | true =>
    obtain rfl : s.hwReset = t := Host.Outcome.next.inj ((step_rst hr).symm.trans h)
    exact s.hwReset_cfg
  | false =>
    cases hc : s.cur with
    | none =>
      obtain ⟨u, hu, rfl⟩ := step_idle_inv hc hr h
      exact (State.tick_cfg ..).trans (hostCycle_cfg hc hu)
    | some c =>
      obtain ⟨hcfg, _⟩ := step_operands hc hr h
      exact hcfg

/-- Settles O57: the configuration in every step, the operands and CUR_OP in a step of a running operation. -/
theorem operandsStable : Obligations.OperandsStable := by
  unfold Obligations.OperandsStable
  intro s t h
  refine ⟨step_cfg h, fun hb hr => ?_⟩
  obtain ⟨c, hc⟩ := Option.isSome_iff_exists.1 hb
  obtain ⟨_, hopw, habuf, htxbuf, hlen, hpages⟩ := step_operands hc hr h
  exact ⟨hopw, habuf, htxbuf, hlen, hpages, hc ▸ step_cur hc hr h⟩

end Sys2Proof.Machine
end

section
/-! PROOFS. The three refusals (60_exceptions.md R220): what a host access does to OVERRUN, ILLOP and BADARG, whether an
operation runs or not. The sequencer writes none of them, so a step does to them what its host access does. -/

namespace Sys2Proof.Machine

/-! ### A write of OPW -/

/-- A write of OPW while no operation runs has one of three answers (30_encoding.md R96): ILLOP for a reserved op code,
BADARG outside the operation's domain, acceptance inside it. -/
theorem issue_idle_cases {s : State} (hb : s.busy = false) (w : Word) :
    (∃ e, decodeOpw w = .error e ∧ issue s w = .next { s with opw := w, illOp := true, badArg := false }) ∨
    ∃ i, decodeOpw w = .ok i ∧
      ((¬DomainOk i s ∧ issue s w = .next { s with opw := w, illOp := false, badArg := true }) ∨
       (DomainOk i s ∧
        issue s w = .next ((s.latchOpw w).accept (runningOp i) (expand i (s.latchOpw w)) (completionOf i)))) := by
  cases hd : decodeOpw w with
  | error e => exact .inl ⟨e, rfl, issue_reserved hb hd⟩
  | ok i =>
    have hlatch := latchOpw_idle w (s.busy_eq_false.1 hb)
    have hissue : issue s w = exec i (s.latchOpw w) := by rw [hlatch]; exact issue_decoded hb hd
    have hidle : (s.latchOpw w).busy = false := by rw [hlatch]; exact hb
    refine .inr ⟨i, rfl, ?_⟩
    by_cases hdom : DomainOk i s
    · exact .inr ⟨hdom, hissue.trans (exec_accepts hidle ((latchOpw_domain ..).2 hdom))⟩
    · refine .inl ⟨hdom, hissue.trans ((exec_refuses hidle (mt (latchOpw_domain ..).1 hdom)).trans ?_)⟩
      rw [hlatch]; rfl

/-- A write of OPW sets OVERRUN while an operation runs, and leaves it otherwise. -/
theorem issue_overrun {s t : State} {w : Word} (h : issue s w = .next t) : t.overrun = (s.busy || s.overrun) := by
  cases hb : s.busy with
  | true => rw [← Host.Outcome.next.inj ((issue_busy hb w).symm.trans h)]; rfl
  | false =>
    rcases issue_idle_cases hb w with ⟨_, _, he⟩ | ⟨i, _, ⟨_, he⟩ | ⟨_, he⟩⟩ <;>
      rw [← Host.Outcome.next.inj (he.symm.trans h)]
    · rfl
    · rfl
    · rw [latchOpw_idle w (s.busy_eq_false.1 hb)]; rfl

/-! ### The flags after a host access -/

/-- OVERRUN after a host access: set by a write of OPW while an operation runs, cleared by a 1 in bit 5 of STAT. -/
theorem hostCycle_overrun {s t : State} {i : Input} (h : hostCycle s i = .next t) :
    t.overrun = true ↔ (s.busy = true ∧ ∃ w, i.host = .write 0#4 w) ∨
      (s.overrun = true ∧ ∀ w, i.host = .write 1#4 w → w.getLsbD 5 = false) := by
  cases ha : i.host with
  | idle =>
    rw [hostCycle, ha] at h
    simp [← Host.Outcome.next.inj h, State.hostAccess]
  | read a =>
    rw [hostCycle_read ha] at h
    simp [← Host.Outcome.next.inj h, State.hostRead]
  | write a w =>
    by_cases h0 : a = 0#4
    · subst h0
      rw [hostCycle_opw ha] at h
      simp [issue_overrun h]
    · rw [hostCycle_write ha h0] at h
      by_cases h1 : a = 1#4
      · subst h1
        simp [← Host.Outcome.next.inj h, hostReg_stat.2, State.hostWrite]
      · simp [← Host.Outcome.next.inj h, hostWrite_flags s a w h1, h0, h1]

/-- ILLOP and BADARG are written by a write of OPW while no operation runs, by no other host access. -/
theorem hostCycle_illOp_badArg {s t : State} {i : Input} (h : hostCycle s i = .next t)
    (hkeep : s.busy = true ∨ ∀ w, i.host ≠ .write 0#4 w) : t.illOp = s.illOp ∧ t.badArg = s.badArg := by
  cases ho : opwWrite i.host with
  | none =>
    rw [hostCycle, ho] at h
    obtain rfl : _ = t := Host.Outcome.next.inj h
    obtain ⟨_, ⟨_, _, _, _, _, _, _, hill, hbad⟩, _⟩ := hostAccess_sameCore s i.host i.levels
    exact ⟨hill, hbad⟩
  | some w =>
    have hwrite := opwWrite_some.1 ho
    have hb : s.busy = true := hkeep.resolve_right fun hno => hno w hwrite
    rw [hostCycle_opw hwrite, issue_busy hb] at h
    rw [← Host.Outcome.next.inj h]
    exact ⟨rfl, rfl⟩

/-! ### The flags after a step -/

/-- The three flags after a step without rst are those after its host access. -/
theorem step_refusalFlags {s t : State} (hr : s.input.rst = false) (h : step s = .next t) :
    ∃ u, hostCycle s s.input = .next u ∧ t.overrun = u.overrun ∧ t.illOp = u.illOp ∧ t.badArg = u.badArg := by
  cases hc : s.cur with
  | none =>
    obtain ⟨u, hu, rfl⟩ := step_idle_inv hc hr h
    exact ⟨u, hu, rfl, rfl, rfl⟩
  | some c =>
    obtain ⟨u, v, hu, _, hv, rfl⟩ := step_busy_inv hc hr h
    obtain ⟨_, ⟨hill, hover, hbad, _⟩, _⟩ := seqCycle_sameHost hv
    exact ⟨u, hu, hover, hill, hbad⟩

/-- Settles O7: the flags by the host access, and the three answers to a write of OPW while no operation runs. -/
theorem refusalFlags : Obligations.RefusalFlags := by
  unfold Obligations.RefusalFlags
  intro s t hr h
  obtain ⟨u, hu, hover, hill, hbad⟩ := step_refusalFlags hr h
  refine ⟨hover ▸ hostCycle_overrun hu, hill ▸ hbad ▸ hostCycle_illOp_badArg hu, fun w hb hh => ?_⟩
  obtain ⟨v, hv, rfl⟩ := step_idle_inv (s.busy_eq_false.1 hb) hr h
  rw [hostCycle_opw hh] at hv
  have hdecode : decode (.opw w) = decodeOpw w := rfl
  rw [hdecode]
  rcases issue_idle_cases hb w with ⟨e, hd, he⟩ | ⟨i, hd, ⟨hdom, he⟩ | ⟨hdom, he⟩⟩ <;>
    obtain rfl : _ = v := Host.Outcome.next.inj (he.symm.trans hv)
  · simp [hd]
  · simp [hd, hdom]
  · simp [hd, hdom]

end Sys2Proof.Machine
end

section
/-! PROOFS. A device that stays ready lets every operation end (70_reset_and_hazards.md R257, 43_ready_busy.md R155,
R156): once the level has gone through the synchroniser each POLL takes one cycle, and the operation draws the pins of the
rest of its sequence, one entry a cycle, to its end. -/

namespace Sys2Proof.Machine

/-! ### Fewer cycles, and the cycles after some of them -/

theorem State.NoResetFor.of_le {s : State} {m n : Nat} (h : s.NoResetFor n) (hmn : m ≤ n) : s.NoResetFor m := by
  obtain ⟨hlisted, hrst⟩ := h
  exact ⟨hmn.trans hlisted, fun i hi => hrst i (List.take_subset_take_left _ hmn hi)⟩

theorem State.NoResetFor.drop {s t : State} {n : Nat} (k : Nat) (h : s.NoResetFor (k + n))
    (hin : t.inputs = s.inputs.drop k) : t.NoResetFor n := by
  obtain ⟨hlisted, hrst⟩ := h
  refine ⟨by rw [hin, List.length_drop]; omega, fun i hi => hrst i ?_⟩
  rw [hin, List.take_drop] at hi
  exact List.mem_of_mem_drop hi

theorem State.DeviceReady.of_le {s : State} {m n : Nat} (h : s.DeviceReady n) (hmn : m ≤ n) : s.DeviceReady m := by
  obtain ⟨hne, hsync, hrb⟩ := h
  exact ⟨hne, hsync, fun i hi => hrb i (List.take_subset_take_left _ hmn hi)⟩

/-! ### The end of an operation within a number of cycles -/

/-- Within `n` steps the running operation has ended. -/
def State.EndsWithin (s : State) (n : Nat) : Prop :=
  ∃ k t, k ≤ n ∧ runSteps k s = .next t ∧ t.busy = false ∧ t.done = true

theorem State.EndsWithin.mono {s : State} {m n : Nat} (h : s.EndsWithin m) (hmn : m ≤ n) : s.EndsWithin n := by
  obtain ⟨k, t, hk, ht⟩ := h
  exact ⟨k, t, hk.trans hmn, ht⟩

theorem State.EndsWithin.after_run {s t : State} {m n : Nat} (hrun : runSteps m s = .next t) (h : t.EndsWithin n) :
    s.EndsWithin (m + n) := by
  obtain ⟨k, u, hk, hu, hend⟩ := h
  exact ⟨m + k, u, Nat.add_le_add_left hk m, (runSteps_add k hrun).trans hu, hend⟩

theorem runSteps_one {s t : State} (h : step s = .next t) : runSteps 1 s = .next t := runSteps_succ 0 h

theorem State.EndsWithin.after_step {s t : State} {n : Nat} (hs : step s = .next t) (h : t.EndsWithin n) :
    s.EndsWithin (n + 1) := by
  rw [Nat.add_comm]
  exact .after_run (runSteps_one hs) h

/-- A run without reset from a running operation to a state with none has passed its end, whatever ran after it. -/
theorem endsWithin_of_run {c : CurOp} (n : Nat) {s u : State} (hc : s.cur = some c) (hin : s.NoResetFor n)
    (hrun : runSteps n s = .next u) (hu : u.busy = false) : s.EndsWithin n := by
  induction n generalizing s with
  | zero =>
    obtain rfl : s = u := Host.Outcome.next.inj hrun
    rw [s.busy_eq_false.1 hu] at hc
    cases hc
  | succ n ih =>
    obtain ⟨i, rest, _, hii, hr⟩ := NoResetFor.head hin
    obtain ⟨t, hs, ht⟩ := runSteps_succ_inv hrun
    rcases step_cur hc (hii ▸ hr) hs with hsome | ⟨hnone, hdone⟩
    · obtain ⟨hinputs, _⟩ := step_shifts (hii ▸ hr) hs
      exact .after_step hs (ih hsome (NoResetFor.tail hin hinputs) ht)
    · exact ⟨1, t, by omega, runSteps_one hs, t.busy_eq_false.2 hnone, hdone⟩

/-! ### What is left to do -/

theorem seqCost_drop_le (l : List MicroStep) (n : Nat) : seqCost (l.drop n) ≤ seqCost l := by
  have hsplit := seqCost_append (l.take n) (l.drop n)
  rw [List.take_append_drop] at hsplit
  omega

/-- No step adds to the cycles of the rest of the sequence. -/
theorem Moves.seqCost_le {s t : State} (h : Moves s t) : seqCost t.rest ≤ seqCost s.rest := by
  cases h with
  | holds hrest _ _ =>
    rw [hrest]
    exact seqCost_drop_le ..
  | ends m r hs hrest _ _ =>
    calc seqCost t.rest ≤ seqCost r := hrest ▸ seqCost_drop_le ..
      _ ≤ seqCost (m :: r) := by rw [seqCost_cons]; omega
      _ = seqCost (pastZeros s.rest) := by rw [hs]
      _ ≤ seqCost s.rest := seqCost_drop_le ..

/-- A delay that has begun has no more cycles left than it has, and a sequence with nothing left takes one cycle. -/
theorem pinsLeft_length_le {d : Nat} {l : List MicroStep} (p : Pins) (h : DlyOk l.head? d) :
    (pinsLeft d p l).length ≤ 1 + seqCost l := by
  cases l with
  | nil => exact le_rfl
  | cons m r =>
    obtain ⟨op, q⟩ := m
    cases op with
    | dly k =>
      have hk : d ≤ k := h
      simp only [pinsLeft, List.length_append, List.length_replicate, pinsRun_length, seqCost_cons, microCost]
      omega
    | _ =>
      simp only [pinsLeft, List.length_cons, pinsRun_length, seqCost_cons, microCost]
      omega

/-- What a running operation still draws takes the cycles of the rest of its sequence, one more at most. -/
theorem toDraw_length_le {s : State} {c : CurOp} (h : s.Running c) :
    (s.toDraw c).length ≤ 1 + seqCost (c.seq.drop s.seqPc) := by
  obtain ⟨_, _, hdly⟩ := running_iff.1 (settle_running h)
  obtain ⟨_, _, hpc⟩ := settle_pins s c
  have hskip : seqCost (c.seq.drop (s.settle c).seqPc) ≤ seqCost (c.seq.drop s.seqPc) := by
    rw [hpc, drop_skipZero]
    exact seqCost_drop_le ..
  rw [← List.head?_drop] at hdly
  have hlen := pinsLeft_length_le s.pins hdly
  rw [State.toDraw]
  omega

/-! ### The cycles of the synchroniser -/

/-- Once `rb` has been high for as many cycles as there are stages, the synchroniser holds only 1 (10_state.md R35). -/
theorem syncAfter_high {q : List Bool} {ins : List Input} (hlen : q.length ≤ ins.length)
    (h : ∀ i ∈ ins, i.rb = true) : ∀ b ∈ syncAfter q ins, b = true := by
  intro b hb
  rw [syncAfter_eq_take, List.take_append_of_le_length (by simpa using hlen)] at hb
  obtain ⟨i, hi, rfl⟩ := List.mem_map.1 (List.mem_reverse.1 (List.mem_of_mem_take hb))
  exact h i hi

/-- From a state of the invariant, whatever the host and the device do short of a reset: within `n` steps the operation
has ended, or after them it still runs, with no more to do than before. -/
theorem endsWithin_or_runs {c : CurOp} (n : Nat) {s : State} (hinv : s.Inv) (hc : s.cur = some c)
    (hin : s.NoResetFor n) :
    s.EndsWithin n ∨ ∃ t, runSteps n s = .next t ∧ t.Inv ∧ t.cur = some c ∧ t.inputs = s.inputs.drop n ∧
      seqCost t.rest ≤ seqCost s.rest := by
  induction n generalizing s with
  | zero => exact .inr ⟨s, rfl, hinv, hc, rfl, le_rfl⟩
  | succ n ih =>
    obtain ⟨i, rest, _, hii, hr⟩ := NoResetFor.head hin
    obtain ⟨t, hs⟩ := neverStops s hinv
    rcases step_cur hc (hii ▸ hr) hs with hsome | ⟨hnone, hdone⟩
    · obtain ⟨hinputs, _⟩ := step_shifts (hii ▸ hr) hs
      obtain ⟨hmoves, _⟩ := step_moves hc (hii ▸ hr) hs
      rcases ih (invKept s t hinv hs) hsome (NoResetFor.tail hin hinputs) with hend | ⟨u, hu, huinv, huc, huin, hcost⟩
      · exact .inl (.after_step hs hend)
      · refine .inr ⟨u, (runSteps_succ n hs).trans hu, huinv, huc, ?_, hcost.trans hmoves.seqCost_le⟩
        rw [huin, hinputs, List.drop_tail]
    · exact .inl ⟨1, t, by omega, runSteps_one hs, t.busy_eq_false.2 hnone, hdone⟩

/-! ### The cycles on a ready device -/

/-- On a ready device a running operation ends within the cycles of the rest of its sequence and one more. -/
theorem endsWithin_of_ready {s : State} {c : CurOp} (hinv : s.Inv) (hc : s.cur = some c)
    (hin : s.NoResetFor (1 + seqCost s.rest)) (hready : s.DeviceReady (1 + seqCost s.rest)) :
    s.EndsWithin (1 + seqCost s.rest) := by
  obtain ⟨_, hrunning⟩ := (inv_running hc).1 hinv
  have hlen : (s.toDraw c).length ≤ 1 + seqCost s.rest := by
    rw [rest_of_some hc]
    exact toDraw_length_le hrunning
  have hin' := hin.of_le hlen
  obtain ⟨_, u, hu, hidle⟩ := run_draws _ s hc rfl hin' hrunning.capturesFit (.inr (hready.of_le hlen))
  exact (endsWithin_of_run _ hc hin' hu hidle).mono hlen

/-- Settles O59: the operation ends while the synchroniser fills with 1, or it ends on the ready device it then sees. -/
theorem readyCompletes : Obligations.ReadyCompletes := by
  unfold Obligations.ReadyCompletes
  intro s c n hinv hc hn hin hrb
  obtain ⟨hregs, _⟩ := (inv_running hc).1 hinv
  obtain ⟨_, _, _, hstages⟩ := hregs.valid
  have hsync := hregs.sync
  rw [← rest_of_some hc, Nat.add_assoc] at hn
  subst hn
  rw [← hsync] at hin hrb hstages ⊢
  have hfill := hin.of_le (Nat.le_add_right ..)
  rcases endsWithin_or_runs _ hinv hc hfill with hend | ⟨t, ht, htinv, htc, htin, hcost⟩
  · exact hend.mono (Nat.le_add_right ..)
  · have hhigh : ∀ b ∈ t.rbSync, b = true := by
      rw [runSteps_rbSync _ hfill ht]
      obtain ⟨hlisted, _⟩ := hfill
      exact syncAfter_high (by rw [List.length_take_of_le hlisted]) fun i hi =>
        hrb i (List.take_subset_take_left _ (Nat.le_add_right ..) hi)
    have hne : t.rbSync ≠ [] := by
      rw [runSteps_rbSync _ hfill ht, ← List.length_pos_iff, syncAfter_length]
      exact hstages
    have hready : t.DeviceReady (1 + seqCost s.rest) :=
      ⟨hne, hhigh, fun i hi => hrb i (by
        rw [htin, List.take_drop] at hi
        exact List.mem_of_mem_drop hi)⟩
    have hleft : 1 + seqCost t.rest ≤ 1 + seqCost s.rest := by omega
    exact State.EndsWithin.after_run ht
      ((endsWithin_of_ready htinv htc ((hin.drop _ htin).of_le hleft) (hready.of_le hleft)).mono hleft)

end Sys2Proof.Machine
end
